-- ==== Sys2Proof/Word.lean ====
section
/-! DEFINITION. The word types of the block (spec/00_scope.md R12: `u8`, `u16`, `u32`; no value is signed). -/

namespace Sys2Proof

/-- `u8`: a byte on the wire, a byte of memory, an opcode, a checksum (R12). -/
abbrev Byte := BitVec 8

/-- `u32`: an address or a 32-bit value; arithmetic is modulo 2^32 (R12). -/
abbrev Addr := BitVec 32

end Sys2Proof
end

