-- ==== Sys2Proof/Config.lean ====
section
/-! DEFINITION. What an implementation fixes: the constants of spec/00_scope.md R8, the parameters of R10 (a structure
that State carries and no step writes, log 7) and the free values, which nothing constrains (log 8, log 10). -/

namespace Sys2Proof

namespace Const

/-- `INIT_BYTE` (R8). -/
abbrev initByte : Byte := 0x7F
/-- `ACK` (R8). -/
abbrev ack : Byte := 0x79
/-- `NACK` (R8). -/
abbrev nack : Byte := 0x1F
/-- `FLASH_BASE` (R8). -/
abbrev flashBase : Nat := 0x08006000
/-- `FLASH_TOP`, inclusive (R8). -/
abbrev flashTop : Nat := 0x0801FFFF
/-- `RAM_BASE` (R8). -/
abbrev ramBase : Nat := 0x20000200
/-- `RAM_TOP`, inclusive (R8). -/
abbrev ramTop : Nat := 0x20005000
/-- `OB_BASE` (R8). -/
abbrev obBase : Nat := 0x1FFFF800
/-- `PAGE_SIZE`, the erase unit (R8). -/
abbrev pageSize : Nat := 0x400
/-- `SECTOR_SIZE`, the write-protection unit (R8). -/
abbrev sectorSize : Nat := 0x1000
/-- `GETCMD_COUNT` (R8). -/
abbrev getCmdCount : Byte := 0x0B
/-- `PROTO_VERSION` (R8). -/
abbrev protoVersion : Byte := 0x10
/-- Bytes of class `Flash` (R9). -/
abbrev flashSize : Nat := 0x1A000
/-- Pages of class `Flash` (R9). -/
abbrev flashPages : Nat := 104
/-- Bytes of class `Ram`, both ends inclusive (R9). -/
abbrev ramSize : Nat := 0x4E01
/-- What a flash or option byte that nothing has written reads as: the launch contents of log 11. -/
abbrev launchByte : Byte := 0xFF
/-- What "clear RAM" writes (R108, D25). -/
abbrev clearedByte : Byte := 0x00

end Const

/-- The values of `READ_COUNT_CKS : u8 -> u8` (R10, D10) as plain data: the default, the alternative D10 names, and any
other function by its table of 256 entries (log 9). -/
inductive CountChecksum where
  | identity
  | complement
  | table (entries : List Byte)
deriving DecidableEq, Repr

/-- `READ_LENGTH_MODE` (R10, D11). -/
inductive ReadLengthMode where
  | exact
  | words
deriving DecidableEq, Repr

/-- `HDR_MISMATCH_NACKS` (R10, D4). -/
inductive MismatchNacks where
  | one
  | two
deriving DecidableEq, Repr

/-- `CMD_TIMEOUT_MODE` (R10, D3): `proceed` is the spec's `continue`, `finish` its `end`. -/
inductive CmdTimeoutMode where
  | proceed
  | finish
deriving DecidableEq, Repr

/-- `ERASE_CKS_FAIL_MODE` (R10, D20): `proceed` is the spec's `continue`. -/
inductive EraseFailMode where
  | abort
  | proceed
deriving DecidableEq, Repr

/-- The configuration parameters of R10 that the source leaves open. -/
structure Config where
  /-- `VERSION_BYTE` (D7). -/
  versionByte : Byte
  /-- `ID_BYTES`, three bytes (D8). -/
  idBytes : Byte × Byte × Byte
  /-- `READ_COUNT_CKS` (D10). -/
  readCountCks : CountChecksum
  /-- `READ_LENGTH_MODE` (D11). -/
  readLengthMode : ReadLengthMode
  /-- `RAM_WRITE_ACK` (D15). -/
  ramWriteAck : Bool
  /-- `HDR_MISMATCH_NACKS` (D4). -/
  hdrMismatchNacks : MismatchNacks
  /-- `CMD_TIMEOUT_MODE` (D3). -/
  cmdTimeoutMode : CmdTimeoutMode
  /-- `ERASE_CKS_FAIL_MODE` (D20). -/
  eraseCksFailMode : EraseFailMode
  /-- `ROP_GUARDED` (D24), as a list; 0x63 is guarded whether it is listed or not (log 23). -/
  ropGuarded : List Byte
  /-- `ERASED_BYTE` (D21). -/
  erasedByte : Byte
  /-- `OB_SIZE` (D36). -/
  obSize : Nat
  /-- `BL_BASE` (D35). -/
  blBase : Addr
  /-- `BL_TOP`, inclusive (D35). -/
  blTop : Addr
deriving DecidableEq, Repr

/-- The `ID_BYTES` of the part at hand: OPEN with no default (D8), a free value. -/
opaque Config.openIdByte : Nat → Byte

/-- The n-th free byte: what a flash byte takes where R96 or R97 says "any value" (a draw). -/
opaque Config.freeByte : Nat → Byte

/-- The n-th free bit: what `ROP` takes at a reset after an option-byte write (R106, a draw). -/
opaque Config.freeRop : Nat → Bool

/-- The n-th free mask: what `WRP` takes at a reset after an option-byte write (R106, a draw). -/
opaque Config.freeWrp : Nat → BitVec 26

/-- The value R10 takes for each parameter. -/
def Config.default : Config where
  versionByte := 0x10
  idBytes := (Config.openIdByte 0, Config.openIdByte 1, Config.openIdByte 2)
  readCountCks := .identity
  readLengthMode := .exact
  ramWriteAck := false
  hdrMismatchNacks := .one
  cmdTimeoutMode := .proceed
  eraseCksFailMode := .abort
  ropGuarded := [0x63]
  erasedByte := 0xFF
  obSize := 16
  blBase := 0x08000000
  blTop := 0x08005FFF

end Sys2Proof
end

