-- ==== Sys2Proof/Syntax.lean ====
section
/-! DEFINITION. The commands as syntax: one constructor per row of spec/opcode_table.json, with the operand frames of
spec/30_encoding.md R63 to R66. The checksum bytes are operands: every byte value is legal at every position of a frame
(R76), and a wrong checksum is answered by the command itself. -/

namespace Sys2Proof

/-- One command of the wire (R60), in the order of the opcode table. -/
inductive Instr where
  /-- The initialisation byte, format INIT (R61, R109). -/
  | init
  /-- get-commands (R120). -/
  | get
  /-- get-version (R121). -/
  | gv
  /-- get-id (R122). -/
  | gid
  /-- read-memory: ADDR frame, CNT frame (R63, R64, R123). -/
  | rm (addr : Addr) (acks count ncks : Byte)
  /-- go: ADDR frame (R63, R125). -/
  | go (addr : Addr) (acks : Byte)
  /-- write-memory: ADDR frame, DATA frame (R63, R65, R124). -/
  | wm (addr : Addr) (acks : Byte) (payload : List Byte) (cks : Byte)
  /-- erase: `none` is format ALL, `some (indices, cks)` a LIST frame of page indices (R66, R127). -/
  | er (list : Option (List Byte × Byte))
  /-- extended-erase (R128). -/
  | ee
  /-- write-protect: LIST frame of sector indices (R66, R130). -/
  | wp (indices : List Byte) (cks : Byte)
  /-- write-unprotect (R131). -/
  | wu
  /-- readout-protect (R132). -/
  | rp
  /-- readout-unprotect (R133). -/
  | ru
deriving DecidableEq, Repr

end Sys2Proof
end

