-- ==== Sys2Proof/WellFormed.lean ====
section
/-! DEFINITION. Which terms of Instr stand for bytes on the wire: `number` encodes the payload length minus one in one byte
(spec/30_encoding.md R65, R66, R70), and an erase list never has `number = 0xFF` (R77, R127). -/

namespace Sys2Proof

/-- A DATA or LIST payload has 1 to 256 bytes (R65, R70). -/
def payloadOk (payload : List Byte) : Bool :=
  1 ≤ payload.length && payload.length ≤ 256

/-- The checks of every constructor; a command without a list has none. -/
def Instr.wellFormed : Instr → Bool
  | .init | .get | .gv | .gid | .ee | .wu | .rp | .ru => true
  | .rm _ _ _ _ => true
  | .go _ _ => true
  | .wm _ _ payload _ => payloadOk payload
  | .er none => true
  | .er (some (indices, _)) => 1 ≤ indices.length && indices.length ≤ 255
  | .wp indices _ => payloadOk indices

/-- The instruction has an encoding. -/
abbrev WellFormed (i : Instr) : Prop := i.wellFormed = true

end Sys2Proof
end

