-- ==== Sys2Proof/Decode.lean ====
section
/-! DEFINITION. From bytes to commands and back, written from spec/30_encoding.md. The decoder is total and rejects by
name; the encoder follows the same formats. -/

namespace Sys2Proof

/-! ## The opcode map (R73) -/

/-- The closed set of twelve opcodes (R3, R73); INIT is no opcode of the command loop (R119). -/
inductive Command where
  | get | gv | gid | rm | go | wm | er | ee | wp | wu | rp | ru
deriving DecidableEq, Repr

/-- The opcode of a command (R73). -/
def Command.opcode : Command → Byte
  | .get => 0x00
  | .gv => 0x01
  | .gid => 0x02
  | .rm => 0x11
  | .go => 0x21
  | .wm => 0x31
  | .er => 0x43
  | .ee => 0x44
  | .wp => 0x63
  | .wu => 0x73
  | .rp => 0x82
  | .ru => 0x92

/-- The twelve commands in the order of R73, which is the ascending order of their opcodes. -/
def Command.all : List Command :=
  [.get, .gv, .gid, .rm, .go, .wm, .er, .ee, .wp, .wu, .rp, .ru]

/-- The command of an opcode byte, if it is one of the twelve (R73, R75). -/
def Command.ofOpcode (op : Byte) : Option Command :=
  Command.all.find? fun c => c.opcode == op

/-- The complement byte of a header, `~op` (R62). -/
def complement (op : Byte) : Byte := ~~~op

/-! ## Operand assembly (R69, R70) -/

/-- Where address byte `k` goes: the first byte received is the most significant (R69). -/
def placeAddrByte (k : Nat) (b : Byte) : Addr := b.setWidth 32 <<< (24 - 8 * k)

/-- `b0 << 24 | b1 << 16 | b2 << 8 | b3` (R69, R83). -/
def wireWord (b0 b1 b2 b3 : Byte) : Addr :=
  placeAddrByte 0 b0 ||| placeAddrByte 1 b1 ||| placeAddrByte 2 b2 ||| placeAddrByte 3 b3

/-- Bits `8k+7 : 8k` of a 32-bit value (R44). -/
def byteOf (k : Nat) (w : Addr) : Byte := w.extractLsb' (8 * k) 8

/-- The four bytes of an address in wire order, most significant first (R40, R63). -/
def wireBytes (w : Addr) : List Byte := [byteOf 3 w, byteOf 2 w, byteOf 1 w, byteOf 0 w]

/-- The four bytes of a 32-bit value, least significant first: memory order (R42), the order of `SEND_WORD` (R84) and of the
address checksum (R43). -/
def leBytes (w : Addr) : List Byte := [byteOf 0 w, byteOf 1 w, byteOf 2 w, byteOf 3 w]

/-- `number`, the payload length minus one (R65, R70). -/
def numberOf (payload : List Byte) : Byte := BitVec.ofNat 8 (payload.length - 1)

/-! ## Decoding -/

/-- The two places where the block accepts a command: `AWAIT_INIT` takes INIT (R61), the head of the command loop takes a
header (R62). -/
inductive AcceptPoint where
  | awaitInit
  | commandLoop
deriving DecidableEq, Repr

/-- Why bytes are no command. -/
inductive DecodeError where
  /-- The bytes end before the command does. -/
  | truncated
  /-- At `AWAIT_INIT`, a byte other than 0x7F (R109). -/
  | notInitByte (b : Byte)
  /-- The complement byte is not `~op` (R74). -/
  | headerMismatch (op cp : Byte)
  /-- `op` is none of the twelve opcodes (R75). -/
  | unknownOpcode (op : Byte)
deriving DecidableEq, Repr

/-- What follows `number` in a DATA or LIST frame: `number + 1` payload bytes and the checksum (R65, R66). -/
def decodeBody (number : Byte) (bs : List Byte) : Except DecodeError (List Byte × Byte × List Byte) :=
  match bs.drop (number.toNat + 1) with
  | [] => .error .truncated
  | cks :: rest => .ok (bs.take (number.toNat + 1), cks, rest)

/-- The operand frames of each command (R77); the rest of the bytes is returned. -/
def decodeOperands (c : Command) (bs : List Byte) : Except DecodeError (Instr × List Byte) :=
  match c with
  | .get => .ok (.get, bs)
  | .gv => .ok (.gv, bs)
  | .gid => .ok (.gid, bs)
  | .rm =>
    match bs with
    | b0 :: b1 :: b2 :: b3 :: acks :: count :: ncks :: rest =>
      .ok (.rm (wireWord b0 b1 b2 b3) acks count ncks, rest)
    | _ => .error .truncated
  | .go =>
    match bs with
    | b0 :: b1 :: b2 :: b3 :: acks :: rest => .ok (.go (wireWord b0 b1 b2 b3) acks, rest)
    | _ => .error .truncated
  | .wm =>
    match bs with
    | b0 :: b1 :: b2 :: b3 :: acks :: number :: body =>
      match decodeBody number body with
      | .error e => .error e
      | .ok (payload, cks, rest) => .ok (.wm (wireWord b0 b1 b2 b3) acks payload cks, rest)
    | _ => .error .truncated
  | .er =>
    match bs with
    | [] => .error .truncated
    | number :: body =>
      if number = 0xFF then .ok (.er none, body)
      else
        match decodeBody number body with
        | .error e => .error e
        | .ok (indices, cks, rest) => .ok (.er (some (indices, cks)), rest)
  | .ee => .ok (.ee, bs)
  | .wp =>
    match bs with
    | [] => .error .truncated
    | number :: body =>
      match decodeBody number body with
      | .error e => .error e
      | .ok (indices, cks, rest) => .ok (.wp indices cks, rest)
  | .wu => .ok (.wu, bs)
  | .rp => .ok (.rp, bs)
  | .ru => .ok (.ru, bs)

/-- A header and its operand frames (R62, R74, R75, R77). -/
def decodeCommand (bs : List Byte) : Except DecodeError (Instr × List Byte) :=
  match bs with
  | op :: cp :: operands =>
    if cp = complement op then
      match Command.ofOpcode op with
      | none => .error (.unknownOpcode op)
      | some c => decodeOperands c operands
    else .error (.headerMismatch op cp)
  | _ => .error .truncated

/-- The INIT format (R61). -/
def decodeInit (bs : List Byte) : Except DecodeError (Instr × List Byte) :=
  match bs with
  | [] => .error .truncated
  | b :: rest => if b = Const.initByte then .ok (.init, rest) else .error (.notInitByte b)

/-- The command at the head of the bytes, as the accept point reads it, and the bytes after it. -/
def decode (p : AcceptPoint) (bs : List Byte) : Except DecodeError (Instr × List Byte) :=
  match p with
  | .awaitInit => decodeInit bs
  | .commandLoop => decodeCommand bs

/-! ## Encoding (R61 to R66, R79) -/

/-- The header `[op][~op]` (R62). -/
def headerBytes (c : Command) : List Byte := [c.opcode, complement c.opcode]

/-- An ADDR frame (R63). -/
def addrFrame (addr : Addr) (acks : Byte) : List Byte := wireBytes addr ++ [acks]

/-- A DATA or LIST frame (R65, R66). -/
def dataFrame (payload : List Byte) (cks : Byte) : List Byte := numberOf payload :: (payload ++ [cks])

/-- The command of an instruction; INIT has none. -/
def Instr.command : Instr → Option Command
  | .init => none
  | .get => some .get
  | .gv => some .gv
  | .gid => some .gid
  | .rm _ _ _ _ => some .rm
  | .go _ _ => some .go
  | .wm _ _ _ _ => some .wm
  | .er _ => some .er
  | .ee => some .ee
  | .wp _ _ => some .wp
  | .wu => some .wu
  | .rp => some .rp
  | .ru => some .ru

/-- Where an instruction is accepted (R61, R62). -/
def Instr.acceptPoint (i : Instr) : AcceptPoint :=
  match i.command with
  | none => .awaitInit
  | some _ => .commandLoop

/-- The bytes of the frames that follow the header, in wire order (R77). -/
def operandBytes : Instr → List Byte
  | .init | .get | .gv | .gid | .ee | .wu | .rp | .ru => []
  | .rm addr acks count ncks => addrFrame addr acks ++ [count, ncks]
  | .go addr acks => addrFrame addr acks
  | .wm addr acks payload cks => addrFrame addr acks ++ dataFrame payload cks
  | .er none => [0xFF]
  | .er (some (indices, cks)) => dataFrame indices cks
  | .wp indices cks => dataFrame indices cks

/-- The bytes the host sends for an instruction (R79; here with the checksum the instruction carries). -/
def encode (i : Instr) : List Byte :=
  match i.command with
  | none => [Const.initByte]
  | some c => headerBytes c ++ operandBytes i

/-- The length of an instruction on the wire by R77. -/
def wireLength : Instr → Nat
  | .init => 1
  | .get | .gv | .gid | .ee | .wu | .rp | .ru => 2
  | .rm _ _ _ _ => 2 + 5 + 2
  | .go _ _ => 2 + 5
  | .wm _ _ payload _ => 2 + 5 + (payload.length + 2)
  | .er none => 2 + 1
  | .er (some (indices, _)) => 2 + (indices.length + 2)
  | .wp indices _ => 2 + (indices.length + 2)

/-! ## The opcode table's numbering -/

/-- Zero bytes enough for the operand frames of the longest command (write-memory: 5 + 258, R77). -/
def operandZeros : List Byte := List.replicate 263 0

/-- The bytes of a table word of `nbits` bits: the table numbers the first byte on the wire highest (R60: "byte offset 0 is
the first byte on the wire, and a frame read as one number puts byte 0 in its most significant position"; log 19). -/
def tableBytes (nbits w : Nat) : List Byte :=
  if nbits ≤ 8 then [BitVec.ofNat 8 w]
  else BitVec.ofNat 8 (w / 256) :: BitVec.ofNat 8 w :: operandZeros

/-- Where a table word of `nbits` bits is accepted: the one row of 8 bits is INIT (R61), a row of 16 bits is a header. -/
def tableAcceptPoint (nbits : Nat) : AcceptPoint :=
  if nbits ≤ 8 then .awaitInit else .commandLoop

/-- The instruction the decoder reads from a word of the opcode table, operand bytes of zeros after it. -/
def decodeTableWord (nbits w : Nat) : Option Instr :=
  match decode (tableAcceptPoint nbits) (tableBytes nbits w) with
  | .ok (i, _) => some i
  | .error _ => none

end Sys2Proof
end

