-- ==== Sys2Proof/Machine/State.lean ====
section
/-! DEFINITION. The state of the block as plain data (spec/10_state.md, spec/20_memory.md R39), the reasons a run can stop,
and the state after reset. -/

namespace Sys2Proof.Machine

/-- The datapath registers of R23, by name. -/
inductive Register where
  | cmd | cmp | addr | acks | num | ncks | buf | cks | i
deriving DecidableEq, Repr

/-- Why the block is in `FAULT(r)` (R135). Raised by the operation named at each constructor, which moves the block to the
control state `fault r`; `step` answers it from that state on (log 4). Every one is safe: the machine stops where the chip
may go on. -/
inductive Fault where
  /-- `MemRead` in read-memory, go and the boot hand-off: byte `x` has no storage (R46). Safe. -/
  | readUnmapped (x : Addr)
  /-- `MemWrite` in write-memory's RAM path: the byte is outside class `Ram` (R47). Safe. -/
  | ramWriteOutOfWindow (a : Addr)
  /-- `FC.programWord`: the address is no multiple of 4 (R96). Safe. -/
  | flashProgramMisaligned (a : Addr)
  /-- `FC.programWord`: the address is outside class `Flash` (R96). Safe. -/
  | flashProgramOutOfRange (a : Addr)
  /-- `FC.erasePage`: no page of class `Flash` starts there (R97). Safe. -/
  | erasePageInvalid (p : Addr)
  /-- `FC.enableWriteProtection`: no sector of class `Flash` starts there (R100). Safe. -/
  | wrpSectorInvalid (s : Addr)
  /-- `FC.programOptionBytes`: more than `OB_SIZE` bytes (R99). Safe. -/
  | obWriteOutOfRange (n : Nat)
  /-- `SEND` under the environment event `TxError` (R86). Safe. -/
  | txIoError
  /-- A handler reads a datapath register that holds no value: R24 asks for this fault. No run from a launch state reaches it (log 15). Safe. -/
  | unwrittenRegister (r : Register)
  /-- A handler wait point whose `CMD` names no handler that waits there. No run from a launch state reaches it (log 15). Safe. -/
  | strayWaitPoint
deriving DecidableEq, Repr

/-- Why a step has no meaning. -/
inductive Refusal where
  /-- Raised by `exec` for an instruction that has no meaning yet; no arm raises it. Safe. -/
  | notModelled (mnemonic : String)
deriving DecidableEq, Repr

/-- The protocol errors E1 to E8 of R134, in its order. -/
inductive ProtocolError where
  | timeout
  | headerMismatch
  | unknownOpcode
  | checksumMismatch
  | invalidAddress
  | protectionViolation
  | unimplemented
  | initFailed
deriving DecidableEq, Repr

/-- One receive event of a wait point (R22). -/
inductive RxEvent where
  | byte (b : Byte)
  | timeout
deriving DecidableEq, Repr

/-- The control state `cs`, the block's program counter (R21). -/
inductive ControlState where
  /-- `BOOT`: the reset sequence runs. -/
  | boot
  /-- `AWAIT_INIT`. -/
  | awaitInit
  /-- `CMD_OP`, the head of the command loop. -/
  | cmdOp
  /-- `CMD_CP`. -/
  | cmdCp
  /-- `ADDR(k)`. -/
  | addr (k : Fin 4)
  /-- `ADDR_CKS`. -/
  | addrCks
  /-- `RM_N`. -/
  | rmN
  /-- `RM_NCKS`. -/
  | rmNcks
  /-- `F_N`. -/
  | fN
  /-- `F_D(i)`. -/
  | fD (i : Nat)
  /-- `F_CKS`. -/
  | fCks
  /-- `HANDED_OFF(a, sp, entry)`, terminal. -/
  | handedOff (a sp entry : Addr)
  /-- `INIT_FAILED`, terminal. -/
  | initFailed
  /-- `FAULT(r)`, terminal. -/
  | fault (r : Fault)
deriving DecidableEq, Repr

/-- `FLASH`, `RAM` and `OB` (R39) as one list of (address, byte), addresses rising, no entry equal to what an unlisted
address reads as (`Memory.wf`). -/
abbrev Memory := List Host.Cell

/-- The state of the block (R19) and, after it, what the model adds: the environment's script, the counter of free values
and the parameters. -/
structure State where
  /-- The control state (R21). -/
  cs : ControlState
  /-- `CMD`, the opcode byte; no value at `CMD_OP` (R23, R24). -/
  cmd : Option Byte
  /-- `CMP`, the complement byte (R23). -/
  cmp : Option Byte
  /-- `ADDR`, the address received so far (R23, log 16). -/
  addr : Option Addr
  /-- `ACKS`, the address checksum byte (R23). -/
  acks : Option Byte
  /-- `NUM`, the count or `number` byte (R23). -/
  num : Option Byte
  /-- `NCKS`, the count checksum byte (R23). -/
  ncks : Option Byte
  /-- `BUF`, the frame buffer: entry 0 first, empty when it holds no value (R23, R32). -/
  buf : List Byte
  /-- `CKS`, the frame checksum byte (R23). -/
  cks : Option Byte
  /-- `I`, the index of the next payload byte (R23). -/
  i : Option Nat
  /-- `ROP`, readout protection (R27). -/
  rop : Bool
  /-- `WRP`, one bit per sector (R28). -/
  wrp : BitVec 26
  /-- `SWRF`, the software-reset flag (R29). -/
  swrf : Bool
  /-- `BOOT_PIN`, an input: the level it has at the coming reset, or had at the last one (R30). -/
  bootPin : Bool
  /-- `OB_WRITTEN` (R99, R106). -/
  obWritten : Bool
  /-- `FLASH`, `RAM`, `OB` (R39). -/
  mem : Memory
  /-- `TX`, the bytes sent so far, oldest first (R34). -/
  tx : List Byte
  /-- The model's: the receive events that the coming wait points deliver, in order (R22, log 1). -/
  rx : List RxEvent
  /-- The model's: the levels that `BOOT_PIN` takes at the coming software resets, in order; with none left the level stays
  (R30, R149, log 13). -/
  pins : List Bool
  /-- The model's: how many sends succeed before the environment's `TxError`; `none` is never (R86, log 6). -/
  txErrorIn : Option Nat
  /-- The model's: how many free values have been drawn (log 10). -/
  draws : Nat
  /-- The parameters of R10; no step writes them (log 7). -/
  cfg : Config
deriving DecidableEq, Repr

/-- Right after power-on (R36): the reset sequence is about to run. Launch parameters and inputs at the values of logs 1, 6, 7,
10, 11, 12 and 13. -/
def State.reset : State where
  cs := .boot
  cmd := none
  cmp := none
  addr := none
  acks := none
  num := none
  ncks := none
  buf := []
  cks := none
  i := none
  rop := false
  wrp := 0
  swrf := false
  bootPin := true
  obWritten := false
  mem := []
  tx := []
  rx := []
  pins := []
  txErrorIn := none
  draws := 0
  cfg := Config.default

end Sys2Proof.Machine
end

