-- ==== Sys2Proof/Machine/Flags.lean ====
section
/-! DEFINITION. The block has no condition codes (spec/10_state.md R26); its checks are combinational: the XOR checksum
validator (spec/40_checksum_frames.md R80, R81), the address-class decoder (spec/41_address_class_write_arbiter.md R92 to
R94) and the readout-protection guard (spec/42_dispatcher.md R116). -/

namespace Sys2Proof.Machine

/-- `xorfold`: XOR of every byte, left to right, seed 0 (R80). -/
def xorfold (bs : List Byte) : Byte := bs.foldl (· ^^^ ·) 0

/-- `verify` (R81). -/
def verify (bs : List Byte) (expected : Byte) : Bool := xorfold bs == expected

/-- The check of an ADDR frame over the bytes of the address, least significant first (R43, R63, R72, R87). -/
def addressValid (a : Addr) (acks : Byte) : Bool := verify (leBytes a) acks

/-- `READ_COUNT_CKS` applied to a count (R10, R88). -/
def readCountCks (t : CountChecksum) (count : Byte) : Byte :=
  match t with
  | .identity => count
  | .complement => ~~~count
  | .table entries => entries.getD count.toNat 0

/-- The address class (R18, R92). -/
inductive AddressClass where
  | flash
  | ram
  | other
deriving DecidableEq, Repr

/-- The address is in the `Flash` window, both ends inclusive (R38, R92). -/
def inFlash (a : Nat) : Bool := Const.flashBase ≤ a && a ≤ Const.flashTop

/-- The address is in the `Ram` window, both ends inclusive (R38, R92). -/
def inRam (a : Nat) : Bool := Const.ramBase ≤ a && a ≤ Const.ramTop

/-- The address is an option byte (R38, R39). -/
def inOptionBytes (obSize a : Nat) : Bool := Const.obBase ≤ a && a < Const.obBase + obSize

/-- The address has storage in one of the three arrays (R39). -/
def hasStorage (cfg : Config) (a : Nat) : Bool := inFlash a || inRam a || inOptionBytes cfg.obSize a

/-- `classify` (R92). -/
def classify (a : Addr) : AddressClass :=
  if inFlash a.toNat then .flash
  else if inRam a.toNat then .ram
  else .other

/-- `VALID_TARGET` (R94). -/
def validTarget (a : Addr) : Bool := classify a != .other

/-- `CMD ∈ ROP_GUARDED`; 0x63 always is (R10, R116). -/
def ropGuards (cfg : Config) (op : Byte) : Bool := op == Command.opcode .wp || cfg.ropGuarded.contains op

end Sys2Proof.Machine
end

