-- ==== Sys2Proof/Machine/Operands.lean ====
section
/-! DEFINITION. Operand forms (spec/30_encoding.md R69 to R71) and the payload words of the flash path
(spec/41_address_class_write_arbiter.md R95). -/

namespace Sys2Proof.Machine

/-- `page_addr(p) = ((p - 1) * PAGE_SIZE + FLASH_BASE) mod 2^32` (R71). -/
def pageAddr (p : Byte) : Addr :=
  (p.setWidth 32 - 1) * BitVec.ofNat 32 Const.pageSize + BitVec.ofNat 32 Const.flashBase

/-- `sector_addr(s) = ((s - 1) * SECTOR_SIZE + FLASH_BASE) mod 2^32` (R71). -/
def sectorAddr (s : Byte) : Addr :=
  (s.setWidth 32 - 1) * BitVec.ofNat 32 Const.sectorSize + BitVec.ofNat 32 Const.flashBase

/-- `a + k` modulo 2^32 (R12). -/
def addrPlus (a : Addr) (k : Nat) : Addr := a + BitVec.ofNat 32 k

/-- The index of the write-protection sector that holds a `Flash` address (R28). -/
def sectorIndex (a : Addr) : Nat := (a.toNat - Const.flashBase) / Const.sectorSize

/-- `Σ byte_i << (8 i)`, a value of up to four bytes from memory order (R42, R46). -/
def leValue (bs : List Byte) : Addr := bs.foldr (fun b acc => (acc <<< 8) ||| b.setWidth 32) 0

/-- The words of the flash path: chunks at offsets 0, 4, 8, .., byte `i` of a chunk in bits `8i+7 : 8i`, the bytes that the last
chunk lacks 0x00 (R95). -/
def chunkWords : List Byte → List Addr
  | b0 :: b1 :: b2 :: b3 :: rest => leValue [b0, b1, b2, b3] :: chunkWords rest
  | [] => []
  | short => [leValue short]

/-- `BUF[0 .. NUM]`, the payload of a frame (R32, R89). -/
def payloadOf (num : Byte) (buf : List Byte) : List Byte := buf.take (num.toNat + 1)

/-- `BUF[0 .. NUM + 1]`, what the frame checksum covers (R72, R89). -/
def coveredOf (num : Byte) (buf : List Byte) : List Byte := buf.take (num.toNat + 2)

/-- The page starts of class `Flash`, ascending (R9, R98). -/
def flashPageList : List Addr :=
  (List.range Const.flashPages).map fun k => BitVec.ofNat 32 (Const.flashBase + k * Const.pageSize)

/-- A page of which some byte lies in `BL_BASE .. BL_TOP` (R98). -/
def overlapsBootloader (cfg : Config) (p : Addr) : Bool :=
  p.toNat ≤ cfg.blTop.toNat && cfg.blBase.toNat ≤ p.toNat + Const.pageSize - 1

end Sys2Proof.Machine
end

