-- ==== Sys2Proof/Machine/Ops.lean ====
section
/-! DEFINITION. The named operations: memory, SEND, taking a protocol error and raising a model fault, the FlashController
primitives (spec/41_address_class_write_arbiter.md R96 to R108), HANDOFF and the reset sequence. -/

namespace Sys2Proof.Machine

/-! ## Memory (R39, R46, R47) -/

/-- What an address that the list does not name reads as: the launch contents of the model's choice (log 11), and in the `Ram`
window the byte that "clear RAM" writes (log 12). -/
def Memory.background (a : Nat) : Byte := if inRam a then Const.clearedByte else Const.launchByte

/-- The listing of one byte: none where it equals the background. -/
def Memory.cell (a : Nat) (v : Byte) : Memory := if v = Memory.background a then [] else [(a, v)]

/-- The canonical form: addresses strictly rising, no entry equal to its background. -/
def Memory.wf : Memory → Bool
  | [] => true
  | (a, v) :: m => v != Memory.background a && m.all (fun c => a < c.1) && Memory.wf m

/-- One byte. -/
def Memory.read : Memory → Nat → Byte
  | [], a => Memory.background a
  | (k, v) :: m, a => if a = k then v else Memory.read m a

/-- One byte written, in canonical form. -/
def Memory.write : Memory → Nat → Byte → Memory
  | [], a, v => Memory.cell a v
  | (k, x) :: m, a, v =>
    if a < k then Memory.cell a v ++ (k, x) :: m
    else if a = k then Memory.cell a v ++ m
    else (k, x) :: Memory.write m a v

/-- Bytes written at ascending addresses. -/
def Memory.writeBytes (m : Memory) (a : Nat) : List Byte → Memory
  | [] => m
  | b :: bs => Memory.writeBytes (m.write a b) (a + 1) bs

/-- The `n` bytes from `lo` on set to their background, 0x00 in class `Ram`. -/
def Memory.forget (m : Memory) (lo n : Nat) : Memory := m.filter fun c => c.1 < lo || lo + n ≤ c.1

/-- The `n` bytes from `lo` on set to `v`, where their background is one value (every range inside a window of R38). -/
def Memory.fill (m : Memory) (lo n : Nat) (v : Byte) : Memory :=
  if v = Memory.background lo then m.forget lo n
  else (m.filter fun c => c.1 < lo) ++ (List.range n).map (fun j => (lo + j, v)) ++ m.filter fun c => lo + n ≤ c.1

/-- The storage arrays hold nothing outside the address map (R39). -/
def Memory.inMap (cfg : Config) (m : Memory) : Bool := m.all fun c => hasStorage cfg c.1

/-! ## Control (R17, R25) -/

/-- How a piece of a handler ends: the handler goes on, or the step is over (`abort`, the end of the handler, a reset, a
hand-off or a fault). -/
inductive Flow where
  | go (s : State)
  | stop (s : State)
deriving DecidableEq, Repr

/-- The state reached. -/
def Flow.state : Flow → State
  | .go s => s
  | .stop s => s

/-- What follows, where the handler goes on. -/
def Flow.andThen (f : Flow) (k : State → Flow) : Flow :=
  match f with
  | .go s => k s
  | .stop s => .stop s

/-- Every datapath register without a value (R24). -/
def clearRegisters (s : State) : State :=
  { s with cmd := none, cmp := none, addr := none, acks := none, num := none, ncks := none, buf := [], cks := none, i := none }

/-- Back at the head of the command loop (R24, R117). -/
def endCommand (s : State) : State := { clearRegisters s with cs := .cmdOp }

/-- A handler ends normally (R117). -/
def finish (s : State) : Flow := .stop (endCommand s)

/-- `raise Fault(r)`: the terminal state `FAULT(r)`, everything else kept (R17, R135). -/
def raise (r : Fault) (s : State) : Flow := .stop { s with cs := .fault r }

/-- The handler waits at a wait point for the next event (R21, R22). -/
def waitAt (p : ControlState) (s : State) : Flow := .go { s with cs := p }

/-- A handler reads a datapath register. R24: "a model represents an unwritten register as absent and faults on a read of one". No
instruction reaches this fault (`exec_readsWritten`). -/
def reading {α : Type} (r : Register) (v : Option α) (s : State) (k : α → Flow) : Flow :=
  match v with
  | some x => k x
  | none => raise (.unwrittenRegister r) s

/-! ## Transmit (R34, R84, R86) -/

/-- `SEND(b)`: appends to `TX`, or `TX_IO_ERROR` where the environment's `TxError` occurs (R86). -/
def send (b : Byte) (s : State) : Flow :=
  match s.txErrorIn with
  | none => .go { s with tx := s.tx ++ [b] }
  | some 0 => raise .txIoError s
  | some (n + 1) => .go { s with tx := s.tx ++ [b], txErrorIn := some n }

/-- Several sends in order. -/
def sendAll : List Byte → State → Flow
  | [], s => .go s
  | b :: bs, s => (send b s).andThen (sendAll bs)

/-- `ACK` (R14). -/
def ack (s : State) : Flow := send Const.ack s

/-- `NACK` (R14). -/
def nack (s : State) : Flow := send Const.nack s

/-- `SEND_WORD(w)`, least significant byte first (R84). -/
def sendWord (w : Addr) (s : State) : Flow := sendAll (leBytes w) s

/-! ## Taking a protocol error (R134, R140) -/

/-- The code of an error; it never appears on the wire (R134). -/
def ProtocolError.code : ProtocolError → Nat
  | .timeout => 1
  | .headerMismatch => 2
  | .unknownOpcode => 3
  | .checksumMismatch => 4
  | .invalidAddress => 5
  | .protectionViolation => 6
  | .unimplemented => 7
  | .initFailed => 8

/-- The reply of an error (R134). -/
def errorReply (cfg : Config) : ProtocolError → List Byte
  | .timeout => []
  | .headerMismatch =>
    match cfg.hdrMismatchNacks with
    | .one => [Const.nack]
    | .two => [Const.nack, Const.nack]
  | .unknownOpcode => [Const.nack]
  | .checksumMismatch => [Const.nack]
  | .invalidAddress => [Const.nack]
  | .protectionViolation => [Const.nack]
  | .unimplemented => [Const.nack]
  | .initFailed => []

/-- The wait points of the command loop's header, where `CMD_TIMEOUT_MODE` decides (R111, R134). -/
def atHeader (p : ControlState) : Bool := p == .cmdOp || p == .cmdCp

/-- The session ends with this error: the handshake failed (R110), or a timeout at the header under
`CMD_TIMEOUT_MODE = end` (R111, R151). -/
def endsSession (s : State) (e : ProtocolError) : Bool :=
  match e with
  | .initFailed => true
  | .timeout => atHeader s.cs && s.cfg.cmdTimeoutMode == .finish
  | .headerMismatch | .unknownOpcode | .checksumMismatch | .invalidAddress | .protectionViolation | .unimplemented => false

/-- The session is over: `INIT_FAILED` (R110, R111, R151). The datapath registers are cleared as for every error but E8 (R140). -/
def endSession (e : ProtocolError) (s : State) : State :=
  match e with
  | .initFailed => { s with cs := .initFailed }
  | .timeout | .headerMismatch | .unknownOpcode | .checksumMismatch | .invalidAddress | .protectionViolation | .unimplemented =>
    { clearRegisters s with cs := .initFailed }

/-- Error entry, the one operation for every error of R134: the reply, no further step of the handler, the datapath registers
cleared (but by E8) and `cs <- CMD_OP`, or `INIT_FAILED` where the session ends (R134, R140). Nothing is saved. -/
def takeError (e : ProtocolError) (s : State) : Flow :=
  (sendAll (errorReply s.cfg e) s).andThen fun t => .stop (if endsSession s e then endSession e t else endCommand t)

/-! ## Reading memory (R46) -/

/-- The bytes at `a .. a + n - 1` (modulo 2^32), or the first address of them without storage (R46, log 20). -/
def readBytes (s : State) : Nat → Addr → Except Addr (List Byte)
  | 0, _ => .ok []
  | n + 1, a =>
    if hasStorage s.cfg a.toNat then
      match readBytes s n (addrPlus a 1) with
      | .ok bs => .ok (s.mem.read a.toNat :: bs)
      | .error x => .error x
    else .error a

/-- `MemRead(a, n)` for `n` up to 4: the little-endian value, or `READ_UNMAPPED` before any byte is used (R46). -/
def memRead (a : Addr) (n : Nat) (s : State) (k : Addr → Flow) : Flow :=
  match readBytes s n a with
  | .ok bs => k (leValue bs)
  | .error x => raise (.readUnmapped x) s

/-- `MemWrite(a, 1, v)` (R47). -/
def memWriteByte (a : Addr) (v : Byte) (s : State) : Flow :=
  if classify a = .ram then .go { s with mem := s.mem.write a.toNat v } else raise (.ramWriteOutOfWindow a) s

/-! ## FlashController primitives -/

/-- The next `n` free bytes (log 10). -/
def freeBytes (first n : Nat) : List Byte := (List.range n).map fun j => Config.freeByte (first + j)

/-- `n` bytes of flash take any value: a draw (R52, R96, R97). -/
def drawBytes (lo n : Nat) (s : State) : State :=
  { s with mem := s.mem.writeBytes lo (freeBytes s.draws n), draws := s.draws + n }

/-- The four bytes of a word hold `ERASED_BYTE` (R96). -/
def wordErased (erased : Byte) (m : Memory) (a : Nat) : Bool := (List.range 4).all fun j => m.read (a + j) == erased

/-- `FC.programWord(a, w)` (R96). -/
def programWord (a w : Addr) (s : State) : Flow :=
  if a.toNat % 4 ≠ 0 then raise (.flashProgramMisaligned a) s
  else if classify a ≠ .flash then raise (.flashProgramOutOfRange a) s
  else if s.wrp.getLsbD (sectorIndex a) || !wordErased s.cfg.erasedByte s.mem a.toNat then .go (drawBytes a.toNat 4 s)
  else .go { s with mem := s.mem.writeBytes a.toNat (leBytes w) }

/-- `FC.erasePage(p)` (R97). -/
def erasePage (p : Addr) (s : State) : Flow :=
  if classify p ≠ .flash ∨ (p.toNat - Const.flashBase) % Const.pageSize ≠ 0 then raise (.erasePageInvalid p) s
  else if s.wrp.getLsbD (sectorIndex p) then .go (drawBytes p.toNat Const.pageSize s)
  else .go { s with mem := s.mem.fill p.toNat Const.pageSize s.cfg.erasedByte }

/-- Pages erased in list order (R98, R127). -/
def erasePages : List Addr → State → Flow
  | [], s => .go s
  | p :: ps, s => (erasePage p s).andThen (erasePages ps)

/-- `FC.eraseAll()`: every page of class `Flash` but those of the bootloader (R98). -/
def eraseAll (s : State) : Flow := erasePages (flashPageList.filter fun p => !overlapsBootloader s.cfg p) s

/-- `FC.programOptionBytes(OB_BASE, xs)` (R99). -/
def programOptionBytes (xs : List Byte) (s : State) : Flow :=
  if s.cfg.obSize < xs.length then raise (.obWriteOutOfRange xs.length) s
  else .go { s with mem := s.mem.writeBytes Const.obBase xs, obWritten := true }

/-- `FC.enableWriteProtection(a)`: one more bit of `WRP` (R100). -/
def enableWriteProtection (a : Addr) (s : State) : Flow :=
  if classify a ≠ .flash ∨ (a.toNat - Const.flashBase) % Const.sectorSize ≠ 0 then raise (.wrpSectorInvalid a) s
  else .go { s with wrp := s.wrp ||| (1#26 <<< sectorIndex a) }

/-- Sectors protected in list order (R130). -/
def protectSectors : List Addr → State → Flow
  | [], s => .go s
  | a :: as, s => (enableWriteProtection a s).andThen (protectSectors as)

/-- `FC.removeWriteProtection()` (R101). -/
def removeWriteProtection (s : State) : State := { s with wrp := 0 }

/-- `FC.enableReadoutProtection()` (R102). -/
def enableReadoutProtection (s : State) : State := { s with rop := true }

/-- `FC.disableReadoutProtection()`: class `Flash` erased whatever `WRP` is, `ROP <- 0` (R103). -/
def disableReadoutProtection (s : State) : State :=
  { s with mem := s.mem.fill Const.flashBase Const.flashSize s.cfg.erasedByte, rop := false }

/-- `CLEAR_RAM()`: every byte of class `Ram` 0x00 (R108). -/
def clearRam (s : State) : State := { s with mem := s.mem.forget Const.ramBase Const.ramSize }

/-! ## Reset and hand-off -/

/-- The option-byte effect of a reset: with `OB_WRITTEN = 1`, `ROP` and `WRP` take any value, a draw (R106). -/
def applyOptionBytes (s : State) : State :=
  if s.obWritten then
    { s with rop := Config.freeRop s.draws, wrp := Config.freeWrp s.draws, obWritten := false, draws := s.draws + 1 }
  else s

/-- `BOOT_PIN` at a software reset is an environment input again: the next level of the script `pins` (R30, R36, log 13). -/
def nextPin (s : State) : State := { s with bootPin := s.pins.headD s.bootPin, pins := s.pins.tail }

/-- The state `FC.reset()` leaves: `SWRF` set, the registers cleared, `BOOT_PIN` at its level for this reset, the reset sequence
about to run (R36, R105). -/
def softwareReset (s : State) : State := { clearRegisters (nextPin (applyOptionBytes s)) with swrf := true, cs := .boot }

/-- `FC.reset()`: it never returns (R105). -/
def fcReset (s : State) : Flow := .stop (softwareReset s)

/-- `HANDOFF(a)` (R126). -/
def handoff (a : Addr) (s : State) : Flow :=
  memRead a 4 s fun sp =>
    memRead (addrPlus a 4) 4 s fun entry => .stop { s with cs := .handedOff a sp entry }

/-- The reset sequence at `cs = BOOT` (R150, R152). -/
def bootSequence (s : State) : Flow :=
  let t := { s with swrf := false }
  if s.bootPin || s.swrf then .stop { t with cs := .awaitInit } else handoff (BitVec.ofNat 32 Const.flashBase) t

/-! ## What the outside can do to the block (R35, R36, R153, log 24) -/

/-- Power off and on: `TX` empty, `SWRF = 0`, the pin at its new level, RAM at any contents (the argument), the non-volatile state
kept (R29, R36). -/
def powerOn (pin : Bool) (ram : List Byte) (s : State) : State :=
  { clearRegisters s with
    cs := .boot
    tx := []
    swrf := false
    bootPin := pin
    obWritten := false
    mem := (s.mem.forget Const.ramBase Const.ramSize).writeBytes Const.ramBase (ram.take Const.ramSize) }

/-- A reset from outside the block, which leaves `SWRF` at either value (R29, R153). The spec gives such a reset no column in R36:
that `OB_WRITTEN` is consumed with the draw of R106, as by "the next reset" of R99, and that `TX` and memory are kept, is the
model's choice (DESIGN CHOICE, log 24). So is that it leaves every state, the terminal ones among them, for `BOOT` ("after every
reset", R150), where R35, R148 and R151 let only a power-on reset leave `INIT_FAILED` (DESIGN CHOICE, log 24). -/
def outsideReset (swrf pin : Bool) (s : State) : State :=
  { clearRegisters (applyOptionBytes s) with cs := .boot, swrf := swrf, bootPin := pin }

end Sys2Proof.Machine
end

