-- ==== Sys2Proof/Machine/Frames.lean ====
section
/-! DEFINITION. The command header and the frame receivers (spec/40_checksum_frames.md R87 to R89, spec/42_dispatcher.md R111
to R118): what a handler does with a frame once it is in the datapath registers, and the whole frame put there at once. -/

namespace Sys2Proof.Machine

/-! ## The header -/

/-- The header of a command is in `CMD` and `CMP`, the block at `CMD_CP`, and the host's operand frames are the next events
(R62, R68). Operand bytes that a refused command does not receive stay at the head of `rx` (R157, log 18). -/
def issue (c : Command) (operands : List Byte) (s : State) : State :=
  { s with
    cs := .cmdCp
    cmd := some c.opcode
    cmp := some (complement c.opcode)
    rx := operands.map RxEvent.byte ++ s.rx }

/-- The readout-protection guard in front of a handler (R116). -/
def acceptHeader (c : Command) (handler : State → Flow) (s : State) : Flow :=
  if ropGuards s.cfg c.opcode && s.rop then takeError .protectionViolation s else handler s

/-! ## Frames received whole: the state at the wait point of the frame's last byte -/

/-- The five bytes of an ADDR frame are received (R63, R87). -/
def receiveAddr (addr : Addr) (acks : Byte) (s : State) : State :=
  { s with cs := .addrCks, addr := some addr, acks := some acks, rx := s.rx.drop 5 }

/-- The two bytes of a CNT frame are received (R64, R88). -/
def receiveCount (count ncks : Byte) (s : State) : State :=
  { s with cs := .rmNcks, num := some count, ncks := some ncks, rx := s.rx.drop 2 }

/-- The `number` byte is received at `F_N` (R65, R66). -/
def receiveNumber (number : Byte) (s : State) : State :=
  { s with cs := .fN, num := some number, rx := s.rx.drop 1 }

/-- The payload and the checksum are received, `NUM` appended to `BUF` (R89). -/
def receiveBody (payload : List Byte) (cks : Byte) (s : State) : State :=
  { s with
    cs := .fCks
    buf := payload ++ [numberOf payload]
    cks := some cks
    i := some payload.length
    rx := s.rx.drop (payload.length + 1) }

/-! ## Frames checked -/

/-- ACK, then the wait for the first address byte. -/
def askAddr (s : State) : Flow := (ack s).andThen (waitAt (.addr 0))

/-- ACK, then the wait for `number`. -/
def askNumber (s : State) : Flow := (ack s).andThen (waitAt .fN)

/-- The first payload byte is waited for, `I` at 0 (R89). -/
def startBody (s : State) : Flow := waitAt (.fD 0) { s with i := some 0 }

/-- The ADDR frame in the registers: the address and whether its checksum holds (R87). -/
def checkedAddr (s : State) (k : Addr → Bool → Flow) : Flow :=
  reading .addr s.addr s fun a => reading .acks s.acks s fun x => k a (addressValid a x)

/-- The CNT frame in the registers: the count and whether its checksum holds (R88). -/
def checkedCount (s : State) (k : Byte → Bool → Flow) : Flow :=
  reading .num s.num s fun n => reading .ncks s.ncks s fun x => k n (x == readCountCks s.cfg.readCountCks n)

/-- `BUF`, which holds no value while it is empty (R23, R24). -/
def bufValue (s : State) : Option (List Byte) := if s.buf.isEmpty then none else some s.buf

/-- The DATA or LIST frame in the registers: the payload `BUF[0 .. NUM]` and whether the checksum over `BUF[0 .. NUM + 1]` holds
(R72, R89). -/
def checkedFrame (s : State) (k : List Byte → Bool → Flow) : Flow :=
  reading .num s.num s fun n =>
    reading .buf (bufValue s) s fun b =>
      reading .cks s.cks s fun x => k (payloadOf n b) (verify (coveredOf n b) x)

end Sys2Proof.Machine
end

