-- ==== Sys2Proof/Machine/Erase.lean ====
section
/-! DEFINITION. erase and extended-erase (spec/45_erase_commands.md). -/

namespace Sys2Proof.Machine

/-- The header of erase is accepted. -/
def erHandler (s : State) : Flow := askNumber s

/-- erase after `number`: 0xFF erases all, with no checksum byte; else the list follows (R127). -/
def erNumberStage (s : State) : Flow :=
  reading .num s.num s fun n =>
    if n = 0xFF then (eraseAll s).andThen fun s => (ack s).andThen finish else startBody s

/-- The listed pages erased in list order, ACK (R127). -/
def eraseListed (indices : List Byte) (s : State) : Flow :=
  (erasePages (indices.map pageAddr) s).andThen fun s => (ack s).andThen finish

/-- erase after the LIST frame: a bad checksum is answered with NACK, and the handler ends or goes on as
`ERASE_CKS_FAIL_MODE` says (R127). -/
def erFrameStage (s : State) : Flow :=
  checkedFrame s fun indices ok =>
    if ok then eraseListed indices s
    else
      match s.cfg.eraseCksFailMode with
      | .abort => takeError .checksumMismatch s
      | .proceed => (nack s).andThen (eraseListed indices)

/-- What follows the `number` stage of erase: nothing more of the ALL form; the rest of the LIST frame. -/
def erBody (list : Option (List Byte × Byte)) (s : State) : Flow :=
  match list with
  | none => .go s
  | some (indices, cks) => erFrameStage (receiveBody indices cks s)

/-- The `number` byte of an erase operand (R66). -/
def erNumber (list : Option (List Byte × Byte)) : Byte :=
  match list with
  | none => 0xFF
  | some (indices, _) => numberOf indices

/-- ER (R127). -/
def execEr (list : Option (List Byte × Byte)) (s : State) : Host.Outcome State Fault Refusal :=
  .next (
    (acceptHeader .er erHandler (issue .er (operandBytes (.er list)) s)).andThen fun s =>
      (erNumberStage (receiveNumber (erNumber list) s)).andThen (erBody list)).state

/-- extended-erase, the stub: one NACK in place of the header ACK (R128). -/
def eeHandler (s : State) : Flow := takeError .unimplemented s

/-- EE (R128). -/
def execEe (s : State) : Host.Outcome State Fault Refusal :=
  .next (acceptHeader .ee eeHandler (issue .ee [] s)).state

end Sys2Proof.Machine
end

