-- ==== Sys2Proof/Machine/Info.lean ====
section
/-! DEFINITION. get-commands, get-version, get-id (spec/43_info_commands.md). -/

namespace Sys2Proof.Machine

/-- The reply of get-commands without its ACKs: GETCMD (R67, R120). -/
def getCmdReply : List Byte := Const.getCmdCount :: Const.protoVersion :: Command.all.map Command.opcode

/-- get-commands (R120). -/
def getHandler (s : State) : Flow :=
  (ack s).andThen fun s => (sendAll getCmdReply s).andThen fun s => (ack s).andThen finish

/-- get-version: the version byte and two reserved zero bytes (R121). -/
def gvHandler (s : State) : Flow :=
  (ack s).andThen fun s => (sendAll [s.cfg.versionByte, 0x00, 0x00] s).andThen fun s => (ack s).andThen finish

/-- get-id (R122). -/
def gidHandler (s : State) : Flow :=
  (ack s).andThen fun s =>
    (sendAll [s.cfg.idBytes.1, s.cfg.idBytes.2.1, s.cfg.idBytes.2.2] s).andThen fun s => (ack s).andThen finish

/-- GET (R120). -/
def execGet (s : State) : Host.Outcome State Fault Refusal :=
  .next (acceptHeader .get getHandler (issue .get [] s)).state

/-- GV (R121). -/
def execGv (s : State) : Host.Outcome State Fault Refusal :=
  .next (acceptHeader .gv gvHandler (issue .gv [] s)).state

/-- GID (R122). -/
def execGid (s : State) : Host.Outcome State Fault Refusal :=
  .next (acceptHeader .gid gidHandler (issue .gid [] s)).state

end Sys2Proof.Machine
end

