-- ==== Sys2Proof/Machine/Init.lean ====
section
/-! DEFINITION. The initialisation handshake (spec/42_dispatcher.md R109). -/

namespace Sys2Proof.Machine

/-- 0x7F received at `AWAIT_INIT`: ACK, then the command loop (R109). -/
def initHandler (s : State) : Flow := (ack s).andThen finish

/-- INIT (R109). -/
def execInit (s : State) : Host.Outcome State Fault Refusal := .next (initHandler s).state

end Sys2Proof.Machine
end

