-- ==== Sys2Proof/Machine/MemoryCommands.lean ====
section
/-! DEFINITION. read-memory, write-memory with its arbiter, go (spec/44_memory_commands.md,
spec/41_address_class_write_arbiter.md R95). A handler is cut at its wait points: each stage runs from the last byte of a frame
to the next wait. -/

namespace Sys2Proof.Machine

/-! ## read-memory (R123) -/

/-- `exact` mode: `n` bytes from `a` on, each read and then sent (R123). -/
def streamBytes : Nat → Addr → State → Flow
  | 0, _, s => .go s
  | n + 1, a, s =>
    memRead a 1 s fun v => (send (v.setWidth 8) s).andThen (streamBytes n (addrPlus a 1))

/-- `words` mode: `n` words from `a` on, each read whole and then sent (R123). -/
def streamWords : Nat → Addr → State → Flow
  | 0, _, s => .go s
  | n + 1, a, s => memRead a 4 s fun w => (sendWord w s).andThen (streamWords n (addrPlus a 4))

/-- The MEMDATA reply for the count byte `NUM` (R67, R123). -/
def streamMemory (a : Addr) (num : Byte) (s : State) : Flow :=
  match s.cfg.readLengthMode with
  | .exact => streamBytes (num.toNat + 1) a s
  | .words => streamWords (num.toNat / 4 + 1) a s

/-- The header of read-memory is accepted. -/
def rmHandler (s : State) : Flow := askAddr s

/-- read-memory after the ADDR frame: one check of checksum and target together (R123, R138, R139). -/
def rmAddrStage (s : State) : Flow :=
  checkedAddr s fun a ok =>
    if ok then
      if validTarget a then (ack s).andThen (waitAt .rmN) else takeError .invalidAddress s
    else takeError .checksumMismatch s

/-- read-memory after the CNT frame (R123). -/
def rmCountStage (s : State) : Flow :=
  checkedCount s fun n ok =>
    reading .addr s.addr s fun a =>
      if ok then (ack s).andThen fun s => (streamMemory a n s).andThen finish
      else takeError .checksumMismatch s

/-- RM (R123). -/
def execRm (addr : Addr) (acks count ncks : Byte) (s : State) : Host.Outcome State Fault Refusal :=
  .next (
    (acceptHeader .rm rmHandler (issue .rm (operandBytes (.rm addr acks count ncks)) s)).andThen fun s =>
      (rmAddrStage (receiveAddr addr acks s)).andThen fun s =>
        rmCountStage (receiveCount count ncks s)).state

/-! ## write-memory (R124) and the write arbiter (R95) -/

/-- The flash path: words programmed at ascending addresses (R95). -/
def programWords : List Addr → Addr → State → Flow
  | [], _, s => .go s
  | w :: ws, a, s => (programWord a w s).andThen (programWords ws (addrPlus a 4))

/-- The RAM path: bytes stored at ascending addresses (R95). -/
def storeBytes : List Byte → Addr → State → Flow
  | [], _, s => .go s
  | b :: bs, a, s => (memWriteByte a b s).andThen (storeBytes bs (addrPlus a 1))

/-- `ARBITRATE_WRITE()`: only the class of the first address is tested (R95). -/
def arbitrateWrite (a : Addr) (payload : List Byte) (s : State) : Flow :=
  match classify a with
  | .flash =>
    (programWords (chunkWords payload) a s).andThen fun s => (ack s).andThen finish
  | .ram =>
    (storeBytes payload a s).andThen fun s =>
      if s.cfg.ramWriteAck then (ack s).andThen finish else finish s
  | .other =>
    if a.toNat = Const.obBase then
      (programOptionBytes payload s).andThen fun s => (ack s).andThen fcReset
    else takeError .invalidAddress s

/-- The header of write-memory is accepted. -/
def wmHandler (s : State) : Flow := askAddr s

/-- write-memory after the ADDR frame: the checksum only (R124, D12). -/
def wmAddrStage (s : State) : Flow :=
  checkedAddr s fun _ ok => if ok then askNumber s else takeError .checksumMismatch s

/-- write-memory after `number`. -/
def wmNumberStage (s : State) : Flow := startBody s

/-- write-memory after the DATA frame (R124). -/
def wmFrameStage (s : State) : Flow :=
  checkedFrame s fun payload ok =>
    reading .addr s.addr s fun a => if ok then arbitrateWrite a payload s else takeError .checksumMismatch s

/-- WM (R124). -/
def execWm (addr : Addr) (acks : Byte) (payload : List Byte) (cks : Byte) (s : State) :
    Host.Outcome State Fault Refusal :=
  .next (
    (acceptHeader .wm wmHandler (issue .wm (operandBytes (.wm addr acks payload cks)) s)).andThen fun s =>
      (wmAddrStage (receiveAddr addr acks s)).andThen fun s =>
        (wmNumberStage (receiveNumber (numberOf payload) s)).andThen fun s =>
          wmFrameStage (receiveBody payload cks s)).state

/-! ## go (R125) -/

/-- The header of go is accepted. -/
def goHandler (s : State) : Flow := askAddr s

/-- go after the ADDR frame: one check of checksum and target together, then the hand-off (R125, R126, R139). -/
def goAddrStage (s : State) : Flow :=
  checkedAddr s fun a ok =>
    if ok then
      if validTarget a then (ack s).andThen (handoff a) else takeError .invalidAddress s
    else takeError .checksumMismatch s

/-- GO (R125). -/
def execGo (addr : Addr) (acks : Byte) (s : State) : Host.Outcome State Fault Refusal :=
  .next (
    (acceptHeader .go goHandler (issue .go (operandBytes (.go addr acks)) s)).andThen fun s =>
      goAddrStage (receiveAddr addr acks s)).state

end Sys2Proof.Machine
end

