-- ==== Sys2Proof/Machine/Protection.lean ====
section
/-! DEFINITION. The protection commands (spec/46_protection_commands.md); each ends in `FC.reset()` when it succeeds (R107). -/

namespace Sys2Proof.Machine

/-- The header of write-protect is accepted; `ROP` was tested by the guard (R116, R130). -/
def wpHandler (s : State) : Flow := askNumber s

/-- write-protect after `number`: 0xFF is not special (R77, R130). -/
def wpNumberStage (s : State) : Flow := startBody s

/-- write-protect after the LIST frame (R130). -/
def wpFrameStage (s : State) : Flow :=
  checkedFrame s fun indices ok =>
    if ok then (protectSectors (indices.map sectorAddr) s).andThen fun s => (ack s).andThen fcReset
    else takeError .checksumMismatch s

/-- WP (R130). -/
def execWp (indices : List Byte) (cks : Byte) (s : State) : Host.Outcome State Fault Refusal :=
  .next (
    (acceptHeader .wp wpHandler (issue .wp (operandBytes (.wp indices cks)) s)).andThen fun s =>
      (wpNumberStage (receiveNumber (numberOf indices) s)).andThen fun s =>
        wpFrameStage (receiveBody indices cks s)).state

/-- write-unprotect (R131). -/
def wuHandler (s : State) : Flow :=
  (ack s).andThen fun s => (ack (removeWriteProtection s)).andThen fcReset

/-- WU (R131). -/
def execWu (s : State) : Host.Outcome State Fault Refusal :=
  .next (acceptHeader .wu wuHandler (issue .wu [] s)).state

/-- readout-protect: `ROP` is tested before the header ACK (R104, R132). -/
def rpHandler (s : State) : Flow :=
  if s.rop then takeError .protectionViolation s
  else (ack s).andThen fun s => (ack (enableReadoutProtection s)).andThen fcReset

/-- RP (R132). -/
def execRp (s : State) : Host.Outcome State Fault Refusal :=
  .next (acceptHeader .rp rpHandler (issue .rp [] s)).state

/-- readout-unprotect: mass erase, ACK, clear RAM, reset (R133). -/
def ruHandler (s : State) : Flow :=
  (ack s).andThen fun s =>
    (ack (disableReadoutProtection s)).andThen fun s => fcReset (clearRam s)

/-- RU (R133). -/
def execRu (s : State) : Host.Outcome State Fault Refusal :=
  .next (acceptHeader .ru ruHandler (issue .ru [] s)).state

end Sys2Proof.Machine
end

