-- ==== Sys2Proof/Machine/Receive.lean ====
section
/-! DEFINITION. One receive event at one wait point (spec/10_state.md R21, R22, R25; spec/40_checksum_frames.md R85): what the
block does from the event to its next wait point. The stages are those of the instructions' meanings. -/

namespace Sys2Proof.Machine

/-- The handler a header selects, its guard first (R114, R116). -/
def dispatch (c : Command) (s : State) : Flow :=
  match c with
  | .get => acceptHeader .get getHandler s
  | .gv => acceptHeader .gv gvHandler s
  | .gid => acceptHeader .gid gidHandler s
  | .rm => acceptHeader .rm rmHandler s
  | .go => acceptHeader .go goHandler s
  | .wm => acceptHeader .wm wmHandler s
  | .er => acceptHeader .er erHandler s
  | .ee => acceptHeader .ee eeHandler s
  | .wp => acceptHeader .wp wpHandler s
  | .wu => acceptHeader .wu wuHandler s
  | .rp => acceptHeader .rp rpHandler s
  | .ru => acceptHeader .ru ruHandler s

/-- The header check on `CMD` and `CMP` (R111, R113, R115). -/
def headerStage (s : State) : Flow :=
  reading .cmd s.cmd s fun op =>
    reading .cmp s.cmp s fun cp =>
      if cp = complement op then
        match Command.ofOpcode op with
        | some c => dispatch c s
        | none => takeError .unknownOpcode s
      else takeError .headerMismatch s

/-- The running handler, named by `CMD` (R21). -/
def running (s : State) (k : Option Command → Flow) : Flow :=
  reading .cmd s.cmd s fun op => k (Command.ofOpcode op)

/-- After `ADDR_CKS` (R123, R124, R125). -/
def addrStage (s : State) : Flow :=
  running s fun c =>
    match c with
    | some .rm => rmAddrStage s
    | some .go => goAddrStage s
    | some .wm => wmAddrStage s
    | some .get | some .gv | some .gid | some .er | some .ee | some .wp | some .wu | some .rp | some .ru | none =>
      raise .strayWaitPoint s

/-- After `RM_NCKS` (R123). -/
def countStage (s : State) : Flow :=
  running s fun c =>
    match c with
    | some .rm => rmCountStage s
    | some .get | some .gv | some .gid | some .go | some .wm | some .er | some .ee | some .wp | some .wu | some .rp
    | some .ru | none => raise .strayWaitPoint s

/-- After `F_N` (R89, R127, R130). -/
def numberStage (s : State) : Flow :=
  running s fun c =>
    match c with
    | some .wm => wmNumberStage s
    | some .er => erNumberStage s
    | some .wp => wpNumberStage s
    | some .get | some .gv | some .gid | some .rm | some .go | some .ee | some .wu | some .rp | some .ru | none =>
      raise .strayWaitPoint s

/-- After `F_CKS` (R124, R127, R130). -/
def frameStage (s : State) : Flow :=
  running s fun c =>
    match c with
    | some .wm => wmFrameStage s
    | some .er => erFrameStage s
    | some .wp => wpFrameStage s
    | some .get | some .gv | some .gid | some .rm | some .go | some .ee | some .wu | some .rp | some .ru | none =>
      raise .strayWaitPoint s

/-- The byte at `ADDR(k)` goes to its place in `ADDR`; byte 0 starts a new value (R69, R83). -/
def receiveAddrByte (k : Fin 4) (b : Byte) (s : State) : Flow :=
  let next : ControlState := if h : k.val + 1 < 4 then .addr ⟨k.val + 1, h⟩ else .addrCks
  if k.val = 0 then waitAt next { s with addr := some (placeAddrByte 0 b) }
  else reading .addr s.addr s fun a => waitAt next { s with addr := some (a ||| placeAddrByte k.val b) }

/-- The byte at `F_D(j)`: `BUF[j] <- b`; after the last one `BUF[NUM + 1] <- NUM` (R89). -/
def receivePayloadByte (j : Nat) (b : Byte) (s : State) : Flow :=
  reading .num s.num s fun n =>
    let t := { s with buf := s.buf.take j ++ [b], i := some (j + 1) }
    if j < n.toNat then waitAt (.fD (j + 1)) t else waitAt .fCks { t with buf := t.buf ++ [n] }

/-- A byte at the wait point `cs` (R21, R85). -/
def receiveByte (b : Byte) (s : State) : Flow :=
  match s.cs with
  | .awaitInit => if b = Const.initByte then initHandler s else takeError .initFailed s
  | .cmdOp => waitAt .cmdCp { s with cmd := some b }
  | .cmdCp => headerStage { s with cmp := some b }
  | .addr k => receiveAddrByte k b s
  | .addrCks => addrStage { s with acks := some b }
  | .rmN => waitAt .rmNcks { s with num := some b }
  | .rmNcks => countStage { s with ncks := some b }
  | .fN => numberStage { s with num := some b }
  | .fD j => receivePayloadByte j b s
  | .fCks => frameStage { s with cks := some b }
  | .boot => .stop s
  | .handedOff _ _ _ => .stop s
  | .initFailed => .stop s
  | .fault _ => .stop s

/-- No byte in time at the wait point `cs` (R85, R109, R111). -/
def receiveTimeout (s : State) : Flow :=
  match s.cs with
  | .awaitInit => takeError .initFailed s
  | .cmdOp | .cmdCp | .addr _ | .addrCks | .rmN | .rmNcks | .fN | .fD _ | .fCks => takeError .timeout s
  | .boot => .stop s
  | .handedOff _ _ _ => .stop s
  | .initFailed => .stop s
  | .fault _ => .stop s

/-- One receive event at the wait point `cs` (R22). -/
def receive (ev : RxEvent) (s : State) : Flow :=
  match ev with
  | .byte b => receiveByte b s
  | .timeout => receiveTimeout s

/-- The next event of the environment's script is delivered; while there is none the block waits (R22, R149). In a state that does not
wait (`BOOT`, a terminal state) the event is dropped and nothing else changes: the model's choice (DESIGN CHOICE, log 1), since R149,
R156 and N40 of spec/91 leave open whether such a byte is lost or kept. `step` delivers at wait points only. -/
def deliver (s : State) : State :=
  match s.rx with
  | [] => s
  | ev :: rest => (receive ev { s with rx := rest }).state

/-- `n` events delivered one by one. -/
def deliverMany : Nat → State → State
  | 0, s => s
  | n + 1, s => deliverMany n (deliver s)

end Sys2Proof.Machine
end

