-- ==== Sys2Proof/Machine/Dispatch.lean ====
section
/-! DEFINITION. One arm per instruction: the meaning of a command that the block has accepted at its accept point
(spec/42_dispatcher.md R109, R114). -/

namespace Sys2Proof.Machine

def exec (i : Instr) (s : State) : Host.Outcome State Fault Refusal :=
  match i with
  | .init => Sys2Proof.Machine.execInit s
  | .get => Sys2Proof.Machine.execGet s
  | .gv => Sys2Proof.Machine.execGv s
  | .gid => Sys2Proof.Machine.execGid s
  | .rm addr acks count ncks => Sys2Proof.Machine.execRm addr acks count ncks s
  | .go addr acks => Sys2Proof.Machine.execGo addr acks s
  | .wm addr acks payload cks => Sys2Proof.Machine.execWm addr acks payload cks s
  | .er list => Sys2Proof.Machine.execEr list s
  | .ee => Sys2Proof.Machine.execEe s
  | .wp indices cks => Sys2Proof.Machine.execWp indices cks s
  | .wu => Sys2Proof.Machine.execWu s
  | .rp => Sys2Proof.Machine.execRp s
  | .ru => Sys2Proof.Machine.execRu s

end Sys2Proof.Machine
end

