-- ==== Sys2Proof/Machine/Fetch.lean ====
section
/-! DEFINITION. Which command the coming events make up (spec/30_encoding.md R60, R77), and the step over a given meaning of
commands (spec/10_state.md R25, spec/60_exceptions.md R149). -/

namespace Sys2Proof.Machine

/-- The bytes at the head of the script, up to the first timeout. -/
def leadingBytes : List RxEvent → List Byte
  | .byte b :: rest => b :: leadingBytes rest
  | .timeout :: _ => []
  | [] => []

/-- The command whose bytes all arrive at the accept point `p`, without a timeout among them. The block itself reads nothing ahead
(R55): this names what its coming waits receive. -/
def fetch (p : AcceptPoint) (s : State) : Option Instr :=
  match decode p (leadingBytes s.rx) with
  | .ok (i, _) => some i
  | .error _ => none

/-- The state with the bytes of a command taken from the script. -/
def consume (i : Instr) (s : State) : State := { s with rx := s.rx.drop (wireLength i) }

/-- At an accept point: the command that arrives whole, run through all its waits (log 2), or else one event. -/
def stepAccept (p : AcceptPoint) (run : Instr → State → Host.Outcome State Fault Refusal) (s : State) :
    Host.Outcome State Fault Refusal :=
  match fetch p s with
  | some i => run i (consume i s)
  | none => .next (deliver s)

/-- One step over the meaning `run` of commands: the reset sequence at `BOOT`, a command or an event at an accept point, one event
at any other wait point. A fault state answers its fault (log 4); the other terminal states stay as they are (R35, log 5). -/
def stepWith (run : Instr → State → Host.Outcome State Fault Refusal) (s : State) : Host.Outcome State Fault Refusal :=
  match s.cs with
  | .boot => .next (bootSequence s).state
  | .awaitInit => stepAccept .awaitInit run s
  | .cmdOp => stepAccept .commandLoop run s
  | .cmdCp => .next (deliver s)
  | .addr _ => .next (deliver s)
  | .addrCks => .next (deliver s)
  | .rmN => .next (deliver s)
  | .rmNcks => .next (deliver s)
  | .fN => .next (deliver s)
  | .fD _ => .next (deliver s)
  | .fCks => .next (deliver s)
  | .handedOff _ _ _ => .next s
  | .initFailed => .next s
  | .fault r => .fault r

/-- The control state of an accept point. -/
def acceptState (p : AcceptPoint) : ControlState :=
  match p with
  | .awaitInit => .awaitInit
  | .commandLoop => .cmdOp

/-- The state in which the next events are the bytes of a table word at its accept point (log 14, log 19). -/
def placeWord (s : State) (nbits w : Nat) : State :=
  { s with
    cs := acceptState (tableAcceptPoint nbits)
    rx := (tableBytes nbits w).map RxEvent.byte ++ s.rx }

end Sys2Proof.Machine
end

