-- ==== Sys2Proof/Machine/Step.lean ====
section
/-! DEFINITION. One step of the block: `stepWith` over the meanings of the commands. -/

namespace Sys2Proof.Machine

/-- One step (R25, R149). -/
def step (s : State) : Host.Outcome State Fault Refusal := stepWith exec s

/-- The state in which the very next step runs the instruction of a table word (log 14). -/
def State.withFetchWord (s : State) (nbits w : Nat) : State := placeWord s nbits w

end Sys2Proof.Machine
end

