-- ==== Sys2Proof/Safety.lean ====
section
/-! DEFINITION. The terms that claims use: what a claim assumes of the environment, what stays equal, the terminal states
(spec/10_state.md R35, spec/60_exceptions.md R149) and the invariant of every run (spec/10_state.md R21 to R24). -/

namespace Sys2Proof.Machine

/-! ## The environment -/

/-- No `TxError` occurs within the next `n` sends (R86). -/
def State.canSend (s : State) (n : Nat) : Bool :=
  match s.txErrorIn with
  | none => true
  | some k => n ≤ k

/-- The state after the bytes have been sent (R34). -/
def State.sent (s : State) (bs : List Byte) : State :=
  { s with tx := s.tx ++ bs, txErrorIn := s.txErrorIn.map fun k => k - bs.length }

/-- The state a software reset leaves where no option byte was written: the reset sequence next, `SWRF` set, no register with a
value, `BOOT_PIN` at its level for this reset, everything else kept (R36, R105, log 13). -/
def State.restarted (s : State) : State :=
  { endCommand s with cs := .boot, swrf := true, bootPin := s.pins.headD s.bootPin, pins := s.pins.tail }

/-- The guard lets the command through (R116). -/
def State.guardOpen (s : State) (c : Command) : Bool := !(ropGuards s.cfg c.opcode && s.rop)

/-! ## Frames -/

/-- Protection status, boot flags, the script of the pin and parameters are equal (R27 to R30, R99). -/
def sameStatus (s t : State) : Prop :=
  t.rop = s.rop ∧ t.wrp = s.wrp ∧ t.swrf = s.swrf ∧ t.bootPin = s.bootPin ∧ t.pins = s.pins ∧ t.obWritten = s.obWritten ∧
    t.cfg = s.cfg

/-- Every byte of memory outside `lo .. lo + n - 1` reads as before. -/
def sameOutside (lo n : Nat) (m m' : Memory) : Prop := ∀ x, x < lo ∨ lo + n ≤ x → m'.read x = m.read x

/-! ## Frames of the wire and memory, for claims -/

/-- The XOR of the four bytes of an address (R63). -/
def addrXor (a : Addr) : Byte := byteOf 0 a ^^^ byteOf 1 a ^^^ byteOf 2 a ^^^ byteOf 3 a

/-- The checksum of a DATA or LIST frame, over `payload ++ [number]` (R65). -/
def frameXor (payload : List Byte) : Byte := xorfold (payload ++ [numberOf payload])

/-- The `n` bytes of memory from `a` on, ascending, addresses modulo 2^32. -/
def memBytes (s : State) (a : Addr) (n : Nat) : List Byte :=
  (List.range n).map fun j => s.mem.read (addrPlus a j).toNat

/-- The first `n` bytes from `a` on have storage (R39). -/
def storedFrom (s : State) (a : Addr) (n : Nat) : Prop := ∀ j, j < n → hasStorage s.cfg (addrPlus a j).toNat = true

/-- Some listed index names a page that holds the address `x` (R71). -/
def inListedPage (indices : List Byte) (x : Nat) : Prop :=
  ∃ p ∈ indices, (pageAddr p).toNat ≤ x ∧ x < (pageAddr p).toNat + 0x400

/-- The write-protection bit of the sector that holds the `Flash` address `x` (R28). -/
def sectorProtected (s : State) (x : Nat) : Bool := s.wrp.getLsbD ((x - 0x08006000) / 0x1000)

/-- The four bytes of the aligned word that holds `z` are erased and its sector is not protected: a word that takes what is
programmed into it (R96). -/
def programmable (s : State) (z : Nat) : Prop :=
  (∀ j, j < 4 → s.mem.read (z - z % 4 + j) = s.cfg.erasedByte) ∧ sectorProtected s z = false

/-! ## The end of a run (R35, R149) -/

/-- A terminal control state. -/
def ControlState.terminal : ControlState → Bool
  | .handedOff _ _ _ => true
  | .initFailed => true
  | .fault _ => true
  | .boot | .awaitInit | .cmdOp | .cmdCp | .addr _ | .addrCks | .rmN | .rmNcks | .fN | .fD _ | .fCks => false

/-- A wait point, where exactly one receive event is consumed (R21, R22). -/
def ControlState.waits : ControlState → Bool
  | .boot | .handedOff _ _ _ | .initFailed | .fault _ => false
  | .awaitInit | .cmdOp | .cmdCp | .addr _ | .addrCks | .rmN | .rmNcks | .fN | .fD _ | .fCks => true

/-! ## The registers at each control state (R23, R24) -/

/-- The register holds a value. -/
def State.holds (s : State) : Register → Bool
  | .cmd => s.cmd.isSome
  | .cmp => s.cmp.isSome
  | .addr => s.addr.isSome
  | .acks => s.acks.isSome
  | .num => s.num.isSome
  | .ncks => s.ncks.isSome
  | .buf => !s.buf.isEmpty
  | .cks => s.cks.isSome
  | .i => s.i.isSome

/-- Exactly the listed registers hold a value. -/
def State.holdsExactly (s : State) (rs : List Register) : Prop := ∀ r, s.holds r = rs.contains r

/-- `CMD` and `CMP` hold the header of one of the listed commands. -/
def State.runsOneOf (s : State) (cs : List Command) : Prop :=
  ∃ c ∈ cs, s.cmd = some c.opcode ∧ s.cmp = some (complement c.opcode)

/-- The registers a frame command holds before `number`: write-memory has its address already (R124). -/
def State.frameRegisters (s : State) : List Register :=
  if s.cmd = some (Command.opcode .wm) then [.cmd, .cmp, .addr, .acks] else [.cmd, .cmp]

/-- The reason is one of R135; of the other two, R24 asks for the first and the model adds the second (log 15). -/
def Fault.ofSpec : Fault → Bool
  | .unwrittenRegister _ => false
  | .strayWaitPoint => false
  | .readUnmapped _ | .ramWriteOutOfWindow _ | .flashProgramMisaligned _ | .flashProgramOutOfRange _
  | .erasePageInvalid _ | .wrpSectorInvalid _ | .obWriteOutOfRange _ | .txIoError => true

/-- Which registers hold a value at each control state, and how the frame receiver's registers agree with it (R21, R23, R24). -/
def State.coherent (s : State) : Prop :=
  match s.cs with
  | .boot => s.holdsExactly []
  | .awaitInit => s.holdsExactly []
  | .cmdOp => s.holdsExactly []
  | .cmdCp => s.holdsExactly [.cmd]
  | .addr k =>
    s.runsOneOf [.rm, .go, .wm] ∧ s.holdsExactly (if k.val = 0 then [.cmd, .cmp] else [.cmd, .cmp, .addr])
  | .addrCks => s.runsOneOf [.rm, .go, .wm] ∧ s.holdsExactly [.cmd, .cmp, .addr]
  | .rmN => s.runsOneOf [.rm] ∧ s.holdsExactly [.cmd, .cmp, .addr, .acks]
  | .rmNcks => s.runsOneOf [.rm] ∧ s.holdsExactly [.cmd, .cmp, .addr, .acks, .num]
  | .fN => s.runsOneOf [.wm, .er, .wp] ∧ s.holdsExactly s.frameRegisters
  | .fD j =>
    s.runsOneOf [.wm, .er, .wp] ∧
      s.holdsExactly (s.frameRegisters ++ (if j = 0 then [.num, .i] else [.num, .i, .buf])) ∧
      s.i = some j ∧ s.buf.length = j ∧ ∀ n, s.num = some n → j ≤ n.toNat
  | .fCks =>
    s.runsOneOf [.wm, .er, .wp] ∧ s.holdsExactly (s.frameRegisters ++ [.num, .i, .buf]) ∧
      ∀ n, s.num = some n → s.i = some (n.toNat + 1) ∧ s.buf.length = n.toNat + 2 ∧ s.buf.getLast? = some n
  | .handedOff _ _ _ => True
  | .initFailed => s.holdsExactly []
  | .fault r => r.ofSpec = true

/-! ## The invariant -/

/-- What every step keeps: memory in canonical form and inside the address map (R39), the registers as the control state says
(R24), and `OB_WRITTEN` consumed by the reset that follows it (R106, R107). -/
structure State.Inv (s : State) : Prop where
  memWf : s.mem.wf = true
  memInMap : s.mem.inMap s.cfg = true
  registers : s.coherent
  obWritten : s.obWritten = true → ∃ r, s.cs = .fault r

end Sys2Proof.Machine
end

