-- ==== Sys2Proof/Certificates/Slice0/Obligations.lean ====
section
/-! DEFINITION. The statements for the provers, from the numbered rules of spec/. `s.canSend n` says that no `TxError` occurs within
the next `n` sends; `ErrorOfTheChannel…` says what happens when one does. -/

open Sys2Proof Sys2Proof.Machine

/-! ## Encoding -/

/-- Words written out from the formats of R61 to R66 decode to the instructions they stand for. -/
def Obligations.WrittenWordsDecode : Prop :=
  decode .awaitInit [0x7F] = .ok (.init, []) ∧
  decode .commandLoop [0x00, 0xFF] = .ok (.get, []) ∧
  decode .commandLoop [0x11, 0xEE, 0x08, 0x00, 0x60, 0x00, 0x68, 0x07, 0x07] = .ok (.rm 0x08006000 0x68 0x07 0x07, []) ∧
  decode .commandLoop [0x31, 0xCE, 0x20, 0x00, 0x04, 0x00, 0x24, 0x01, 0xDE, 0xAD, 0x72, 0x99] =
    .ok (.wm 0x20000400 0x24 [0xDE, 0xAD] 0x72, [0x99]) ∧
  decode .commandLoop [0x43, 0xBC, 0xFF, 0x00] = .ok (.er none, [0x00]) ∧
  decode .commandLoop [0x63, 0x9C, 0x00, 0x01, 0x01] = .ok (.wp [0x01] 0x01, []) ∧
  decode .commandLoop [0x11, 0xEF] = .error (.headerMismatch 0x11 0xEF) ∧
  decode .commandLoop [0x7F, 0x80] = .error (.unknownOpcode 0x7F)

/-- Decoding the encoding of a well-formed instruction gives it back, whatever bytes follow (R60 to R66, R77, R79). -/
def Obligations.DecodeOfEncodeIsTheInstruction : Prop :=
  ∀ (i : Instr) (rest : List Byte), WellFormed i → decode i.acceptPoint (encode i ++ rest) = .ok (i, rest)

/-- Whatever decodes is the encoding of the instruction it decodes to, and that instruction is well-formed. -/
def Obligations.EncodeOfDecodeIsTheBytes : Prop :=
  ∀ (p : AcceptPoint) (bs rest : List Byte) (i : Instr), decode p bs = .ok (i, rest) →
    WellFormed i ∧ i.acceptPoint = p ∧ encode i ++ rest = bs

/-- Page and sector indices name the addresses of R71. -/
def Obligations.IndicesNamePagesAndSectors : Prop :=
  (∀ p : Byte, 1 ≤ p.toNat → (pageAddr p).toNat = (p.toNat - 1) * 0x400 + 0x08006000) ∧
  (∀ p : Byte, 1 ≤ p.toNat → (sectorAddr p).toNat = (p.toNat - 1) * 0x1000 + 0x08006000) ∧
  pageAddr 0 = 0x08005C00 ∧ sectorAddr 0 = 0x08005000 ∧
  (∀ p : Byte, (pageAddr p).toNat % 0x400 = 0 ∧ (sectorAddr p).toNat % 0x1000 = 0) ∧
  (∀ p : Byte, classify (pageAddr p) = .flash ↔ 1 ≤ p.toNat ∧ p.toNat ≤ 104) ∧
  (∀ p : Byte, classify (sectorAddr p) = .flash ↔ 1 ≤ p.toNat ∧ p.toNat ≤ 26)

/-! ## Checksum validator and address-class decoder -/

/-- `xorfold` is invariant under permutation, and `verify` holds exactly when the fold with the checksum appended is zero (R82). -/
def Obligations.ChecksumIgnoresOrder : Prop :=
  (∀ xs ys : List Byte, xs.Perm ys → xorfold xs = xorfold ys) ∧
  (∀ (xs : List Byte) (c : Byte), verify xs c = true ↔ xorfold (xs ++ [c]) = 0) ∧
  (∀ (xs ys : List Byte) (c : Byte), xs.Perm ys → verify xs c = verify ys c)

/-- Changing one covered byte or the checksum byte is always detected; a change that leaves the XOR equal never is (R91). -/
def Obligations.ChecksumDetectsOneChangedByte : Prop :=
  (∀ (pre post : List Byte) (a b c : Byte), a ≠ b → verify (pre ++ a :: post) c = true →
    verify (pre ++ b :: post) c = false) ∧
  (∀ (xs : List Byte) (c c' : Byte), c ≠ c' → verify xs c = true → verify xs c' = false) ∧
  (∀ (xs ys : List Byte) (c : Byte), xorfold xs = xorfold ys → verify xs c = true → verify ys c = true)

/-- `classify` by the bounds of R92, both ends of both windows inclusive, and the boundary values of R93. -/
def Obligations.ClassesFollowTheWindows : Prop :=
  (∀ a : Addr, classify a = .flash ↔ 0x08006000 ≤ a.toNat ∧ a.toNat ≤ 0x0801FFFF) ∧
  (∀ a : Addr, classify a = .ram ↔ 0x20000200 ≤ a.toNat ∧ a.toNat ≤ 0x20005000) ∧
  (∀ a : Addr, classify a = .other ↔
    ¬ (0x08006000 ≤ a.toNat ∧ a.toNat ≤ 0x0801FFFF) ∧ ¬ (0x20000200 ≤ a.toNat ∧ a.toNat ≤ 0x20005000)) ∧
  classify 0x08005FFF = .other ∧ classify 0x08006000 = .flash ∧ classify 0x0801FFFF = .flash ∧
  classify 0x08020000 = .other ∧ classify 0x200001FF = .other ∧ classify 0x20000200 = .ram ∧
  classify 0x20005000 = .ram ∧ classify 0x20005001 = .other ∧ classify 0x00000000 = .other ∧
  classify 0xFFFFFFFF = .other

/-! ## Transport and frame receivers -/

/-- Four bytes delivered at `ADDR(0)` .. `ADDR(3)` are assembled most significant first (R69, R83). -/
def Obligations.AddressBytesAssembleMostSignificantFirst : Prop :=
  ∀ (s : State) (b0 b1 b2 b3 : Byte) (rest : List RxEvent), s.cs = .addr 0 →
    s.rx = .byte b0 :: .byte b1 :: .byte b2 :: .byte b3 :: rest →
    ∃ a : Addr, deliverMany 4 s = { s with cs := .addrCks, addr := some a, rx := rest } ∧
      byteOf 3 a = b0 ∧ byteOf 2 a = b1 ∧ byteOf 1 a = b2 ∧ byteOf 0 a = b3

/-- `SEND_WORD` sends the least significant byte first, so a word received and sent back comes out reversed (R84). -/
def Obligations.SendWordReversesAReceivedWord : Prop :=
  (∀ (s : State) (w : Addr), s.canSend 4 = true → sendWord w s = .go (s.sent [byteOf 0 w, byteOf 1 w, byteOf 2 w, byteOf 3 w])) ∧
  (∀ (s : State) (b0 b1 b2 b3 : Byte), s.canSend 4 = true →
    sendWord (wireWord b0 b1 b2 b3) s = .go (s.sent [b3, b2, b1, b0]))

/-- The payload of a frame is received in arrival order, `NUM` is appended to `BUF`, and the checksum is waited for (R89). R89 gives no
value of `I` after its loop: that `I` ends at `NUM + 1` is the model's choice (log 17). -/
def Obligations.FrameBodyIsCollectedInOrder : Prop :=
  ∀ (s : State) (n : Byte) (payload : List Byte) (rest : List RxEvent), s.cs = .fD 0 → s.num = some n →
    payload.length = n.toNat + 1 → s.rx = payload.map RxEvent.byte ++ rest →
    deliverMany (n.toNat + 1) s =
      { s with cs := .fCks, buf := payload ++ [n], i := some (n.toNat + 1), rx := rest }

/-- A delivered event is consumed, exactly one at a wait point; while there is none the block waits (R22, R149). That a delivery takes
its event in a state that does not wait as well is the model's choice (DESIGN CHOICE, log 1): R149 and R156 leave it open. -/
def Obligations.AWaitPointConsumesOneEvent : Prop :=
  (∀ (s : State) (ev : RxEvent) (rest : List RxEvent), s.rx = ev :: rest → (deliver s).rx = rest) ∧
  (∀ s : State, s.cs.waits = true → s.rx = [] → step s = .next s)

/-- A timeout ends the handshake, the session under `CMD_TIMEOUT_MODE = end` at the header, and the command anywhere else, with no
byte sent; every case but the handshake clears the registers (R85, R111, R140). -/
def Obligations.TimeoutEndsTheCommandSilently : Prop :=
  ∀ (s : State) (rest : List RxEvent), s.cs.waits = true → s.rx = .timeout :: rest →
    step s = .next
      (if s.cs = .awaitInit then { s with cs := .initFailed, rx := rest }
        else if (s.cs = .cmdOp ∨ s.cs = .cmdCp) ∧ s.cfg.cmdTimeoutMode = .finish then
          { endCommand { s with rx := rest } with cs := .initFailed }
        else endCommand { s with rx := rest })

/-- What a `TxError` at the (k+1)-th send of any instruction, of any step, or of what follows any single event does (the NACKs of a
refused header among them): `FAULT(TX_IO_ERROR)` with the `k` bytes before it sent (R86). -/
def Obligations.ErrorOfTheChannelFaultsAtItsSend : Prop :=
  (∀ (i : Instr) (s t : State) (k : Nat) (d : List Byte), s.txErrorIn = none → exec i s = .next t → t.tx = s.tx ++ d →
    k < d.length →
    ∃ u, exec i { s with txErrorIn := some k } = .next u ∧ u.cs = .fault .txIoError ∧ u.tx = s.tx ++ d.take k) ∧
  (∀ (s t : State) (k : Nat) (d : List Byte), s.txErrorIn = none → step s = .next t → t.tx = s.tx ++ d → k < d.length →
    ∃ u, step { s with txErrorIn := some k } = .next u ∧ u.cs = .fault .txIoError ∧ u.tx = s.tx ++ d.take k) ∧
  (∀ (s : State) (k : Nat) (d : List Byte), s.txErrorIn = none → (deliver s).tx = s.tx ++ d → k < d.length →
    (deliver { s with txErrorIn := some k }).cs = .fault .txIoError ∧
      (deliver { s with txErrorIn := some k }).tx = s.tx ++ d.take k)

/-! ## Handshake and dispatch -/

/-- INIT at `AWAIT_INIT` is acknowledged and opens the command loop (R109). -/
def Obligations.InitOpensTheCommandLoop : Prop :=
  ∀ s : State, s.canSend 1 = true → exec .init s = .next (endCommand (s.sent [0x79]))

/-- Any other byte, or a timeout, at `AWAIT_INIT` ends in `INIT_FAILED` with nothing sent and nothing changed, and no later event is
consumed (R110). -/
def Obligations.AnyOtherFirstEventFailsTheHandshake : Prop :=
  ∀ (s : State) (ev : RxEvent) (rest : List RxEvent), s.cs = .awaitInit → s.rx = ev :: rest → ev ≠ .byte 0x7F →
    ∃ u, step s = .next u ∧ u = { s with cs := .initFailed, rx := rest } ∧ step u = .next u

/-- A header whose complement byte is not `~op` is answered with NACK, once or twice as `HDR_MISMATCH_NACKS` says, and runs no
handler (R74, R113). -/
def Obligations.HeaderMismatchRunsNoHandler : Prop :=
  ∀ (s : State) (op cp : Byte) (rest : List RxEvent), s.cs = .cmdOp → s.rx = .byte op :: .byte cp :: rest →
    cp ≠ ~~~op → s.canSend 2 = true →
    ∃ u, step s = .next u ∧ u = { s with cs := .cmdCp, cmd := some op, rx := .byte cp :: rest } ∧
      step u = .next { endCommand (s.sent (match s.cfg.hdrMismatchNacks with | .one => [0x1F] | .two => [0x1F, 0x1F]))
        with rx := rest }

/-- A header `[op][~op]` of none of the twelve opcodes is answered with one NACK (R75, R115). -/
def Obligations.UnknownOpcodeIsRefused : Prop :=
  ∀ (s : State) (op : Byte) (rest : List RxEvent), s.cs = .cmdOp → s.rx = .byte op :: .byte (~~~op) :: rest →
    op ∉ [0x00, 0x01, 0x02, 0x11, 0x21, 0x31, 0x43, 0x44, 0x63, 0x73, 0x82, 0x92] → s.canSend 1 = true →
    ∃ u, step s = .next u ∧ u = { s with cs := .cmdCp, cmd := some op, rx := .byte (~~~op) :: rest } ∧
      step u = .next { endCommand (s.sent [0x1F]) with rx := rest }

/-- 0x7F in the command loop is an opcode byte: the block waits for its complement, and answers NACK whatever comes (R119). -/
def Obligations.InitByteHasNoMeaningInTheLoop : Prop :=
  ∀ (s : State) (b : Byte) (rest : List RxEvent), s.cs = .cmdOp → s.rx = .byte 0x7F :: .byte b :: rest →
    s.canSend 1 = true → s.cfg.hdrMismatchNacks = .one →
    ∃ u, step s = .next u ∧ u.cs = .cmdCp ∧ u.cmd = some 0x7F ∧
      step u = .next { endCommand (s.sent [0x1F]) with rx := rest }

/-- A guarded opcode with `ROP` active: one NACK in place of the handler's first ACK and no step of the handler; the operand bytes of
a host that sends on are left to be read as headers (R116, R157). -/
def Obligations.GuardRefusesUnderReadoutProtection : Prop :=
  ∀ (i : Instr) (c : Command) (s : State), i.command = some c → (c = .wp ∨ c.opcode ∈ s.cfg.ropGuarded) → s.rop = true →
    s.canSend 1 = true →
    exec i s = .next { endCommand (s.sent [0x1F]) with rx := (operandBytes i).map RxEvent.byte ++ s.rx }

/-- The first byte of a dispatched command is ACK, but for extended-erase, readout-protect under `ROP` and a guarded opcode under
`ROP` (R118). -/
def Obligations.FirstReplyIsAckButForTheNotedThree : Prop :=
  ∀ (i : Instr) (c : Command) (s t : State), i.command = some c → s.canSend 1 = true → exec i s = .next t →
    ∃ d, t.tx = s.tx ++
      (if c = .ee ∨ (c = .rp ∧ s.rop = true) ∨ ((c = .wp ∨ c.opcode ∈ s.cfg.ropGuarded) ∧ s.rop = true) then 0x1F
        else 0x79) :: d

/-! ## Information commands -/

/-- get-commands sends its sixteen bytes and changes nothing else (R120). -/
def Obligations.GetCommandsReply : Prop :=
  encode .get = [0x00, 0xFF] ∧ ∀ s : State, s.guardOpen .get = true → s.canSend 16 = true →
    exec .get s = .next (endCommand (s.sent
      [0x79, 0x0B, 0x10, 0x00, 0x01, 0x02, 0x11, 0x21, 0x31, 0x43, 0x44, 0x63, 0x73, 0x82, 0x92, 0x79]))

/-- get-version sends ACK, the version byte, two zero bytes, ACK and changes nothing else (R121). -/
def Obligations.GetVersionReply : Prop :=
  encode .gv = [0x01, 0xFE] ∧ ∀ s : State, s.guardOpen .gv = true → s.canSend 5 = true →
    exec .gv s = .next (endCommand (s.sent [0x79, s.cfg.versionByte, 0x00, 0x00, 0x79]))

/-- get-id sends ACK, its three bytes, ACK and changes nothing else (R122). -/
def Obligations.GetIdReply : Prop :=
  encode .gid = [0x02, 0xFD] ∧ ∀ s : State, s.guardOpen .gid = true → s.canSend 5 = true →
    exec .gid s = .next (endCommand (s.sent [0x79, s.cfg.idBytes.1, s.cfg.idBytes.2.1, s.cfg.idBytes.2.2, 0x79]))

/-! ## read-memory -/

/-- read-memory answers three ACKs and the `NUM + 1` bytes from the address on, or in `words` mode whole words, and changes nothing
but `TX` (R123). -/
def Obligations.ReadMemoryStreamsTheBytes : Prop :=
  ∀ (s : State) (a : Addr) (x count y : Byte) (n : Nat), s.guardOpen .rm = true → x = addrXor a → classify a ≠ .other →
    y = readCountCks s.cfg.readCountCks count →
    n = (match s.cfg.readLengthMode with | .exact => count.toNat + 1 | .words => 4 * (count.toNat / 4 + 1)) →
    storedFrom s a n → s.canSend (3 + n) = true →
    exec (.rm a x count y) s = .next (endCommand (s.sent ([0x79, 0x79, 0x79] ++ memBytes s a n)))

/-- read-memory refuses a bad address checksum or a target outside `Flash` and `Ram` with one NACK after the header ACK, and a bad
count checksum with one NACK after the address ACK (R123, R138, R139). -/
def Obligations.ReadMemoryRefusals : Prop :=
  ∀ (s : State) (a : Addr) (x count y : Byte), s.guardOpen .rm = true → s.canSend 3 = true →
    (x ≠ addrXor a ∨ classify a = .other →
      exec (.rm a x count y) s =
        .next { endCommand (s.sent [0x79, 0x1F]) with rx := .byte count :: .byte y :: s.rx }) ∧
    (x = addrXor a → classify a ≠ .other → y ≠ readCountCks s.cfg.readCountCks count →
      exec (.rm a x count y) s = .next (endCommand (s.sent [0x79, 0x79, 0x1F])))

/-- read-memory past the stored bytes faults at the first byte without storage, with the bytes before it already sent; in `words` mode
the bytes of the word that faults are not sent, and that the fault names the lowest missing byte of the word is the model's choice
(R46, R123, R135; log 20). -/
def Obligations.ReadMemoryFaultsPastStorage : Prop :=
  ∀ (s : State) (a : Addr) (x count y : Byte) (k n : Nat), s.guardOpen .rm = true → x = addrXor a → classify a ≠ .other →
    y = readCountCks s.cfg.readCountCks count →
    n = (match s.cfg.readLengthMode with | .exact => count.toNat + 1 | .words => 4 * (count.toNat / 4 + 1)) →
    k < n → storedFrom s a k → hasStorage s.cfg (addrPlus a k).toNat = false → s.canSend (3 + k) = true →
    ∃ t, exec (.rm a x count y) s = .next t ∧ t.cs = .fault (.readUnmapped (addrPlus a k)) ∧
      t.tx = s.tx ++ ([0x79, 0x79, 0x79] : List Byte) ++
        memBytes s a (match s.cfg.readLengthMode with | .exact => k | .words => 4 * (k / 4)) ∧
      t.mem = s.mem ∧ t.rx = s.rx ∧ sameStatus s t

/-! ## write-memory -/

/-- The flash path on erased, unprotected words: every payload byte lands at its address, the rest of the last word is 0x00, every
other byte is unchanged, and the reply is three ACKs (R95, R96, R124). -/
def Obligations.WriteMemoryProgramsFlash : Prop :=
  ∀ (s : State) (a : Addr) (x y : Byte) (payload : List Byte) (n : Nat), s.mem.wf = true → s.guardOpen .wm = true →
    x = addrXor a → 1 ≤ payload.length → payload.length ≤ 256 → y = frameXor payload →
    n = 4 * ((payload.length - 1) / 4 + 1) → 0x08006000 ≤ a.toNat → a.toNat + n ≤ 0x08020000 → a.toNat % 4 = 0 →
    (∀ z, a.toNat ≤ z → z < a.toNat + n → s.mem.read z = s.cfg.erasedByte ∧ sectorProtected s z = false) →
    s.canSend 3 = true →
    ∃ m, exec (.wm a x payload y) s = .next { endCommand (s.sent [0x79, 0x79, 0x79]) with mem := m } ∧
      ∀ z, m.read z = if a.toNat ≤ z ∧ z < a.toNat + n then payload.getD (z - a.toNat) 0x00 else s.mem.read z

/-- The flash path whatever the target words hold and whatever `WRP` is: it completes with three ACKs, every word that was erased and
unprotected takes its bytes, and no byte outside its words changes (R52, R96, R124; the bytes of any other word are left open). -/
def Obligations.WriteMemoryToFlashCompletesOnAnyContents : Prop :=
  ∀ (s : State) (a : Addr) (x y : Byte) (payload : List Byte) (n : Nat), s.mem.wf = true → s.guardOpen .wm = true →
    x = addrXor a → 1 ≤ payload.length → payload.length ≤ 256 → y = frameXor payload →
    n = 4 * ((payload.length - 1) / 4 + 1) → 0x08006000 ≤ a.toNat → a.toNat + n ≤ 0x08020000 → a.toNat % 4 = 0 →
    s.canSend 3 = true →
    ∃ m d, exec (.wm a x payload y) s = .next { endCommand (s.sent [0x79, 0x79, 0x79]) with mem := m, draws := d } ∧
      (∀ z, a.toNat ≤ z → z < a.toNat + n → programmable s z → m.read z = payload.getD (z - a.toNat) 0x00) ∧
      sameOutside a.toNat n s.mem m

/-- The flash path faults at a misaligned address with nothing written, and at the first word beyond class `Flash` with the words
before it programmed (where erased and unprotected, else left open) and every byte outside them unchanged; no ACK follows (R96, R124,
R135). -/
def Obligations.WriteMemoryFlashFaults : Prop :=
  ∀ (s : State) (a : Addr) (x y : Byte) (payload : List Byte), s.mem.wf = true → s.guardOpen .wm = true → x = addrXor a →
    1 ≤ payload.length → payload.length ≤ 256 → y = frameXor payload → classify a = .flash → s.canSend 2 = true →
    (a.toNat % 4 ≠ 0 →
      ∃ t, exec (.wm a x payload y) s = .next t ∧ t.cs = .fault (.flashProgramMisaligned a) ∧
        t.tx = s.tx ++ [0x79, 0x79] ∧ t.mem = s.mem ∧ t.rx = s.rx ∧ sameStatus s t) ∧
    (a.toNat % 4 = 0 → 0x08020000 < a.toNat + payload.length →
      ∃ t, exec (.wm a x payload y) s = .next t ∧ t.cs = .fault (.flashProgramOutOfRange 0x08020000) ∧
        t.tx = s.tx ++ [0x79, 0x79] ∧ t.rx = s.rx ∧ sameStatus s t ∧
        (∀ z, a.toNat ≤ z → z < 0x08020000 → programmable s z → t.mem.read z = payload.getD (z - a.toNat) 0x00) ∧
        sameOutside a.toNat (0x08020000 - a.toNat) s.mem t.mem)

/-- The RAM path stores every payload byte at its address and nothing else; the third ACK is sent only with `RAM_WRITE_ACK`
(R47, R95, R124, R161). -/
def Obligations.WriteMemoryStoresRam : Prop :=
  ∀ (s : State) (a : Addr) (x y : Byte) (payload : List Byte), s.mem.wf = true → s.guardOpen .wm = true → x = addrXor a →
    1 ≤ payload.length → payload.length ≤ 256 → y = frameXor payload → 0x20000200 ≤ a.toNat →
    a.toNat + payload.length ≤ 0x20005001 → s.canSend 3 = true →
    ∃ m, exec (.wm a x payload y) s =
        .next { endCommand (s.sent (if s.cfg.ramWriteAck then [0x79, 0x79, 0x79] else [0x79, 0x79])) with mem := m } ∧
      ∀ z, m.read z =
        if a.toNat ≤ z ∧ z < a.toNat + payload.length then payload.getD (z - a.toNat) 0x00 else s.mem.read z

/-- The RAM path that runs past the window stores the bytes inside it and faults at 0x20005001 (R47, R124, R135). -/
def Obligations.WriteMemoryRamFaultsPastTheWindow : Prop :=
  ∀ (s : State) (a : Addr) (x y : Byte) (payload : List Byte), s.mem.wf = true → s.guardOpen .wm = true → x = addrXor a →
    payload.length ≤ 256 → y = frameXor payload → classify a = .ram → 0x20005001 < a.toNat + payload.length →
    s.canSend 2 = true →
    ∃ t, exec (.wm a x payload y) s = .next t ∧ t.cs = .fault (.ramWriteOutOfWindow 0x20005001) ∧
      t.tx = s.tx ++ [0x79, 0x79] ∧ t.rx = s.rx ∧ sameStatus s t ∧
      ∀ z, t.mem.read z = if a.toNat ≤ z ∧ z ≤ 0x20005000 then payload.getD (z - a.toNat) 0x00 else s.mem.read z

/-- The option-byte path stores the payload from `OB_BASE` on, sends its third ACK and resets; `ROP` and `WRP` are left open
(R95, R99, R105, R106, R124; the level of `BOOT_PIN` at the reset is log 13). -/
def Obligations.WriteMemoryProgramsOptionBytesAndResets : Prop :=
  ∀ (s : State) (x y : Byte) (payload : List Byte), s.mem.wf = true → s.guardOpen .wm = true → x = addrXor 0x1FFFF800 →
    1 ≤ payload.length → payload.length ≤ 256 → y = frameXor payload → payload.length ≤ s.cfg.obSize → s.canSend 3 = true →
    ∃ m r w, exec (.wm 0x1FFFF800 x payload y) s =
        .next { (s.sent [0x79, 0x79, 0x79]).restarted with
          obWritten := false, rop := r, wrp := w, mem := m, draws := s.draws + 1 } ∧
      ∀ z, m.read z =
        if 0x1FFFF800 ≤ z ∧ z < 0x1FFFF800 + payload.length then payload.getD (z - 0x1FFFF800) 0x00 else s.mem.read z

/-- write-memory writes nothing on a bad address checksum, a bad frame checksum, or an address that is neither `Flash`, `Ram` nor
`OB_BASE` (one NACK at that stage), and faults on more option bytes than there are (R95, R99, R124). -/
def Obligations.WriteMemoryRefusals : Prop :=
  ∀ (s : State) (a : Addr) (x y : Byte) (payload : List Byte), s.guardOpen .wm = true → s.canSend 3 = true →
    1 ≤ payload.length → payload.length ≤ 256 →
    (x ≠ addrXor a →
      exec (.wm a x payload y) s =
        .next { endCommand (s.sent [0x79, 0x1F]) with rx := (dataFrame payload y).map RxEvent.byte ++ s.rx }) ∧
    (x = addrXor a → y ≠ frameXor payload →
      exec (.wm a x payload y) s = .next (endCommand (s.sent [0x79, 0x79, 0x1F]))) ∧
    (x = addrXor a → y = frameXor payload → classify a = .other → a ≠ 0x1FFFF800 →
      exec (.wm a x payload y) s = .next (endCommand (s.sent [0x79, 0x79, 0x1F]))) ∧
    (x = addrXor a → y = frameXor payload → a = 0x1FFFF800 → s.cfg.obSize < payload.length →
      ∃ t, exec (.wm a x payload y) s = .next t ∧ t.cs = .fault (.obWriteOutOfRange payload.length) ∧
        t.tx = s.tx ++ [0x79, 0x79] ∧ t.mem = s.mem ∧ t.rx = s.rx ∧ sameStatus s t)

/-! ## go -/

/-- go to a valid target hands control over with the little-endian words at the target and after it (R125, R126), or faults at a byte of
them without storage; go to any other target, or with a bad checksum, is refused with one NACK. That the fault names the lowest such
byte is the model's choice: R46 names one without an order (log 20). -/
def Obligations.GoHandsOverOrRefuses : Prop :=
  ∀ (s : State) (a : Addr) (x : Byte), s.guardOpen .go = true → s.canSend 2 = true →
    (x = addrXor a → classify a ≠ .other → storedFrom s a 8 →
      ∃ t sp entry, exec (.go a x) s = .next t ∧ t.cs = .handedOff a sp entry ∧
        leBytes sp ++ leBytes entry = memBytes s a 8 ∧ t.tx = s.tx ++ [0x79, 0x79] ∧ t.mem = s.mem ∧ t.rx = s.rx ∧
        sameStatus s t) ∧
    (∀ k, x = addrXor a → classify a ≠ .other → k < 8 → storedFrom s a k →
      hasStorage s.cfg (addrPlus a k).toNat = false →
      ∃ t, exec (.go a x) s = .next t ∧ t.cs = .fault (.readUnmapped (addrPlus a k)) ∧ t.tx = s.tx ++ [0x79, 0x79] ∧
        t.mem = s.mem ∧ t.rx = s.rx ∧ sameStatus s t) ∧
    (x ≠ addrXor a ∨ classify a = .other → exec (.go a x) s = .next (endCommand (s.sent [0x79, 0x1F])))

/-! ## erase -/

/-- Erase-all answers two ACKs and reads no checksum: every byte of class `Flash` is erased, but in pages of the bootloader (unchanged)
and in write-protected sectors (left open); every byte outside class `Flash` is unchanged (R97, R98, R127). -/
def Obligations.EraseAllErasesFlash : Prop :=
  ∀ s : State, s.mem.wf = true → s.guardOpen .er = true → s.canSend 2 = true →
    ∃ m d, exec (.er none) s = .next { endCommand (s.sent [0x79, 0x79]) with mem := m, draws := d } ∧
      (∀ z, ¬ (0x08006000 ≤ z ∧ z ≤ 0x0801FFFF) → m.read z = s.mem.read z) ∧
      (∀ p ∈ flashPageList, ∀ z, p.toNat ≤ z → z < p.toNat + 0x400 →
        (overlapsBootloader s.cfg p = true → m.read z = s.mem.read z) ∧
        (overlapsBootloader s.cfg p = false → sectorProtected s z = false → m.read z = s.cfg.erasedByte))

/-- Erase of a list of valid page indices with a good checksum: two ACKs, every listed page erased (left open where write-protected),
every other byte unchanged (R71, R97, R127). -/
def Obligations.EraseListErasesItsPages : Prop :=
  ∀ (s : State) (ps : List Byte) (x : Byte), s.mem.wf = true → s.guardOpen .er = true → 1 ≤ ps.length → ps.length ≤ 255 →
    (∀ p ∈ ps, 1 ≤ p.toNat ∧ p.toNat ≤ 104) → x = frameXor ps → s.canSend 2 = true →
    ∃ m d, exec (.er (some (ps, x))) s = .next { endCommand (s.sent [0x79, 0x79]) with mem := m, draws := d } ∧
      (∀ z, inListedPage ps z → sectorProtected s z = false → m.read z = s.cfg.erasedByte) ∧
      (∀ z, ¬ inListedPage ps z → m.read z = s.mem.read z)

/-- Erase with a bad list checksum: NACK and nothing erased under `abort`; under `continue` NACK, the listed pages erased, ACK, or at
an invalid index the fault, with the pages before it erased and no ACK after the NACK (R127, R134, R135). -/
def Obligations.EraseOnABadChecksum : Prop :=
  ∀ (s : State) (ps : List Byte) (x : Byte), s.mem.wf = true → s.guardOpen .er = true → 1 ≤ ps.length → ps.length ≤ 255 →
    x ≠ frameXor ps → s.canSend 3 = true →
    (s.cfg.eraseCksFailMode = .abort →
      exec (.er (some (ps, x))) s = .next (endCommand (s.sent [0x79, 0x1F]))) ∧
    (s.cfg.eraseCksFailMode = .proceed → (∀ p ∈ ps, 1 ≤ p.toNat ∧ p.toNat ≤ 104) →
      ∃ m d, exec (.er (some (ps, x))) s = .next { endCommand (s.sent [0x79, 0x1F, 0x79]) with mem := m, draws := d } ∧
        (∀ z, inListedPage ps z → sectorProtected s z = false → m.read z = s.cfg.erasedByte) ∧
        (∀ z, ¬ inListedPage ps z → m.read z = s.mem.read z)) ∧
    (s.cfg.eraseCksFailMode = .proceed → ∀ (pre post : List Byte) (p : Byte), ps = pre ++ p :: post →
      (∀ q ∈ pre, 1 ≤ q.toNat ∧ q.toNat ≤ 104) → (p.toNat = 0 ∨ 104 < p.toNat) →
      ∃ t, exec (.er (some (ps, x))) s = .next t ∧ t.cs = .fault (.erasePageInvalid (pageAddr p)) ∧
        t.tx = s.tx ++ [0x79, 0x1F] ∧ t.rx = s.rx ∧ sameStatus s t ∧
        (∀ z, inListedPage pre z → sectorProtected s z = false → t.mem.read z = s.cfg.erasedByte) ∧
        (∀ z, ¬ inListedPage pre z → t.mem.read z = s.mem.read z))

/-- Erase of a list with an invalid index (0 or above 104) faults at it, with the pages before it already erased and no ACK
(R97, R127, R135). -/
def Obligations.EraseFaultsAtAnInvalidPage : Prop :=
  ∀ (s : State) (pre post : List Byte) (p x : Byte), s.mem.wf = true → s.guardOpen .er = true →
    (pre ++ p :: post).length ≤ 255 → (∀ q ∈ pre, 1 ≤ q.toNat ∧ q.toNat ≤ 104) → (p.toNat = 0 ∨ 104 < p.toNat) →
    x = frameXor (pre ++ p :: post) → s.canSend 1 = true →
    ∃ t, exec (.er (some (pre ++ p :: post, x))) s = .next t ∧ t.cs = .fault (.erasePageInvalid (pageAddr p)) ∧
      t.tx = s.tx ++ [0x79] ∧ t.rx = s.rx ∧ sameStatus s t ∧
      (∀ z, inListedPage pre z → sectorProtected s z = false → t.mem.read z = s.cfg.erasedByte) ∧
      (∀ z, ¬ inListedPage pre z → t.mem.read z = s.mem.read z)

/-- extended-erase sends one NACK and changes nothing else (R128). -/
def Obligations.ExtendedEraseAlwaysNacks : Prop :=
  encode .ee = [0x44, 0xBB] ∧ ∀ s : State, s.canSend 1 = true → exec .ee s = .next (endCommand (s.sent [0x1F]))

/-! ## Protection commands

A command that resets ends in `State.restarted`: where the level of `BOOT_PIN` at the reset comes from is the model's choice
(log 13). -/

/-- write-protect of valid sectors with `ROP` inactive: two ACKs, the listed bits set and the others kept, then the reset (R100, R130).
`OB_WRITTEN` is 0 at every wait point (`EveryStepKeepsTheInvariant`). -/
def Obligations.WriteProtectSetsTheListedSectors : Prop :=
  ∀ (s : State) (ix : List Byte) (x : Byte), s.rop = false → s.obWritten = false → 1 ≤ ix.length → ix.length ≤ 256 →
    (∀ p ∈ ix, 1 ≤ p.toNat ∧ p.toNat ≤ 26) → x = frameXor ix → s.canSend 2 = true →
    ∃ w, exec (.wp ix x) s = .next { (s.sent [0x79, 0x79]).restarted with wrp := w } ∧
      ∀ k, k < 26 → w.getLsbD k = (s.wrp.getLsbD k || ix.any fun p => p.toNat == k + 1)

/-- write-protect with a bad checksum changes nothing and does not reset; at an invalid sector index it faults, with the sectors before it
already protected; under `ROP` it is refused without an ACK (R100, R116, R130). -/
def Obligations.WriteProtectRefusals : Prop :=
  ∀ (s : State) (x : Byte), s.canSend 2 = true →
    (∀ ix : List Byte, s.rop = false → 1 ≤ ix.length → ix.length ≤ 256 → x ≠ frameXor ix →
      exec (.wp ix x) s = .next (endCommand (s.sent [0x79, 0x1F]))) ∧
    (∀ (pre post : List Byte) (p : Byte), s.rop = false → (pre ++ p :: post).length ≤ 256 →
      (∀ q ∈ pre, 1 ≤ q.toNat ∧ q.toNat ≤ 26) → (p.toNat = 0 ∨ 26 < p.toNat) → x = frameXor (pre ++ p :: post) →
      ∃ t, exec (.wp (pre ++ p :: post) x) s = .next t ∧ t.cs = .fault (.wrpSectorInvalid (sectorAddr p)) ∧
        t.tx = s.tx ++ [0x79] ∧ t.mem = s.mem ∧ t.rx = s.rx ∧ t.rop = s.rop ∧ t.swrf = s.swrf ∧
        ∀ k, k < 26 → t.wrp.getLsbD k = (s.wrp.getLsbD k || pre.any fun q => q.toNat == k + 1)) ∧
    (∀ ix : List Byte, s.rop = true →
      exec (.wp ix x) s =
        .next { endCommand (s.sent [0x1F]) with rx := (dataFrame ix x).map RxEvent.byte ++ s.rx })

/-- write-unprotect clears every bit of `WRP`, answers two ACKs and resets, whatever was protected (R101, R131; log 13 for the level of
`BOOT_PIN`). -/
def Obligations.WriteUnprotectClearsEverySector : Prop :=
  encode .wu = [0x73, 0x8C] ∧ ∀ s : State, s.guardOpen .wu = true → s.obWritten = false → s.canSend 2 = true →
    exec .wu s = .next { (s.sent [0x79, 0x79]).restarted with wrp := 0 }

/-- readout-protect sets `ROP`, answers two ACKs and resets; with `ROP` active already it sends one NACK and nothing more
(R102, R132; log 13 for the level of `BOOT_PIN`). -/
def Obligations.ReadoutProtectSetsRopOnce : Prop :=
  encode .rp = [0x82, 0x7D] ∧ ∀ s : State, s.canSend 2 = true →
    (s.rop = false → s.obWritten = false →
      exec .rp s = .next { (s.sent [0x79, 0x79]).restarted with rop := true }) ∧
    (s.rop = true → exec .rp s = .next (endCommand (s.sent [0x1F])))

/-- readout-unprotect clears `ROP`, erases all of class `Flash` whatever `WRP` is, clears all of class `Ram`, keeps every other byte and
`WRP`, answers two ACKs and resets (R103, R108, R133). -/
def Obligations.ReadoutUnprotectErasesFlashAndRam : Prop :=
  encode .ru = [0x92, 0x6D] ∧ ∀ s : State, s.guardOpen .ru = true → s.obWritten = false → s.canSend 2 = true →
    ∃ m, exec .ru s =
        .next { (s.sent [0x79, 0x79]).restarted with rop := false, mem := m } ∧
      ∀ z, m.read z =
        if 0x08006000 ≤ z ∧ z ≤ 0x0801FFFF then s.cfg.erasedByte
        else if 0x20000200 ≤ z ∧ z ≤ 0x20005000 then 0x00
        else s.mem.read z

/-! ## FlashController primitives, errors, reset -/

/-- `FC.programWord`: the two faults, the erased and unprotected word that takes its bytes, and any other word, of which only its own four
bytes change, to values left open (R96). -/
def Obligations.ProgramWordByItsCases : Prop :=
  ∀ (s : State) (a w : Addr), s.mem.wf = true →
    (a.toNat % 4 ≠ 0 → programWord a w s = .stop { s with cs := .fault (.flashProgramMisaligned a) }) ∧
    (a.toNat % 4 = 0 → classify a ≠ .flash →
      programWord a w s = .stop { s with cs := .fault (.flashProgramOutOfRange a) }) ∧
    (a.toNat % 4 = 0 → classify a = .flash → sectorProtected s a.toNat = false →
      (∀ i, i < 4 → s.mem.read (a.toNat + i) = s.cfg.erasedByte) →
      ∃ m, programWord a w s = .go { s with mem := m } ∧ (∀ i, i < 4 → m.read (a.toNat + i) = byteOf i w) ∧
        sameOutside a.toNat 4 s.mem m) ∧
    (a.toNat % 4 = 0 → classify a = .flash →
      (sectorProtected s a.toNat = true ∨ ∃ i, i < 4 ∧ s.mem.read (a.toNat + i) ≠ s.cfg.erasedByte) →
      ∃ m d, programWord a w s = .go { s with mem := m, draws := d } ∧ sameOutside a.toNat 4 s.mem m)

/-- `FC.erasePage`: the fault, the unprotected page whose every byte is erased, and the write-protected page, of which only its own bytes
change, to values left open (R97). -/
def Obligations.ErasePageByItsCases : Prop :=
  ∀ (s : State) (p : Addr), s.mem.wf = true →
    (classify p ≠ .flash ∨ (p.toNat - 0x08006000) % 0x400 ≠ 0 →
      erasePage p s = .stop { s with cs := .fault (.erasePageInvalid p) }) ∧
    (classify p = .flash → (p.toNat - 0x08006000) % 0x400 = 0 → sectorProtected s p.toNat = false →
      ∃ m, erasePage p s = .go { s with mem := m } ∧ (∀ i, i < 0x400 → m.read (p.toNat + i) = s.cfg.erasedByte) ∧
        sameOutside p.toNat 0x400 s.mem m) ∧
    (classify p = .flash → (p.toNat - 0x08006000) % 0x400 = 0 → sectorProtected s p.toNat = true →
      ∃ m d, erasePage p s = .go { s with mem := m, draws := d } ∧ sameOutside p.toNat 0x400 s.mem m)

/-- Taking a protocol error that does not end the session: the reply of R134's table, the registers cleared, the head of the command
loop, memory and protection as before (R134, R140). -/
def Obligations.ErrorsAreLocalToTheCommand : Prop :=
  ∀ (s : State) (e : ProtocolError), s.canSend 2 = true → e ≠ .initFailed →
    (e = .timeout → s.cs ≠ .cmdOp ∧ s.cs ≠ .cmdCp ∨ s.cfg.cmdTimeoutMode = .proceed) →
    takeError e s = .stop (endCommand (s.sent
      (match e with
        | .timeout | .initFailed => []
        | .headerMismatch => (match s.cfg.hdrMismatchNacks with | .one => [0x1F] | .two => [0x1F, 0x1F])
        | .unknownOpcode | .checksumMismatch | .invalidAddress | .protectionViolation | .unimplemented => [0x1F])))

/-- `FC.reset()`: `SWRF` set, every register without a value, `BOOT_PIN` at the environment's level for this reset, the reset sequence
next; `TX`, memory and, but for an option-byte write, `ROP` and `WRP` kept (R36, R105, R106; the script of levels is log 13). -/
def Obligations.SoftwareResetKeepsNonVolatileState : Prop :=
  ∀ s : State, ∃ t, fcReset s = .stop t ∧ t.cs = .boot ∧ t.swrf = true ∧ t.holdsExactly [] ∧ t.tx = s.tx ∧ t.mem = s.mem ∧
    t.rx = s.rx ∧ t.bootPin = s.pins.headD s.bootPin ∧ t.pins = s.pins.tail ∧ t.cfg = s.cfg ∧ t.obWritten = false ∧
    (s.obWritten = false → t.rop = s.rop ∧ t.wrp = s.wrp)

/-- The reset sequence: `SWRF` is read and cleared; with the pin asserted or after a software reset the block waits for INIT, else it
hands off to the application at `FLASH_BASE` without a check (R150, R152). -/
def Obligations.ResetSequenceDecides : Prop :=
  ∀ s : State, s.cs = .boot →
    (s.bootPin = true ∨ s.swrf = true → step s = .next { s with swrf := false, cs := .awaitInit }) ∧
    (s.bootPin = false → s.swrf = false →
      ∃ sp entry, step s = .next { s with swrf := false, cs := .handedOff 0x08006000 sp entry } ∧
        leBytes sp ++ leBytes entry = memBytes s 0x08006000 8)

/-- Power-on: `TX` empty, no register with a value, `SWRF` and `OB_WRITTEN` 0, RAM at the given contents, everything non-volatile kept
(R29, R36). -/
def Obligations.PowerOnKeepsNonVolatileState : Prop :=
  ∀ (pin : Bool) (ram : List Byte) (s : State), s.mem.wf = true → ram.length = 0x4E01 →
    ∃ t, t = powerOn pin ram s ∧ t.cs = .boot ∧ t.holdsExactly [] ∧ t.tx = [] ∧ t.swrf = false ∧ t.bootPin = pin ∧
      t.obWritten = false ∧ t.rop = s.rop ∧ t.wrp = s.wrp ∧
      ∀ z, t.mem.read z =
        if 0x20000200 ≤ z ∧ z ≤ 0x20005000 then ram.getD (z - 0x20000200) 0x00 else s.mem.read z

/-! ## The whole machine -/

/-- A step at an accept point whose next events are the bytes of a well-formed instruction is `exec` of that instruction, with those
events taken (R60, R109, R111). That one step runs a whole command is the model's choice (DESIGN CHOICE, log 2): R25 steps one event
at a time. -/
def Obligations.AStepRunsTheDecodedInstruction : Prop :=
  ∀ (i : Instr) (s : State) (rest : List RxEvent), WellFormed i → s.cs = acceptState i.acceptPoint →
    s.rx = (encode i).map RxEvent.byte ++ rest → step s = exec i { s with rx := rest }

/-- At every wait point a step is a run of deliveries of single events, each at its own wait point (the state before each delivery
waits): whole commands, the model's choice of log 2, hide nothing of the byte transcript (R7, R22, R25). -/
def Obligations.EveryStepIsARunOfSingleEvents : Prop :=
  ∀ s : State, s.cs.waits = true →
    ∃ n, n ≤ s.rx.length ∧ (s.rx ≠ [] → 0 < n) ∧ (∀ k, k < n → (deliverMany k s).cs.waits = true) ∧
      step s = .next (deliverMany n s)

/-- Every step keeps the invariant: memory canonical and inside the address map, exactly the registers of the control state holding a
value, no fault but those of R135, `OB_WRITTEN` consumed (R21, R23, R24, R39, R106). -/
def Obligations.EveryStepKeepsTheInvariant : Prop :=
  ∀ s t : State, s.Inv → step s = .next t → t.Inv

/-- The state after reset meets the invariant (R36). -/
def Obligations.ResetMeetsTheInvariant : Prop := State.reset.Inv

/-- No step of a state with the invariant answers a fault but the one its control state names, and none refuses: the block always has
a move until it is in `FAULT(r)` (R24, R135, R149). -/
def Obligations.OnlyAFaultStateFaults : Prop :=
  ∀ s : State, s.Inv →
    (∃ t, step s = .next t ∧ t.Inv) ∨ (∃ r, s.cs = .fault r ∧ r.ofSpec = true ∧ step s = .fault r)

/-- No step shortens or rewrites `TX`, takes receive events out of order, or writes the parameters; the boot pin keeps its level but at
a reset, where the environment's next one comes (R30, R34, R55; the script of levels is log 13). -/
def Obligations.TransmitOnlyGrowsAndEventsKeepTheirOrder : Prop :=
  ∀ s t : State, step s = .next t →
    (∃ d, t.tx = s.tx ++ d) ∧ (∃ u, s.rx = u ++ t.rx) ∧ t.cfg = s.cfg ∧
    ((t.bootPin = s.bootPin ∧ t.pins = s.pins) ∨
      (t.cs = .boot ∧ t.bootPin = s.pins.headD s.bootPin ∧ t.pins = s.pins.tail))

/-- A terminal control state is final: the step changes nothing, or answers the fault (R35, R149). -/
def Obligations.TerminalStatesAreFinal : Prop :=
  ∀ s : State,
    (∀ a sp entry, s.cs = .handedOff a sp entry → step s = .next s) ∧ (s.cs = .initFailed → step s = .next s) ∧
    (∀ r, s.cs = .fault r → step s = .fault r)

/-- A step that changes `ROP` or `WRP` ends in the reset, or in a fault on the way to it: the command loop never goes on after a
protection change (R107, R117, R129). -/
def Obligations.ProtectionChangesEndInTheReset : Prop :=
  ∀ s t : State, step s = .next t → (t.rop = s.rop ∧ t.wrp = s.wrp) ∨ t.cs = .boot ∨ ∃ r, t.cs = .fault r

/-- No command but write-protect, write-unprotect, readout-protect, readout-unprotect, and write-memory at `OB_BASE`, changes `ROP`
or `WRP` (R129). -/
def Obligations.OtherCommandsKeepTheProtectionStatus : Prop :=
  ∀ (i : Instr) (s t : State), i ∉ [.wu, .rp, .ru] → (∀ ix x, i ≠ .wp ix x) → (∀ x ps y, i ≠ .wm 0x1FFFF800 x ps y) →
    exec i s = .next t → t.rop = s.rop ∧ t.wrp = s.wrp

/-- No command but write-memory, erase and readout-unprotect changes memory (R49, R123 to R133). -/
def Obligations.OtherCommandsKeepMemory : Prop :=
  ∀ (i : Instr) (s t : State), (∀ a x ps y, i ≠ .wm a x ps y) → (∀ l, i ≠ .er l) → i ≠ .ru → exec i s = .next t →
    t.mem = s.mem
end

