-- ==== Sys2Proof/Laws/Decode.lean ====
section
/-! SUPPORT. Laws of the encoding tables: opcodes, address bytes, frame bodies, lengths. -/

namespace Sys2Proof

@[simp] theorem Command.ofOpcode_opcode (c : Command) : Command.ofOpcode c.opcode = some c := by
  cases c <;> decide

theorem Command.opcode_of_ofOpcode {op : Byte} {c : Command} (h : Command.ofOpcode op = some c) : c.opcode = op := by
  have := List.find?_some h
  simpa using this

theorem Command.opcode_injective {c d : Command} (h : c.opcode = d.opcode) : c = d := by
  have := Command.ofOpcode_opcode d
  rw [← h, Command.ofOpcode_opcode] at this
  simpa using this

theorem Command.ofOpcode_eq_none {op : Byte} (h : ∀ c : Command, c.opcode ≠ op) : Command.ofOpcode op = none := by
  unfold Command.ofOpcode
  rw [List.find?_eq_none]
  intro c _
  simpa using h c

/-- The bytes of an address, put back in wire order, are the address (R63, R69). -/
@[simp] theorem wireWord_byteOf (w : Addr) : wireWord (byteOf 3 w) (byteOf 2 w) (byteOf 1 w) (byteOf 0 w) = w := by
  unfold wireWord placeAddrByte byteOf
  ext i hi
  simp
  interval_cases i <;> simp

theorem byteOf_wireWord (b0 b1 b2 b3 : Byte) :
    byteOf 3 (wireWord b0 b1 b2 b3) = b0 ∧ byteOf 2 (wireWord b0 b1 b2 b3) = b1 ∧
    byteOf 1 (wireWord b0 b1 b2 b3) = b2 ∧ byteOf 0 (wireWord b0 b1 b2 b3) = b3 := by
  refine ⟨?_, ?_, ?_, ?_⟩ <;>
  · unfold wireWord placeAddrByte byteOf
    ext i hi
    simp
    interval_cases i <;> simp

/-- Wire bytes put together and taken apart again (R63, R69). -/
@[simp] theorem wireBytes_wireWord (b0 b1 b2 b3 : Byte) : wireBytes (wireWord b0 b1 b2 b3) = [b0, b1, b2, b3] := by
  obtain ⟨h3, h2, h1, h0⟩ := byteOf_wireWord b0 b1 b2 b3
  simp [wireBytes, h3, h2, h1, h0]

/-- `number + 1` is the payload length again, for every length a frame can carry (R70). -/
theorem numberOf_toNat {payload : List Byte} (h1 : 1 ≤ payload.length) (h2 : payload.length ≤ 256) :
    (numberOf payload).toNat + 1 = payload.length := by
  simp only [numberOf, BitVec.toNat_ofNat]
  omega

/-- A frame body decodes to its payload, its checksum and the bytes after it (R65, R66). -/
theorem decodeBody_append {payload : List Byte} (h1 : 1 ≤ payload.length) (h2 : payload.length ≤ 256) (cks : Byte)
    (rest : List Byte) : decodeBody (numberOf payload) (payload ++ cks :: rest) = .ok (payload, cks, rest) := by
  have h := numberOf_toNat h1 h2
  simp [decodeBody, h]

/-- What a frame body that decodes is made of. -/
theorem decodeBody_ok {number cks : Byte} {bs payload rest : List Byte}
    (h : decodeBody number bs = .ok (payload, cks, rest)) :
    bs = payload ++ cks :: rest ∧ payload.length = number.toNat + 1 ∧ numberOf payload = number := by
  unfold decodeBody at h
  split at h
  · cases h
  · rename_i c r hd
    simp only [Except.ok.injEq, Prod.mk.injEq] at h
    obtain ⟨rfl, rfl, rfl⟩ := h
    have hl : (bs.take (number.toNat + 1)).length = number.toNat + 1 := by
      have := congrArg List.length hd
      simp only [List.length_drop, List.length_cons] at this
      simp only [List.length_take]
      omega
    refine ⟨?_, hl, ?_⟩
    · rw [← hd, List.take_append_drop]
    · simp [numberOf, hl]

@[simp] theorem addrFrame_length (a : Addr) (x : Byte) : (addrFrame a x).length = 5 := rfl

@[simp] theorem dataFrame_length (payload : List Byte) (x : Byte) : (dataFrame payload x).length = payload.length + 2 := by
  simp [dataFrame]

end Sys2Proof
end

