-- ==== Sys2Proof/Laws/State.lean ====
section
/-! SUPPORT. The fields of every state update, one equation a field, each by rfl: no later proof unfolds an update. -/

namespace Sys2Proof.Machine

/-- The fields after `clearRegisters`. -/
@[simp] theorem State.clearRegisters_fields (s : State) :
    (clearRegisters s).cs = s.cs ∧
    (clearRegisters s).cmd = none ∧
    (clearRegisters s).cmp = none ∧
    (clearRegisters s).addr = none ∧
    (clearRegisters s).acks = none ∧
    (clearRegisters s).num = none ∧
    (clearRegisters s).ncks = none ∧
    (clearRegisters s).buf = [] ∧
    (clearRegisters s).cks = none ∧
    (clearRegisters s).i = none ∧
    (clearRegisters s).rop = s.rop ∧
    (clearRegisters s).wrp = s.wrp ∧
    (clearRegisters s).swrf = s.swrf ∧
    (clearRegisters s).bootPin = s.bootPin ∧
    (clearRegisters s).obWritten = s.obWritten ∧
    (clearRegisters s).mem = s.mem ∧
    (clearRegisters s).tx = s.tx ∧
    (clearRegisters s).rx = s.rx ∧
    (clearRegisters s).pins = s.pins ∧
    (clearRegisters s).txErrorIn = s.txErrorIn ∧
    (clearRegisters s).draws = s.draws ∧
    (clearRegisters s).cfg = s.cfg := by
  refine ⟨?_, ?_, ?_, ?_, ?_, ?_, ?_, ?_, ?_, ?_, ?_, ?_, ?_, ?_, ?_, ?_, ?_, ?_, ?_, ?_, ?_, ?_⟩ <;> rfl

/-- The fields after `endCommand`. -/
@[simp] theorem endCommand_fields (s : State) :
    (endCommand s).cs = .cmdOp ∧
    (endCommand s).cmd = none ∧
    (endCommand s).cmp = none ∧
    (endCommand s).addr = none ∧
    (endCommand s).acks = none ∧
    (endCommand s).num = none ∧
    (endCommand s).ncks = none ∧
    (endCommand s).buf = [] ∧
    (endCommand s).cks = none ∧
    (endCommand s).i = none ∧
    (endCommand s).rop = s.rop ∧
    (endCommand s).wrp = s.wrp ∧
    (endCommand s).swrf = s.swrf ∧
    (endCommand s).bootPin = s.bootPin ∧
    (endCommand s).obWritten = s.obWritten ∧
    (endCommand s).mem = s.mem ∧
    (endCommand s).tx = s.tx ∧
    (endCommand s).rx = s.rx ∧
    (endCommand s).pins = s.pins ∧
    (endCommand s).txErrorIn = s.txErrorIn ∧
    (endCommand s).draws = s.draws ∧
    (endCommand s).cfg = s.cfg := by
  refine ⟨?_, ?_, ?_, ?_, ?_, ?_, ?_, ?_, ?_, ?_, ?_, ?_, ?_, ?_, ?_, ?_, ?_, ?_, ?_, ?_, ?_, ?_⟩ <;> rfl

/-- The fields after `sent`. -/
@[simp] theorem State.sent_fields (s : State) (bs : List Byte) :
    (s.sent bs).cs = s.cs ∧
    (s.sent bs).cmd = s.cmd ∧
    (s.sent bs).cmp = s.cmp ∧
    (s.sent bs).addr = s.addr ∧
    (s.sent bs).acks = s.acks ∧
    (s.sent bs).num = s.num ∧
    (s.sent bs).ncks = s.ncks ∧
    (s.sent bs).buf = s.buf ∧
    (s.sent bs).cks = s.cks ∧
    (s.sent bs).i = s.i ∧
    (s.sent bs).rop = s.rop ∧
    (s.sent bs).wrp = s.wrp ∧
    (s.sent bs).swrf = s.swrf ∧
    (s.sent bs).bootPin = s.bootPin ∧
    (s.sent bs).obWritten = s.obWritten ∧
    (s.sent bs).mem = s.mem ∧
    (s.sent bs).tx = s.tx ++ bs ∧
    (s.sent bs).rx = s.rx ∧
    (s.sent bs).pins = s.pins ∧
    (s.sent bs).txErrorIn = s.txErrorIn.map (fun k => k - bs.length) ∧
    (s.sent bs).draws = s.draws ∧
    (s.sent bs).cfg = s.cfg := by
  refine ⟨?_, ?_, ?_, ?_, ?_, ?_, ?_, ?_, ?_, ?_, ?_, ?_, ?_, ?_, ?_, ?_, ?_, ?_, ?_, ?_, ?_, ?_⟩ <;> rfl

/-- The fields after `issue`. -/
@[simp] theorem issue_fields (c : Command) (operands : List Byte) (s : State) :
    (issue c operands s).cs = .cmdCp ∧
    (issue c operands s).cmd = some c.opcode ∧
    (issue c operands s).cmp = some (complement c.opcode) ∧
    (issue c operands s).addr = s.addr ∧
    (issue c operands s).acks = s.acks ∧
    (issue c operands s).num = s.num ∧
    (issue c operands s).ncks = s.ncks ∧
    (issue c operands s).buf = s.buf ∧
    (issue c operands s).cks = s.cks ∧
    (issue c operands s).i = s.i ∧
    (issue c operands s).rop = s.rop ∧
    (issue c operands s).wrp = s.wrp ∧
    (issue c operands s).swrf = s.swrf ∧
    (issue c operands s).bootPin = s.bootPin ∧
    (issue c operands s).obWritten = s.obWritten ∧
    (issue c operands s).mem = s.mem ∧
    (issue c operands s).tx = s.tx ∧
    (issue c operands s).rx = operands.map RxEvent.byte ++ s.rx ∧
    (issue c operands s).pins = s.pins ∧
    (issue c operands s).txErrorIn = s.txErrorIn ∧
    (issue c operands s).draws = s.draws ∧
    (issue c operands s).cfg = s.cfg := by
  refine ⟨?_, ?_, ?_, ?_, ?_, ?_, ?_, ?_, ?_, ?_, ?_, ?_, ?_, ?_, ?_, ?_, ?_, ?_, ?_, ?_, ?_, ?_⟩ <;> rfl

/-- The fields after `receiveAddr`. -/
@[simp] theorem receiveAddr_fields (a : Addr) (x : Byte) (s : State) :
    (receiveAddr a x s).cs = .addrCks ∧
    (receiveAddr a x s).cmd = s.cmd ∧
    (receiveAddr a x s).cmp = s.cmp ∧
    (receiveAddr a x s).addr = some a ∧
    (receiveAddr a x s).acks = some x ∧
    (receiveAddr a x s).num = s.num ∧
    (receiveAddr a x s).ncks = s.ncks ∧
    (receiveAddr a x s).buf = s.buf ∧
    (receiveAddr a x s).cks = s.cks ∧
    (receiveAddr a x s).i = s.i ∧
    (receiveAddr a x s).rop = s.rop ∧
    (receiveAddr a x s).wrp = s.wrp ∧
    (receiveAddr a x s).swrf = s.swrf ∧
    (receiveAddr a x s).bootPin = s.bootPin ∧
    (receiveAddr a x s).obWritten = s.obWritten ∧
    (receiveAddr a x s).mem = s.mem ∧
    (receiveAddr a x s).tx = s.tx ∧
    (receiveAddr a x s).rx = s.rx.drop 5 ∧
    (receiveAddr a x s).pins = s.pins ∧
    (receiveAddr a x s).txErrorIn = s.txErrorIn ∧
    (receiveAddr a x s).draws = s.draws ∧
    (receiveAddr a x s).cfg = s.cfg := by
  refine ⟨?_, ?_, ?_, ?_, ?_, ?_, ?_, ?_, ?_, ?_, ?_, ?_, ?_, ?_, ?_, ?_, ?_, ?_, ?_, ?_, ?_, ?_⟩ <;> rfl

/-- The fields after `receiveCount`. -/
@[simp] theorem receiveCount_fields (n x : Byte) (s : State) :
    (receiveCount n x s).cs = .rmNcks ∧
    (receiveCount n x s).cmd = s.cmd ∧
    (receiveCount n x s).cmp = s.cmp ∧
    (receiveCount n x s).addr = s.addr ∧
    (receiveCount n x s).acks = s.acks ∧
    (receiveCount n x s).num = some n ∧
    (receiveCount n x s).ncks = some x ∧
    (receiveCount n x s).buf = s.buf ∧
    (receiveCount n x s).cks = s.cks ∧
    (receiveCount n x s).i = s.i ∧
    (receiveCount n x s).rop = s.rop ∧
    (receiveCount n x s).wrp = s.wrp ∧
    (receiveCount n x s).swrf = s.swrf ∧
    (receiveCount n x s).bootPin = s.bootPin ∧
    (receiveCount n x s).obWritten = s.obWritten ∧
    (receiveCount n x s).mem = s.mem ∧
    (receiveCount n x s).tx = s.tx ∧
    (receiveCount n x s).rx = s.rx.drop 2 ∧
    (receiveCount n x s).pins = s.pins ∧
    (receiveCount n x s).txErrorIn = s.txErrorIn ∧
    (receiveCount n x s).draws = s.draws ∧
    (receiveCount n x s).cfg = s.cfg := by
  refine ⟨?_, ?_, ?_, ?_, ?_, ?_, ?_, ?_, ?_, ?_, ?_, ?_, ?_, ?_, ?_, ?_, ?_, ?_, ?_, ?_, ?_, ?_⟩ <;> rfl

/-- The fields after `receiveNumber`. -/
@[simp] theorem receiveNumber_fields (n : Byte) (s : State) :
    (receiveNumber n s).cs = .fN ∧
    (receiveNumber n s).cmd = s.cmd ∧
    (receiveNumber n s).cmp = s.cmp ∧
    (receiveNumber n s).addr = s.addr ∧
    (receiveNumber n s).acks = s.acks ∧
    (receiveNumber n s).num = some n ∧
    (receiveNumber n s).ncks = s.ncks ∧
    (receiveNumber n s).buf = s.buf ∧
    (receiveNumber n s).cks = s.cks ∧
    (receiveNumber n s).i = s.i ∧
    (receiveNumber n s).rop = s.rop ∧
    (receiveNumber n s).wrp = s.wrp ∧
    (receiveNumber n s).swrf = s.swrf ∧
    (receiveNumber n s).bootPin = s.bootPin ∧
    (receiveNumber n s).obWritten = s.obWritten ∧
    (receiveNumber n s).mem = s.mem ∧
    (receiveNumber n s).tx = s.tx ∧
    (receiveNumber n s).rx = s.rx.drop 1 ∧
    (receiveNumber n s).pins = s.pins ∧
    (receiveNumber n s).txErrorIn = s.txErrorIn ∧
    (receiveNumber n s).draws = s.draws ∧
    (receiveNumber n s).cfg = s.cfg := by
  refine ⟨?_, ?_, ?_, ?_, ?_, ?_, ?_, ?_, ?_, ?_, ?_, ?_, ?_, ?_, ?_, ?_, ?_, ?_, ?_, ?_, ?_, ?_⟩ <;> rfl

/-- The fields after `receiveBody`. -/
@[simp] theorem receiveBody_fields (payload : List Byte) (x : Byte) (s : State) :
    (receiveBody payload x s).cs = .fCks ∧
    (receiveBody payload x s).cmd = s.cmd ∧
    (receiveBody payload x s).cmp = s.cmp ∧
    (receiveBody payload x s).addr = s.addr ∧
    (receiveBody payload x s).acks = s.acks ∧
    (receiveBody payload x s).num = s.num ∧
    (receiveBody payload x s).ncks = s.ncks ∧
    (receiveBody payload x s).buf = payload ++ [numberOf payload] ∧
    (receiveBody payload x s).cks = some x ∧
    (receiveBody payload x s).i = some payload.length ∧
    (receiveBody payload x s).rop = s.rop ∧
    (receiveBody payload x s).wrp = s.wrp ∧
    (receiveBody payload x s).swrf = s.swrf ∧
    (receiveBody payload x s).bootPin = s.bootPin ∧
    (receiveBody payload x s).obWritten = s.obWritten ∧
    (receiveBody payload x s).mem = s.mem ∧
    (receiveBody payload x s).tx = s.tx ∧
    (receiveBody payload x s).rx = s.rx.drop (payload.length + 1) ∧
    (receiveBody payload x s).pins = s.pins ∧
    (receiveBody payload x s).txErrorIn = s.txErrorIn ∧
    (receiveBody payload x s).draws = s.draws ∧
    (receiveBody payload x s).cfg = s.cfg := by
  refine ⟨?_, ?_, ?_, ?_, ?_, ?_, ?_, ?_, ?_, ?_, ?_, ?_, ?_, ?_, ?_, ?_, ?_, ?_, ?_, ?_, ?_, ?_⟩ <;> rfl

/-- The fields after `drawBytes`. -/
@[simp] theorem drawBytes_fields (lo n : Nat) (s : State) :
    (drawBytes lo n s).cs = s.cs ∧
    (drawBytes lo n s).cmd = s.cmd ∧
    (drawBytes lo n s).cmp = s.cmp ∧
    (drawBytes lo n s).addr = s.addr ∧
    (drawBytes lo n s).acks = s.acks ∧
    (drawBytes lo n s).num = s.num ∧
    (drawBytes lo n s).ncks = s.ncks ∧
    (drawBytes lo n s).buf = s.buf ∧
    (drawBytes lo n s).cks = s.cks ∧
    (drawBytes lo n s).i = s.i ∧
    (drawBytes lo n s).rop = s.rop ∧
    (drawBytes lo n s).wrp = s.wrp ∧
    (drawBytes lo n s).swrf = s.swrf ∧
    (drawBytes lo n s).bootPin = s.bootPin ∧
    (drawBytes lo n s).obWritten = s.obWritten ∧
    (drawBytes lo n s).mem = s.mem.writeBytes lo (freeBytes s.draws n) ∧
    (drawBytes lo n s).tx = s.tx ∧
    (drawBytes lo n s).rx = s.rx ∧
    (drawBytes lo n s).pins = s.pins ∧
    (drawBytes lo n s).txErrorIn = s.txErrorIn ∧
    (drawBytes lo n s).draws = s.draws + n ∧
    (drawBytes lo n s).cfg = s.cfg := by
  refine ⟨?_, ?_, ?_, ?_, ?_, ?_, ?_, ?_, ?_, ?_, ?_, ?_, ?_, ?_, ?_, ?_, ?_, ?_, ?_, ?_, ?_, ?_⟩ <;> rfl

/-- The fields after `removeWriteProtection`. -/
@[simp] theorem removeWriteProtection_fields (s : State) :
    (removeWriteProtection s).cs = s.cs ∧
    (removeWriteProtection s).cmd = s.cmd ∧
    (removeWriteProtection s).cmp = s.cmp ∧
    (removeWriteProtection s).addr = s.addr ∧
    (removeWriteProtection s).acks = s.acks ∧
    (removeWriteProtection s).num = s.num ∧
    (removeWriteProtection s).ncks = s.ncks ∧
    (removeWriteProtection s).buf = s.buf ∧
    (removeWriteProtection s).cks = s.cks ∧
    (removeWriteProtection s).i = s.i ∧
    (removeWriteProtection s).rop = s.rop ∧
    (removeWriteProtection s).wrp = 0 ∧
    (removeWriteProtection s).swrf = s.swrf ∧
    (removeWriteProtection s).bootPin = s.bootPin ∧
    (removeWriteProtection s).obWritten = s.obWritten ∧
    (removeWriteProtection s).mem = s.mem ∧
    (removeWriteProtection s).tx = s.tx ∧
    (removeWriteProtection s).rx = s.rx ∧
    (removeWriteProtection s).pins = s.pins ∧
    (removeWriteProtection s).txErrorIn = s.txErrorIn ∧
    (removeWriteProtection s).draws = s.draws ∧
    (removeWriteProtection s).cfg = s.cfg := by
  refine ⟨?_, ?_, ?_, ?_, ?_, ?_, ?_, ?_, ?_, ?_, ?_, ?_, ?_, ?_, ?_, ?_, ?_, ?_, ?_, ?_, ?_, ?_⟩ <;> rfl

/-- The fields after `enableReadoutProtection`. -/
@[simp] theorem enableReadoutProtection_fields (s : State) :
    (enableReadoutProtection s).cs = s.cs ∧
    (enableReadoutProtection s).cmd = s.cmd ∧
    (enableReadoutProtection s).cmp = s.cmp ∧
    (enableReadoutProtection s).addr = s.addr ∧
    (enableReadoutProtection s).acks = s.acks ∧
    (enableReadoutProtection s).num = s.num ∧
    (enableReadoutProtection s).ncks = s.ncks ∧
    (enableReadoutProtection s).buf = s.buf ∧
    (enableReadoutProtection s).cks = s.cks ∧
    (enableReadoutProtection s).i = s.i ∧
    (enableReadoutProtection s).rop = true ∧
    (enableReadoutProtection s).wrp = s.wrp ∧
    (enableReadoutProtection s).swrf = s.swrf ∧
    (enableReadoutProtection s).bootPin = s.bootPin ∧
    (enableReadoutProtection s).obWritten = s.obWritten ∧
    (enableReadoutProtection s).mem = s.mem ∧
    (enableReadoutProtection s).tx = s.tx ∧
    (enableReadoutProtection s).rx = s.rx ∧
    (enableReadoutProtection s).pins = s.pins ∧
    (enableReadoutProtection s).txErrorIn = s.txErrorIn ∧
    (enableReadoutProtection s).draws = s.draws ∧
    (enableReadoutProtection s).cfg = s.cfg := by
  refine ⟨?_, ?_, ?_, ?_, ?_, ?_, ?_, ?_, ?_, ?_, ?_, ?_, ?_, ?_, ?_, ?_, ?_, ?_, ?_, ?_, ?_, ?_⟩ <;> rfl

/-- The fields after `disableReadoutProtection`. -/
@[simp] theorem disableReadoutProtection_fields (s : State) :
    (disableReadoutProtection s).cs = s.cs ∧
    (disableReadoutProtection s).cmd = s.cmd ∧
    (disableReadoutProtection s).cmp = s.cmp ∧
    (disableReadoutProtection s).addr = s.addr ∧
    (disableReadoutProtection s).acks = s.acks ∧
    (disableReadoutProtection s).num = s.num ∧
    (disableReadoutProtection s).ncks = s.ncks ∧
    (disableReadoutProtection s).buf = s.buf ∧
    (disableReadoutProtection s).cks = s.cks ∧
    (disableReadoutProtection s).i = s.i ∧
    (disableReadoutProtection s).rop = false ∧
    (disableReadoutProtection s).wrp = s.wrp ∧
    (disableReadoutProtection s).swrf = s.swrf ∧
    (disableReadoutProtection s).bootPin = s.bootPin ∧
    (disableReadoutProtection s).obWritten = s.obWritten ∧
    (disableReadoutProtection s).mem = s.mem.fill Const.flashBase Const.flashSize s.cfg.erasedByte ∧
    (disableReadoutProtection s).tx = s.tx ∧
    (disableReadoutProtection s).rx = s.rx ∧
    (disableReadoutProtection s).pins = s.pins ∧
    (disableReadoutProtection s).txErrorIn = s.txErrorIn ∧
    (disableReadoutProtection s).draws = s.draws ∧
    (disableReadoutProtection s).cfg = s.cfg := by
  refine ⟨?_, ?_, ?_, ?_, ?_, ?_, ?_, ?_, ?_, ?_, ?_, ?_, ?_, ?_, ?_, ?_, ?_, ?_, ?_, ?_, ?_, ?_⟩ <;> rfl

/-- The fields after `clearRam`. -/
@[simp] theorem clearRam_fields (s : State) :
    (clearRam s).cs = s.cs ∧
    (clearRam s).cmd = s.cmd ∧
    (clearRam s).cmp = s.cmp ∧
    (clearRam s).addr = s.addr ∧
    (clearRam s).acks = s.acks ∧
    (clearRam s).num = s.num ∧
    (clearRam s).ncks = s.ncks ∧
    (clearRam s).buf = s.buf ∧
    (clearRam s).cks = s.cks ∧
    (clearRam s).i = s.i ∧
    (clearRam s).rop = s.rop ∧
    (clearRam s).wrp = s.wrp ∧
    (clearRam s).swrf = s.swrf ∧
    (clearRam s).bootPin = s.bootPin ∧
    (clearRam s).obWritten = s.obWritten ∧
    (clearRam s).mem = s.mem.forget Const.ramBase Const.ramSize ∧
    (clearRam s).tx = s.tx ∧
    (clearRam s).rx = s.rx ∧
    (clearRam s).pins = s.pins ∧
    (clearRam s).txErrorIn = s.txErrorIn ∧
    (clearRam s).draws = s.draws ∧
    (clearRam s).cfg = s.cfg := by
  refine ⟨?_, ?_, ?_, ?_, ?_, ?_, ?_, ?_, ?_, ?_, ?_, ?_, ?_, ?_, ?_, ?_, ?_, ?_, ?_, ?_, ?_, ?_⟩ <;> rfl

/-- The fields after `nextPin`. -/
@[simp] theorem nextPin_fields (s : State) :
    (nextPin s).cs = s.cs ∧
    (nextPin s).cmd = s.cmd ∧
    (nextPin s).cmp = s.cmp ∧
    (nextPin s).addr = s.addr ∧
    (nextPin s).acks = s.acks ∧
    (nextPin s).num = s.num ∧
    (nextPin s).ncks = s.ncks ∧
    (nextPin s).buf = s.buf ∧
    (nextPin s).cks = s.cks ∧
    (nextPin s).i = s.i ∧
    (nextPin s).rop = s.rop ∧
    (nextPin s).wrp = s.wrp ∧
    (nextPin s).swrf = s.swrf ∧
    (nextPin s).bootPin = s.pins.headD s.bootPin ∧
    (nextPin s).obWritten = s.obWritten ∧
    (nextPin s).mem = s.mem ∧
    (nextPin s).tx = s.tx ∧
    (nextPin s).rx = s.rx ∧
    (nextPin s).pins = s.pins.tail ∧
    (nextPin s).txErrorIn = s.txErrorIn ∧
    (nextPin s).draws = s.draws ∧
    (nextPin s).cfg = s.cfg := by
  refine ⟨?_, ?_, ?_, ?_, ?_, ?_, ?_, ?_, ?_, ?_, ?_, ?_, ?_, ?_, ?_, ?_, ?_, ?_, ?_, ?_, ?_, ?_⟩ <;> rfl

/-- The fields after `consume`. -/
@[simp] theorem consume_fields (i : Instr) (s : State) :
    (consume i s).cs = s.cs ∧
    (consume i s).cmd = s.cmd ∧
    (consume i s).cmp = s.cmp ∧
    (consume i s).addr = s.addr ∧
    (consume i s).acks = s.acks ∧
    (consume i s).num = s.num ∧
    (consume i s).ncks = s.ncks ∧
    (consume i s).buf = s.buf ∧
    (consume i s).cks = s.cks ∧
    (consume i s).i = s.i ∧
    (consume i s).rop = s.rop ∧
    (consume i s).wrp = s.wrp ∧
    (consume i s).swrf = s.swrf ∧
    (consume i s).bootPin = s.bootPin ∧
    (consume i s).obWritten = s.obWritten ∧
    (consume i s).mem = s.mem ∧
    (consume i s).tx = s.tx ∧
    (consume i s).rx = s.rx.drop (wireLength i) ∧
    (consume i s).pins = s.pins ∧
    (consume i s).txErrorIn = s.txErrorIn ∧
    (consume i s).draws = s.draws ∧
    (consume i s).cfg = s.cfg := by
  refine ⟨?_, ?_, ?_, ?_, ?_, ?_, ?_, ?_, ?_, ?_, ?_, ?_, ?_, ?_, ?_, ?_, ?_, ?_, ?_, ?_, ?_, ?_⟩ <;> rfl

end Sys2Proof.Machine
end

