-- ==== Sys2Proof/Laws/Flow.lean ====
section
/-! SUPPORT. Laws of the control and transmit operations: what each does, said once. -/

namespace Sys2Proof.Machine

@[simp] theorem Flow.andThen_go (s : State) (k : State → Flow) : (Flow.go s).andThen k = k s := rfl
@[simp] theorem Flow.andThen_stop (s : State) (k : State → Flow) : (Flow.stop s).andThen k = .stop s := rfl
@[simp] theorem Flow.state_go (s : State) : (Flow.go s).state = s := rfl
@[simp] theorem Flow.state_stop (s : State) : (Flow.stop s).state = s := rfl

theorem Flow.andThen_assoc (f : Flow) (k l : State → Flow) :
    (f.andThen k).andThen l = f.andThen fun s => (k s).andThen l := by
  cases f <;> rfl

@[simp] theorem reading_some {α : Type} (r : Register) (x : α) (s : State) (k : α → Flow) :
    reading r (some x) s k = k x := rfl
@[simp] theorem reading_none {α : Type} (r : Register) (s : State) (k : α → Flow) :
    reading r none s k = raise (.unwrittenRegister r) s := rfl
@[simp] theorem waitAt_eq (p : ControlState) (s : State) : waitAt p s = .go { s with cs := p } := rfl
@[simp] theorem raise_eq (r : Fault) (s : State) : raise r s = .stop { s with cs := .fault r } := rfl
@[simp] theorem finish_eq (s : State) : finish s = .stop (endCommand s) := rfl
@[simp] theorem fcReset_eq (s : State) : fcReset s = .stop (softwareReset s) := rfl

/-! ## Sending -/

theorem State.canSend_iff (s : State) (n : Nat) : s.canSend n = true ↔ ∀ k, s.txErrorIn = some k → n ≤ k := by
  unfold State.canSend
  cases s.txErrorIn <;> simp

theorem State.canSend_mono {s : State} {m n : Nat} (h : s.canSend n = true) (hmn : m ≤ n) : s.canSend m = true := by
  rw [State.canSend_iff] at *
  exact fun k hk => Nat.le_trans hmn (h k hk)

theorem State.canSend_zero (s : State) : s.canSend 0 = true := by simp [State.canSend_iff]

/-- Sends already made count towards the budget. -/
theorem State.canSend_sent {s : State} {bs : List Byte} {n : Nat} (h : s.canSend (bs.length + n) = true) :
    (s.sent bs).canSend n = true := by
  rw [State.canSend_iff] at *
  intro k hk
  simp only [State.sent_fields, Option.map_eq_some_iff] at hk
  obtain ⟨j, hj, rfl⟩ := hk
  have := h j hj
  omega

@[simp] theorem State.sent_nil (s : State) : s.sent [] = s := by
  cases s
  simp [State.sent]

@[simp] theorem State.sent_sent (s : State) (a b : List Byte) : (s.sent a).sent b = s.sent (a ++ b) := by
  cases s
  simp only [State.sent, List.append_assoc, Option.map_map, List.length_append, State.mk.injEq, true_and, and_true]
  congr 1
  funext k
  simp [Nat.sub_sub]

/-- A send on a healthy channel appends its byte (R86). -/
theorem send_eq {s : State} (h : s.canSend 1 = true) (b : Byte) : send b s = .go (s.sent [b]) := by
  rw [State.canSend_iff] at h
  unfold send State.sent
  split
  · rename_i h0; simp [h0]
  · rename_i h0; have := h 0 h0; omega
  · rename_i n hn; simp [hn]

/-- A send under `TxError` faults and appends nothing (R86). -/
theorem send_txError {s : State} (h : s.txErrorIn = some 0) (b : Byte) :
    send b s = .stop { s with cs := .fault .txIoError } := by
  simp [send, h]

@[simp] theorem sendAll_nil (s : State) : sendAll [] s = .go s := rfl
@[simp] theorem sendAll_cons (b : Byte) (bs : List Byte) (s : State) :
    sendAll (b :: bs) s = (send b s).andThen (sendAll bs) := rfl

/-- Sends on a healthy channel append their bytes in order. -/
theorem sendAll_eq {s : State} {bs : List Byte} (h : s.canSend bs.length = true) : sendAll bs s = .go (s.sent bs) := by
  induction bs generalizing s with
  | nil => simp
  | cons b bs ih =>
    have h1 : s.canSend 1 = true := State.canSend_mono h (by simp)
    have h2 : (s.sent [b]).canSend bs.length = true := by
      apply State.canSend_sent
      simpa [Nat.add_comm] using h
    rw [sendAll_cons, send_eq h1, Flow.andThen_go, ih h2, State.sent_sent]
    rfl

theorem ack_eq {s : State} (h : s.canSend 1 = true) : ack s = .go (s.sent [0x79]) := send_eq h _
theorem nack_eq {s : State} (h : s.canSend 1 = true) : nack s = .go (s.sent [0x1F]) := send_eq h _

theorem errorReply_length (cfg : Config) (e : ProtocolError) : (errorReply cfg e).length ≤ 2 := by
  cases e <;> simp only [errorReply] <;> (try split) <;> simp

/-- Error entry on a healthy channel: the reply, then the end of the session or of the command (R134, R140). -/
theorem takeError_eq {s : State} {e : ProtocolError} (h : s.canSend (errorReply s.cfg e).length = true) :
    takeError e s =
      .stop (if endsSession s e then endSession e (s.sent (errorReply s.cfg e))
        else endCommand (s.sent (errorReply s.cfg e))) := by
  rw [takeError, sendAll_eq h, Flow.andThen_go]

/-- A failed handshake changes nothing but the control state (R110). -/
@[simp] theorem endSession_initFailed (s : State) : endSession .initFailed s = { s with cs := .initFailed } := rfl

/-- A timeout that ends the session clears the registers as every error but E8 does (R140). -/
@[simp] theorem endSession_timeout (s : State) : endSession .timeout s = { endCommand s with cs := .initFailed } := rfl

/-- The errors of a handler answer one NACK and end the command (R134). -/
theorem takeError_nack {s : State} {e : ProtocolError} (hr : errorReply s.cfg e = [0x1F]) (he : endsSession s e = false)
    (h : s.canSend 1 = true) : takeError e s = .stop (endCommand (s.sent [0x1F])) := by
  rw [takeError_eq (by rw [hr]; exact h), he, hr]
  rfl

theorem acceptHeader_open {s : State} {c : Command} (h : s.guardOpen c = true) (k : State → Flow) :
    acceptHeader c k s = k s := by
  simp only [State.guardOpen, Bool.not_eq_true'] at h
  simp [acceptHeader, h]

end Sys2Proof.Machine
end

