-- ==== Sys2Proof/Laws/PerInstr.lean ====
section
/-! SUPPORT. What holds of every instruction as syntax, one lemma per constructor. -/

namespace Sys2Proof.Laws.EncodedLength

/-- The encoding has the length that R77 gives the instruction. -/
def Statement (i : Instr) : Prop := (encode i).length = wireLength i

theorem init : Statement .init := rfl
theorem get : Statement .get := rfl
theorem gv : Statement .gv := rfl
theorem gid : Statement .gid := rfl
theorem rm (addr : Addr) (acks count ncks : Byte) : Statement (.rm addr acks count ncks) := rfl
theorem go (addr : Addr) (acks : Byte) : Statement (.go addr acks) := rfl
theorem wm (addr : Addr) (acks : Byte) (payload : List Byte) (cks : Byte) : Statement (.wm addr acks payload cks) := by
  simp [Statement, encode, Instr.command, headerBytes, operandBytes, wireLength]
  omega
theorem er (list : Option (List Byte × Byte)) : Statement (.er list) := by
  cases list with
  | none => rfl
  | some l => simp [Statement, encode, Instr.command, headerBytes, operandBytes, wireLength]; omega
theorem ee : Statement .ee := rfl
theorem wp (indices : List Byte) (cks : Byte) : Statement (.wp indices cks) := by
  simp [Statement, encode, Instr.command, headerBytes, operandBytes, wireLength]
  omega
theorem wu : Statement .wu := rfl
theorem rp : Statement .rp := rfl
theorem ru : Statement .ru := rfl

end Sys2Proof.Laws.EncodedLength

/-- The encoding of every instruction has the length of R77. -/
theorem Sys2Proof.encode_length (i : Sys2Proof.Instr) : (Sys2Proof.encode i).length = Sys2Proof.wireLength i := by
  cases i with
  | init => exact Sys2Proof.Laws.EncodedLength.init
  | get => exact Sys2Proof.Laws.EncodedLength.get
  | gv => exact Sys2Proof.Laws.EncodedLength.gv
  | gid => exact Sys2Proof.Laws.EncodedLength.gid
  | rm a x n y => exact Sys2Proof.Laws.EncodedLength.rm a x n y
  | go a x => exact Sys2Proof.Laws.EncodedLength.go a x
  | wm a x p y => exact Sys2Proof.Laws.EncodedLength.wm a x p y
  | er l => exact Sys2Proof.Laws.EncodedLength.er l
  | ee => exact Sys2Proof.Laws.EncodedLength.ee
  | wp ix y => exact Sys2Proof.Laws.EncodedLength.wp ix y
  | wu => exact Sys2Proof.Laws.EncodedLength.wu
  | rp => exact Sys2Proof.Laws.EncodedLength.rp
  | ru => exact Sys2Proof.Laws.EncodedLength.ru
end

