-- ==== Sys2Proof/Laws/Fetch.lean ====
section
/-! SUPPORT. Laws of the event script and of delivery. -/

namespace Sys2Proof.Machine

@[simp] theorem leadingBytes_append (bs : List Byte) (rest : List RxEvent) :
    leadingBytes (bs.map RxEvent.byte ++ rest) = bs ++ leadingBytes rest := by
  induction bs with
  | nil => rfl
  | cons b bs ih => simp [leadingBytes, ih]

/-- The script begins with its leading bytes. -/
theorem rx_eq_leadingBytes (rx : List RxEvent) :
    rx = (leadingBytes rx).map RxEvent.byte ++ rx.drop (leadingBytes rx).length := by
  induction rx with
  | nil => rfl
  | cons ev rx ih =>
    cases ev with
    | byte b => simpa [leadingBytes] using ih
    | timeout => rfl

theorem deliver_nil {s : State} (h : s.rx = []) : deliver s = s := by
  simp [deliver, h]

theorem deliver_cons {s : State} {ev : RxEvent} {rest : List RxEvent} (h : s.rx = ev :: rest) :
    deliver s = (receive ev { s with rx := rest }).state := by
  simp [deliver, h]

@[simp] theorem deliverMany_zero (s : State) : deliverMany 0 s = s := rfl
@[simp] theorem deliverMany_succ (n : Nat) (s : State) : deliverMany (n + 1) s = deliverMany n (deliver s) := rfl

theorem deliverMany_add (m n : Nat) (s : State) : deliverMany (m + n) s = deliverMany n (deliverMany m s) := by
  induction m generalizing s with
  | zero => simp
  | succ m ih => rw [Nat.succ_add, deliverMany_succ, ih, deliverMany_succ]

end Sys2Proof.Machine
end

