-- ==== Sys2Proof/Laws/Memory.lean ====
section
/-! SUPPORT. Laws of the memory operations: what a byte reads as after each, and that each keeps the canonical form and the
address map. -/

namespace Sys2Proof.Machine

@[simp] theorem Memory.read_nil (a : Nat) : Memory.read [] a = Memory.background a := rfl

@[simp] theorem Memory.read_cons (k : Nat) (v : Byte) (m : Memory) (a : Nat) :
    Memory.read ((k, v) :: m) a = if a = k then v else Memory.read m a := rfl

@[simp] theorem Memory.wf_nil : Memory.wf [] = true := rfl

theorem Memory.wf_cons (a : Nat) (v : Byte) (m : Memory) :
    Memory.wf ((a, v) :: m) = true ↔ v ≠ Memory.background a ∧ (∀ c ∈ m, a < c.1) ∧ m.wf = true := by
  simp [Memory.wf, and_assoc]

theorem Memory.read_unlisted (m : Memory) (a : Nat) (h : ∀ c ∈ m, c.1 ≠ a) : m.read a = Memory.background a := by
  induction m with
  | nil => rfl
  | cons c m ih =>
    obtain ⟨k, v⟩ := c
    have hk : a ≠ k := fun e => h (k, v) (by simp) e.symm
    simp [hk, ih fun c hc => h c (by simp [hc])]

theorem Memory.read_cell_append (a : Nat) (v : Byte) (m : Memory) (h : ∀ c ∈ m, a < c.1) (b : Nat) :
    Memory.read (Memory.cell a v ++ m) b = if b = a then v else m.read b := by
  unfold Memory.cell
  split
  · rename_i hv
    by_cases hb : b = a
    · subst hb
      have := Memory.read_unlisted m b fun c hc => by have := h c hc; omega
      simp [this, hv]
    · simp [hb]
  · simp

theorem Memory.lt_of_mem_write {m : Memory} {a : Nat} {v : Byte} {k : Nat} (hk : k < a) (h : ∀ c ∈ m, k < c.1) :
    ∀ c ∈ m.write a v, k < c.1 := by
  induction m with
  | nil => intro c hc; simp only [Memory.write, Memory.cell] at hc; split at hc <;> simp_all
  | cons d m ih =>
    obtain ⟨j, x⟩ := d
    have hj : k < j := h (j, x) (by simp)
    have ht : ∀ c ∈ m, k < c.1 := fun c hc => h c (by simp [hc])
    intro c hc
    simp only [Memory.write, Memory.cell] at hc
    split at hc
    · simp only [List.mem_append, List.mem_cons] at hc
      obtain hc | rfl | hc := hc
      · split at hc <;> simp_all
      · exact hj
      · exact ht c hc
    · split at hc
      · simp only [List.mem_append] at hc
        obtain hc | hc := hc
        · split at hc <;> simp_all
        · exact ht c hc
      · simp only [List.mem_cons] at hc
        obtain rfl | hc := hc
        · exact hj
        · exact ih ht c hc

/-- A written byte reads back, every other byte as before. -/
theorem Memory.read_write {m : Memory} (hm : m.wf = true) (a : Nat) (v : Byte) (b : Nat) :
    (m.write a v).read b = if b = a then v else m.read b := by
  induction m with
  | nil => simpa [Memory.write] using Memory.read_cell_append a v [] (by simp) b
  | cons d m ih =>
    obtain ⟨k, x⟩ := d
    obtain ⟨-, hlt, hwf⟩ := (Memory.wf_cons k x m).1 hm
    simp only [Memory.write]
    split
    · rename_i hak
      have hall : ∀ c ∈ (k, x) :: m, a < c.1 := by
        intro c hc
        simp only [List.mem_cons] at hc
        obtain rfl | hc := hc
        · exact hak
        · have := hlt c hc; omega
      simpa using Memory.read_cell_append a v ((k, x) :: m) hall b
    · split
      · rename_i hak
        subst hak
        rw [Memory.read_cell_append a v m hlt b]
        by_cases hb : b = a <;> simp [hb]
      · rename_i hak
        simp only [Memory.read_cons, ih hwf]
        by_cases hb : b = k
        · subst hb
          have : b ≠ a := fun e => hak e.symm
          simp [this]
        · simp [hb]

theorem Memory.wf_cell_append (a : Nat) (v : Byte) {m : Memory} (h : ∀ c ∈ m, a < c.1) (hm : m.wf = true) :
    Memory.wf (Memory.cell a v ++ m) = true := by
  unfold Memory.cell
  split
  · simpa using hm
  · rename_i hv
    simpa using (Memory.wf_cons a v m).2 ⟨hv, h, hm⟩

/-- A write keeps the canonical form. -/
theorem Memory.wf_write {m : Memory} (hm : m.wf = true) (a : Nat) (v : Byte) : (m.write a v).wf = true := by
  induction m with
  | nil => simpa [Memory.write] using Memory.wf_cell_append a v (m := []) (by simp) rfl
  | cons d m ih =>
    obtain ⟨k, x⟩ := d
    obtain ⟨hx, hlt, hwf⟩ := (Memory.wf_cons k x m).1 hm
    simp only [Memory.write]
    split
    · rename_i hak
      refine Memory.wf_cell_append a v ?_ hm
      intro c hc
      simp only [List.mem_cons] at hc
      obtain rfl | hc := hc
      · exact hak
      · have := hlt c hc; omega
    · split
      · rename_i hak
        subst hak
        exact Memory.wf_cell_append a v hlt hwf
      · refine (Memory.wf_cons k x _).2 ⟨hx, ?_, ih hwf⟩
        exact Memory.lt_of_mem_write (by omega) hlt

theorem Memory.wf_writeBytes {m : Memory} (hm : m.wf = true) (a : Nat) (bs : List Byte) :
    (m.writeBytes a bs).wf = true := by
  induction bs generalizing m a with
  | nil => exact hm
  | cons b bs ih => exact ih (Memory.wf_write hm a b) (a + 1)

/-- The bytes written read back in order, every other byte as before. -/
theorem Memory.read_writeBytes {m : Memory} (hm : m.wf = true) (a : Nat) (bs : List Byte) (x : Nat) :
    (m.writeBytes a bs).read x = if a ≤ x ∧ x < a + bs.length then bs.getD (x - a) 0 else m.read x := by
  induction bs generalizing m a with
  | nil => simp only [Memory.writeBytes, List.length_nil]; rw [if_neg (by omega)]
  | cons b bs ih =>
    simp only [Memory.writeBytes, ih (Memory.wf_write hm a b), Memory.read_write hm, List.length_cons]
    by_cases h1 : x = a
    · subst h1; simp
    · by_cases h2 : a + 1 ≤ x ∧ x < a + 1 + bs.length
      · obtain ⟨j, rfl⟩ : ∃ j, x = a + 1 + j := ⟨x - (a + 1), by omega⟩
        rw [if_pos h2, if_pos (by omega), show a + 1 + j - (a + 1) = j by omega, show a + 1 + j - a = j + 1 by omega,
          List.getD_cons_succ]
      · rw [if_neg h2, if_neg h1, if_neg (by omega)]

/-- Forgetting a range gives its bytes their background, every other byte as before. -/
theorem Memory.read_forget (m : Memory) (lo n x : Nat) :
    (m.forget lo n).read x = if lo ≤ x ∧ x < lo + n then Memory.background x else m.read x := by
  unfold Memory.forget
  induction m with
  | nil => simp
  | cons c m ih =>
    obtain ⟨k, v⟩ := c
    rw [List.filter_cons]
    split
    · rename_i hk
      simp only [Bool.or_eq_true, decide_eq_true_eq] at hk
      simp only [Memory.read_cons, ih]
      by_cases hx : x = k
      · subst hx; rw [if_pos rfl, if_neg (by omega), if_pos rfl]
      · simp [hx]
    · rename_i hk
      simp only [Bool.or_eq_true, decide_eq_true_eq, not_or, not_lt, not_le] at hk
      rw [ih]
      by_cases hx : x = k
      · subst hx; rw [if_pos (by omega), if_pos (by omega)]
      · simp [hx]

theorem Memory.wf_filter {m : Memory} (hm : m.wf = true) (p : Host.Cell → Bool) : Memory.wf (m.filter p) = true := by
  induction m with
  | nil => rfl
  | cons c m ih =>
    obtain ⟨k, v⟩ := c
    obtain ⟨hv, hlt, hwf⟩ := (Memory.wf_cons k v m).1 hm
    rw [List.filter_cons]
    split
    · exact (Memory.wf_cons k v _).2 ⟨hv, fun c hc => hlt c (List.mem_of_mem_filter hc), ih hwf⟩
    · exact ih hwf

theorem Memory.wf_forget {m : Memory} (hm : m.wf = true) (lo n : Nat) : (m.forget lo n).wf = true :=
  Memory.wf_filter hm _

theorem Memory.mem_write {m : Memory} {a : Nat} {v : Byte} {c : Host.Cell} (h : c ∈ m.write a v) : c.1 = a ∨ c ∈ m := by
  induction m with
  | nil => simp only [Memory.write, Memory.cell] at h; split at h <;> simp_all
  | cons d m ih =>
    obtain ⟨k, x⟩ := d
    simp only [Memory.write, Memory.cell] at h
    split at h
    · simp only [List.mem_append] at h
      obtain h | h := h
      · split at h <;> simp_all
      · exact .inr h
    · split at h
      · simp only [List.mem_append] at h
        obtain h | h := h
        · split at h <;> simp_all
        · exact .inr (by simp [h])
      · simp only [List.mem_cons] at h
        obtain rfl | h := h
        · exact .inr (by simp)
        · obtain h | h := ih h
          · exact .inl h
          · exact .inr (by simp [h])

theorem Memory.inMap_write {cfg : Config} {m : Memory} (hm : m.inMap cfg = true) {a : Nat} (ha : hasStorage cfg a = true)
    (v : Byte) : (m.write a v).inMap cfg = true := by
  simp only [Memory.inMap, List.all_eq_true] at hm ⊢
  intro c hc
  obtain h | h := Memory.mem_write hc
  · rw [h]; exact ha
  · exact hm c h

theorem Memory.inMap_writeBytes {cfg : Config} {m : Memory} (hm : m.inMap cfg = true) (a : Nat) (bs : List Byte)
    (ha : ∀ j, j < bs.length → hasStorage cfg (a + j) = true) : (m.writeBytes a bs).inMap cfg = true := by
  induction bs generalizing m a with
  | nil => exact hm
  | cons b bs ih =>
    refine ih (Memory.inMap_write hm (by simpa using ha 0 (by simp)) b) (a + 1) fun j hj => ?_
    have := ha (j + 1) (by simpa using hj)
    rwa [show a + 1 + j = a + (j + 1) by omega]

theorem Memory.inMap_forget {cfg : Config} {m : Memory} (hm : m.inMap cfg = true) (lo n : Nat) :
    (m.forget lo n).inMap cfg = true := by
  simp only [Memory.inMap, Memory.forget, List.all_eq_true] at hm ⊢
  exact fun c hc => hm c (List.mem_of_mem_filter hc)

/-! ## Filling a range -/

/-- The first of two lists that names the byte gives its value. -/
theorem Memory.read_append_left {m : Memory} {x : Nat} (h : ∃ c ∈ m, c.1 = x) (m' : Memory) :
    Memory.read (m ++ m') x = m.read x := by
  induction m with
  | nil => simp at h
  | cons c m ih =>
    obtain ⟨k, v⟩ := c
    by_cases hx : x = k
    · simp [hx]
    · have : ∃ c ∈ m, c.1 = x := by
        obtain ⟨c, hc, rfl⟩ := h
        simp only [List.mem_cons] at hc
        obtain rfl | hc := hc
        · exact absurd rfl hx
        · exact ⟨c, hc, rfl⟩
      simp [hx, ih this]

theorem Memory.read_append_right {m : Memory} {x : Nat} (h : ∀ c ∈ m, c.1 ≠ x) (m' : Memory) :
    Memory.read (m ++ m') x = Memory.read m' x := by
  induction m with
  | nil => rfl
  | cons c m ih =>
    obtain ⟨k, v⟩ := c
    have hk : x ≠ k := fun e => h (k, v) (by simp) e.symm
    simp [hk, ih fun c hc => h c (by simp [hc])]

/-- Leaving out other bytes does not change what a byte reads as. -/
theorem Memory.read_filter {m : Memory} {p : Host.Cell → Bool} {x : Nat} (h : ∀ c ∈ m, c.1 = x → p c = true) :
    Memory.read (m.filter p) x = m.read x := by
  induction m with
  | nil => rfl
  | cons c m ih =>
    obtain ⟨k, v⟩ := c
    have ih := ih fun c hc => h c (by simp [hc])
    rw [List.filter_cons]
    split
    · simp [ih]
    · rename_i hp
      have hk : x ≠ k := fun e => hp (h (k, v) (by simp) e.symm)
      simp [hk, ih]

theorem Memory.read_run {lo n x : Nat} {v : Byte} (h1 : lo ≤ x) (h2 : x < lo + n) :
    Memory.read ((List.range n).map fun j => (lo + j, v)) x = v := by
  have : ∀ l : List Nat, x - lo ∈ l → Memory.read (l.map fun j => (lo + j, v)) x = v := by
    intro l
    induction l with
    | nil => simp
    | cons j l ih =>
      intro hj
      simp only [List.map_cons, Memory.read_cons]
      split
      · rfl
      · rename_i hne
        simp only [List.mem_cons] at hj
        obtain hj | hj := hj
        · omega
        · exact ih hj
  exact this _ (List.mem_range.2 (by omega))

/-- A filled range reads as the value, every other byte as before. -/
theorem Memory.read_fill {lo n : Nat} (hb : ∀ x, lo ≤ x → x < lo + n → Memory.background x = Memory.background lo)
    (m : Memory) (v : Byte) (x : Nat) : (m.fill lo n v).read x = if lo ≤ x ∧ x < lo + n then v else m.read x := by
  unfold Memory.fill
  split
  · rename_i hv
    rw [Memory.read_forget]
    split
    · rename_i hx; rw [hv, hb x hx.1 hx.2]
    · rfl
  · rw [List.append_assoc]
    by_cases hx : lo ≤ x ∧ x < lo + n
    · rw [if_pos hx, Memory.read_append_right, Memory.read_append_left, Memory.read_run hx.1 hx.2]
      · exact ⟨(x, v), List.mem_map.2 ⟨x - lo, List.mem_range.2 (by omega), by simp; omega⟩, rfl⟩
      · intro c hc
        have := (List.mem_filter.1 hc).2
        simp only [decide_eq_true_eq] at this
        omega
    · rw [if_neg hx]
      by_cases hlt : x < lo
      · by_cases hm : ∃ c ∈ m.filter fun c => decide (c.1 < lo), c.1 = x
        · rw [Memory.read_append_left hm, Memory.read_filter fun c _ e => by simp; omega]
        · have hm : ∀ c ∈ m, c.1 ≠ x := fun c hc e => hm ⟨c, List.mem_filter.2 ⟨hc, by simp; omega⟩, e⟩
          rw [Memory.read_unlisted m x hm, Memory.read_unlisted]
          intro c hc
          simp only [List.mem_append, List.mem_filter, List.mem_map, List.mem_range] at hc
          obtain hc | ⟨j, hj, rfl⟩ | hc := hc
          · exact hm c hc.1
          · simp only; omega
          · exact hm c hc.1
      · rw [Memory.read_append_right, Memory.read_append_right, Memory.read_filter fun c _ e => by simp; omega]
        · intro c hc
          obtain ⟨j, hj, rfl⟩ := List.mem_map.1 hc
          have := List.mem_range.1 hj
          simp only; omega
        · intro c hc
          have := (List.mem_filter.1 hc).2
          simp only [decide_eq_true_eq] at this
          omega

theorem Memory.wf_append {m m' : Memory} (hm : m.wf = true) (hm' : m'.wf = true) (h : ∀ c ∈ m, ∀ c' ∈ m', c.1 < c'.1) :
    Memory.wf (m ++ m') = true := by
  induction m with
  | nil => exact hm'
  | cons c m ih =>
    obtain ⟨k, v⟩ := c
    obtain ⟨hv, hlt, hwf⟩ := (Memory.wf_cons k v m).1 hm
    refine (Memory.wf_cons k v _).2 ⟨hv, ?_, ih hwf fun c hc => h c (by simp [hc])⟩
    intro c hc
    obtain hc | hc := List.mem_append.1 hc
    · exact hlt c hc
    · exact h (k, v) (by simp) c hc

theorem Memory.wf_run {lo n : Nat} {v : Byte} (h : ∀ x, lo ≤ x → x < lo + n → v ≠ Memory.background x) :
    Memory.wf ((List.range n).map fun j => (lo + j, v)) = true := by
  induction n with
  | zero => rfl
  | succ n ih =>
    rw [List.range_succ, List.map_append]
    refine Memory.wf_append (ih fun x h1 h2 => h x h1 (by omega)) ?_ ?_
    · exact (Memory.wf_cons _ _ _).2 ⟨h _ (by omega) (by omega), by simp, rfl⟩
    · intro c hc c' hc'
      obtain ⟨j, hj, rfl⟩ := List.mem_map.1 hc
      have := List.mem_range.1 hj
      simp only [List.map_cons, List.map_nil, List.mem_singleton] at hc'
      subst hc'
      simp only; omega

/-- Filling keeps the canonical form. -/
theorem Memory.wf_fill {lo n : Nat} (hb : ∀ x, lo ≤ x → x < lo + n → Memory.background x = Memory.background lo)
    {m : Memory} (hm : m.wf = true) (v : Byte) : (m.fill lo n v).wf = true := by
  unfold Memory.fill
  split
  · exact Memory.wf_forget hm lo n
  · rename_i hv
    refine Memory.wf_append (Memory.wf_append (Memory.wf_filter hm _)
      (Memory.wf_run fun x h1 h2 => by rw [hb x h1 h2]; exact hv) ?_) (Memory.wf_filter hm _) ?_
    · intro c hc c' hc'
      have := (List.mem_filter.1 hc).2
      obtain ⟨j, hj, rfl⟩ := List.mem_map.1 hc'
      simp only [decide_eq_true_eq] at this
      simp only; omega
    · intro c hc c' hc'
      have h' := (List.mem_filter.1 hc').2
      simp only [decide_eq_true_eq] at h'
      obtain hc | hc := List.mem_append.1 hc
      · have := (List.mem_filter.1 hc).2
        simp only [decide_eq_true_eq] at this
        omega
      · obtain ⟨j, hj, rfl⟩ := List.mem_map.1 hc
        have := List.mem_range.1 hj
        simp only; omega

theorem Memory.inMap_fill {cfg : Config} {m : Memory} (hm : m.inMap cfg = true) {lo n : Nat}
    (h : ∀ x, lo ≤ x → x < lo + n → hasStorage cfg x = true) (v : Byte) : (m.fill lo n v).inMap cfg = true := by
  unfold Memory.fill
  split
  · exact Memory.inMap_forget hm lo n
  · simp only [Memory.inMap, List.all_eq_true] at hm ⊢
    intro c hc
    simp only [List.mem_append, List.mem_filter, List.mem_map, List.mem_range] at hc
    obtain (hc | ⟨j, hj, rfl⟩) | hc := hc
    · exact hm c hc.1
    · exact h _ (by omega) (by simp only; omega)
    · exact hm c hc.1

/-- Outside the `Ram` window an unlisted byte is what the model launches with. -/
theorem Memory.background_of_not_inRam {a : Nat} (h : inRam a = false) : Memory.background a = Const.launchByte := by
  simp [Memory.background, h]

/-- In the `Ram` window an unlisted byte is what "clear RAM" writes. -/
theorem Memory.background_of_inRam {a : Nat} (h : inRam a = true) : Memory.background a = Const.clearedByte := by
  simp [Memory.background, h]

theorem inFlash_iff (a : Nat) : inFlash a = true ↔ 0x08006000 ≤ a ∧ a ≤ 0x0801FFFF := by
  simp [inFlash, Const.flashBase, Const.flashTop]

theorem inRam_iff (a : Nat) : inRam a = true ↔ 0x20000200 ≤ a ∧ a ≤ 0x20005000 := by
  simp [inRam, Const.ramBase, Const.ramTop]

/-- The two windows do not meet. -/
theorem inRam_of_inFlash {a : Nat} (h : inFlash a = true) : inRam a = false := by
  rw [Bool.eq_false_iff]
  intro h'
  have := (inFlash_iff a).1 h
  have := (inRam_iff a).1 h'
  omega

/-- Inside class `Flash` the background is one value, so every page can be filled. -/
theorem Memory.background_of_inFlash {lo n : Nat} (h1 : 0x08006000 ≤ lo) (h2 : lo + n ≤ 0x08020000) :
    ∀ x, lo ≤ x → x < lo + n → Memory.background x = Memory.background lo := by
  intro x hx1 hx2
  rw [Memory.background_of_not_inRam (inRam_of_inFlash ((inFlash_iff x).2 (by omega))),
    Memory.background_of_not_inRam (inRam_of_inFlash ((inFlash_iff lo).2 (by omega)))]

end Sys2Proof.Machine
end

