-- ==== Sys2Proof/Laws/Ops.lean ====
section
/-! SUPPORT. Laws of the shared operations: how a flow that goes on got there, what a read gives, how little-endian values and
bytes belong together, what a reset leaves. -/

namespace Sys2Proof.Machine

/-! ## A flow that goes on -/

theorem Flow.andThen_eq_go {f : Flow} {k : State → Flow} {t : State} (h : f.andThen k = .go t) :
    ∃ u, f = .go u ∧ k u = .go t := by
  cases f with
  | go u => exact ⟨u, rfl, h⟩
  | stop u => cases h

/-- A send that goes on appended its byte (R86). -/
theorem send_go {b : Byte} {s t : State} (h : send b s = .go t) : t = s.sent [b] := by
  unfold send at h
  split at h <;> cases h <;> simp [State.sent, *]

theorem ack_go {s t : State} (h : Machine.ack s = .go t) : t = s.sent [0x79] := send_go h

theorem sendAll_go {bs : List Byte} {s t : State} (h : sendAll bs s = .go t) : t = s.sent bs := by
  induction bs generalizing s with
  | nil => cases h; simp
  | cons b bs ih =>
    obtain ⟨u, hu, h⟩ := Flow.andThen_eq_go h
    rw [ih h, send_go hu, State.sent_sent]
    rfl

/-- After an error the handler does not go on (R134, R140). -/
theorem takeError_ne_go (e : ProtocolError) (s t : State) : takeError e s ≠ .go t := by
  intro h
  obtain ⟨u, -, h⟩ := Flow.andThen_eq_go h
  cases h

/-- Past the guard, the handler ran (R116). -/
theorem acceptHeader_go {c : Command} {k : State → Flow} {s t : State} (h : acceptHeader c k s = .go t) : k s = .go t := by
  unfold acceptHeader at h
  split at h
  · exact absurd h (takeError_ne_go _ _ _)
  · exact h

theorem askAddr_go {s t : State} (h : askAddr s = .go t) : t = { s.sent [0x79] with cs := .addr 0 } := by
  obtain ⟨u, hu, h⟩ := Flow.andThen_eq_go h
  cases h
  rw [ack_go hu]

theorem askNumber_go {s t : State} (h : askNumber s = .go t) : t = { s.sent [0x79] with cs := .fN } := by
  obtain ⟨u, hu, h⟩ := Flow.andThen_eq_go h
  cases h
  rw [ack_go hu]

theorem askAddr_eq {s : State} (h : s.canSend 1 = true) : askAddr s = .go { s.sent [0x79] with cs := .addr 0 } := by
  simp [askAddr, ack_eq h]

theorem askNumber_eq {s : State} (h : s.canSend 1 = true) : askNumber s = .go { s.sent [0x79] with cs := .fN } := by
  simp [askNumber, ack_eq h]

/-! ## Reading (R46) -/

theorem addrPlus_addrPlus (a : Addr) (j k : Nat) : addrPlus (addrPlus a j) k = addrPlus a (j + k) := by
  simp [addrPlus, BitVec.add_assoc, BitVec.ofNat_add]

@[simp] theorem addrPlus_zero (a : Addr) : addrPlus a 0 = a := by simp [addrPlus]

/-- Inside the address space an address is moved as a number. -/
theorem addrPlus_toNat {a : Addr} {k : Nat} (h : a.toNat + k < 4294967296) : (addrPlus a k).toNat = a.toNat + k := by
  simp only [addrPlus, BitVec.toNat_add, BitVec.toNat_ofNat]
  omega

theorem memBytes_succ (s : State) (a : Addr) (n : Nat) :
    memBytes s a (n + 1) = s.mem.read a.toNat :: memBytes s (addrPlus a 1) n := by
  simp [memBytes, List.range_succ_eq_map, addrPlus_addrPlus, Nat.add_comm 1, Function.comp_def]

@[simp] theorem memBytes_length (s : State) (a : Addr) (n : Nat) : (memBytes s a n).length = n := by simp [memBytes]

theorem storedFrom_succ (s : State) (a : Addr) (n : Nat) :
    storedFrom s a (n + 1) ↔ hasStorage s.cfg a.toNat = true ∧ storedFrom s (addrPlus a 1) n := by
  constructor
  · intro h
    refine ⟨by simpa using h 0 (by omega), fun j hj => ?_⟩
    rw [addrPlus_addrPlus, Nat.add_comm]
    exact h (j + 1) (by omega)
  · rintro ⟨h0, h⟩ j hj
    cases j with
    | zero => simpa using h0
    | succ j =>
      have := h j (by omega)
      rwa [addrPlus_addrPlus, Nat.add_comm] at this

/-- Stored bytes are read in ascending order. -/
theorem readBytes_stored {s : State} {a : Addr} {n : Nat} (h : storedFrom s a n) :
    readBytes s n a = .ok (memBytes s a n) := by
  induction n generalizing a with
  | zero => rfl
  | succ n ih =>
    obtain ⟨h0, h1⟩ := (storedFrom_succ s a n).1 h
    simp [readBytes, h0, ih h1, memBytes_succ]

/-- A read names the first of its bytes that has no storage. -/
theorem readBytes_unstored {s : State} {a : Addr} {k n : Nat} (hk : k < n) (h : storedFrom s a k)
    (hn : hasStorage s.cfg (addrPlus a k).toNat = false) : readBytes s n a = .error (addrPlus a k) := by
  induction k generalizing a n with
  | zero =>
    obtain ⟨n, rfl⟩ : ∃ m, n = m + 1 := ⟨n - 1, by omega⟩
    simp at hn
    simp [readBytes, hn]
  | succ k ih =>
    obtain ⟨n, rfl⟩ : ∃ m, n = m + 1 := ⟨n - 1, by omega⟩
    obtain ⟨h0, h1⟩ := (storedFrom_succ s a k).1 h
    have := ih (a := addrPlus a 1) (n := n) (by omega) h1 (by rwa [addrPlus_addrPlus, Nat.add_comm])
    simp [readBytes, h0, this, addrPlus_addrPlus, Nat.add_comm 1]

/-! ## Little-endian values (R42) -/

/-- Four bytes put together and taken apart again. -/
theorem leBytes_leValue (b0 b1 b2 b3 : Byte) : leBytes (leValue [b0, b1, b2, b3]) = [b0, b1, b2, b3] := by
  simp only [leBytes, List.cons.injEq, and_true]
  refine ⟨?_, ?_, ?_, ?_⟩ <;>
  · unfold leValue byteOf
    ext i hi
    simp
    interval_cases i <;> simp

/-- One byte is its own value. -/
@[simp] theorem leValue_singleton (b : Byte) : leValue [b] = b.setWidth 32 := by
  simp [leValue]

/-! ## Resets (R36, R105, R106) -/

theorem applyOptionBytes_unwritten {s : State} (h : s.obWritten = false) : applyOptionBytes s = s := by
  simp [applyOptionBytes, h]

/-- The option-byte effect changes the protection status, the flag and the counter of free values, nothing else (R106). -/
theorem applyOptionBytes_eq (s : State) : ∃ r w d,
    applyOptionBytes s = { s with rop := r, wrp := w, obWritten := false, draws := d } ∧
    (s.obWritten = false → r = s.rop ∧ w = s.wrp ∧ d = s.draws) := by
  cases h : s.obWritten with
  | false => exact ⟨s.rop, s.wrp, s.draws, by rw [applyOptionBytes_unwritten h, ← h], fun _ => ⟨rfl, rfl, rfl⟩⟩
  | true => exact ⟨_, _, _, if_pos h, by simp⟩

/-- `FC.reset()` without an option-byte write before it (R105). -/
theorem softwareReset_unwritten {s : State} (h : s.obWritten = false) :
    softwareReset s = s.restarted := by
  rw [softwareReset, applyOptionBytes_unwritten h]
  rfl

/-- A reset from outside consumes `OB_WRITTEN` and keeps `TX`, memory and the environment's script (log 24). -/
theorem outsideReset_eq (swrf pin : Bool) (s : State) : ∃ r w d,
    outsideReset swrf pin s =
      { endCommand s with
        cs := .boot, swrf := swrf, bootPin := pin, rop := r, wrp := w, obWritten := false, draws := d } ∧
    (s.obWritten = false → r = s.rop ∧ w = s.wrp ∧ d = s.draws) := by
  obtain ⟨r, w, d, h, hk⟩ := applyOptionBytes_eq s
  exact ⟨r, w, d, by rw [outsideReset, h]; rfl, hk⟩

end Sys2Proof.Machine
end

