-- ==== Sys2Proof/Laws/Phases.lean ====
section
/-! SUPPORT. A command on its way, in one normal form: the state before it, with what was sent since, and the registers its frames
have filled. One law per phase of a handler. -/

namespace Sys2Proof.Machine

/-- `s` at the wait point `p` of command `c`, with these registers and these events left. -/
def State.busy (s : State) (p : ControlState) (c : Command) (addr : Option Addr) (acks num ncks : Option Byte) (buf : List Byte)
    (cks : Option Byte) (i : Option Nat) (rx : List RxEvent) : State :=
  { s with
    cs := p, cmd := some c.opcode, cmp := some (complement c.opcode), addr := addr, acks := acks, num := num, ncks := ncks,
    buf := buf, cks := cks, i := i, rx := rx }

section
variable (s : State) (p q : ControlState) (c : Command) (a : Option Addr) (x n y : Option Byte) (b : List Byte) (z : Option Byte)
  (j : Option Nat) (r : List RxEvent)

@[simp] theorem busy_cs : (s.busy p c a x n y b z j r).cs = p := rfl
@[simp] theorem busy_cmd : (s.busy p c a x n y b z j r).cmd = some c.opcode := rfl
@[simp] theorem busy_cmp : (s.busy p c a x n y b z j r).cmp = some (complement c.opcode) := rfl
@[simp] theorem busy_addr : (s.busy p c a x n y b z j r).addr = a := rfl
@[simp] theorem busy_acks : (s.busy p c a x n y b z j r).acks = x := rfl
@[simp] theorem busy_num : (s.busy p c a x n y b z j r).num = n := rfl
@[simp] theorem busy_ncks : (s.busy p c a x n y b z j r).ncks = y := rfl
@[simp] theorem busy_buf : (s.busy p c a x n y b z j r).buf = b := rfl
@[simp] theorem busy_cks : (s.busy p c a x n y b z j r).cks = z := rfl
@[simp] theorem busy_i : (s.busy p c a x n y b z j r).i = j := rfl
@[simp] theorem busy_rx : (s.busy p c a x n y b z j r).rx = r := rfl
@[simp] theorem busy_rop : (s.busy p c a x n y b z j r).rop = s.rop := rfl
@[simp] theorem busy_wrp : (s.busy p c a x n y b z j r).wrp = s.wrp := rfl
@[simp] theorem busy_swrf : (s.busy p c a x n y b z j r).swrf = s.swrf := rfl
@[simp] theorem busy_bootPin : (s.busy p c a x n y b z j r).bootPin = s.bootPin := rfl
@[simp] theorem busy_obWritten : (s.busy p c a x n y b z j r).obWritten = s.obWritten := rfl
@[simp] theorem busy_mem : (s.busy p c a x n y b z j r).mem = s.mem := rfl
@[simp] theorem busy_tx : (s.busy p c a x n y b z j r).tx = s.tx := rfl
@[simp] theorem busy_pins : (s.busy p c a x n y b z j r).pins = s.pins := rfl
@[simp] theorem busy_txErrorIn : (s.busy p c a x n y b z j r).txErrorIn = s.txErrorIn := rfl
@[simp] theorem busy_draws : (s.busy p c a x n y b z j r).draws = s.draws := rfl
@[simp] theorem busy_cfg : (s.busy p c a x n y b z j r).cfg = s.cfg := rfl

@[simp] theorem busy_canSend (m : Nat) : (s.busy p c a x n y b z j r).canSend m = s.canSend m := rfl
@[simp] theorem busy_sent (bs : List Byte) :
    (s.busy p c a x n y b z j r).sent bs = (s.sent bs).busy p c a x n y b z j r := rfl

@[simp] theorem waitAt_busy : waitAt q (s.busy p c a x n y b z j r) = .go (s.busy q c a x n y b z j r) := rfl
@[simp] theorem startBody_busy :
    startBody (s.busy p c a x n y b z j r) = .go (s.busy (.fD 0) c a x n y b z (some 0) r) := rfl

/-- The end of a command forgets its registers and keeps the events left. -/
theorem endCommand_busy : endCommand (s.busy p c a x n y b z j r) = { endCommand s with rx := r } := rfl
/-- So does the reset. -/
theorem softwareReset_busy : softwareReset (s.busy p c a x n y b z j r) = { softwareReset s with rx := r } := by
  unfold softwareReset applyOptionBytes
  split <;> simp_all

theorem receiveAddr_busy (a' : Addr) (x' : Byte) :
    receiveAddr a' x' (s.busy p c a x n y b z j r) = s.busy .addrCks c (some a') (some x') n y b z j (r.drop 5) := rfl
theorem receiveCount_busy (n' y' : Byte) :
    receiveCount n' y' (s.busy p c a x n y b z j r) = s.busy .rmNcks c a x (some n') (some y') b z j (r.drop 2) := rfl
theorem receiveNumber_busy (n' : Byte) :
    receiveNumber n' (s.busy p c a x n y b z j r) = s.busy .fN c a x (some n') y b z j (r.drop 1) := rfl
theorem receiveBody_busy (ps : List Byte) (z' : Byte) :
    receiveBody ps z' (s.busy p c a x n y b z j r) =
      s.busy .fCks c a x n y (ps ++ [numberOf ps]) (some z') (some ps.length) (r.drop (ps.length + 1)) := rfl

end

/-! ## Checks -/

/-- The check of an ADDR frame is the XOR of its address bytes (R63). -/
theorem addressValid_iff (a : Addr) (x : Byte) : addressValid a x = true ↔ x = addrXor a := by
  have h : xorfold (leBytes a) = addrXor a := by
    simp only [xorfold, leBytes, addrXor, List.foldl_cons, List.foldl_nil]
    rw [show (0 : Byte) = 0#8 from rfl, BitVec.zero_xor]
  rw [addressValid, verify, h, beq_iff_eq]
  exact eq_comm

theorem validTarget_iff (a : Addr) : validTarget a = true ↔ classify a ≠ .other := by simp [validTarget]

theorem addressValid_eq_false {a : Addr} {x : Byte} (h : x ≠ addrXor a) : addressValid a x = false := by
  rw [Bool.eq_false_iff, ne_eq, addressValid_iff]
  exact h

/-- The payload and what the checksum covers, of a frame received whole (R72, R89). -/
theorem payloadOf_numberOf {ps : List Byte} (h1 : 1 ≤ ps.length) (h2 : ps.length ≤ 256) :
    payloadOf (numberOf ps) (ps ++ [numberOf ps]) = ps := by
  simp [payloadOf, numberOf_toNat h1 h2]

theorem coveredOf_numberOf {ps : List Byte} (h1 : 1 ≤ ps.length) (h2 : ps.length ≤ 256) :
    coveredOf (numberOf ps) (ps ++ [numberOf ps]) = ps ++ [numberOf ps] := by
  have := numberOf_toNat h1 h2
  apply List.take_of_length_le
  simp
  omega

theorem verify_iff (bs : List Byte) (x : Byte) : verify bs x = true ↔ x = xorfold bs := by
  simp only [verify, beq_iff_eq]
  exact eq_comm

/-! ## Phases -/

/-- One header NACK, for an error that does not end the session (R134). -/
theorem takeError_busy {s : State} {p : ControlState} {c : Command} {a : Option Addr} {x n y : Option Byte} {b : List Byte}
    {z : Option Byte} {j : Option Nat} {r : List RxEvent} {e : ProtocolError}
    (he : e = .checksumMismatch ∨ e = .invalidAddress ∨ e = .protectionViolation ∨ e = .unimplemented)
    (h : s.canSend 1 = true) :
    takeError e (s.busy p c a x n y b z j r) = .stop { endCommand (s.sent [0x1F]) with rx := r } := by
  obtain rfl | rfl | rfl | rfl := he <;> rw [takeError_nack rfl rfl (by simpa using h)] <;> rfl

/-- The header of a command with operands is accepted and its ADDR frame received. -/
theorem addrPhase {s : State} {c : Command} (hg : s.guardOpen c = true) (h : s.canSend 1 = true) (a : Addr) (x : Byte)
    (ops : List Byte) (k : State → Flow) :
    ((acceptHeader c askAddr (issue c (addrFrame a x ++ ops) s)).andThen fun t => k (receiveAddr a x t)) =
      k ((s.sent [0x79]).busy .addrCks c (some a) (some x) s.num s.ncks s.buf s.cks s.i (ops.map RxEvent.byte ++ s.rx)) := by
  rw [acceptHeader_open (s := issue c _ s) hg, askAddr_eq (s := issue c _ s) h]
  rfl

/-- The header of a frame command is accepted and its `number` received. -/
theorem numberPhase {s : State} {c : Command} (hg : s.guardOpen c = true) (h : s.canSend 1 = true) (n : Byte) (ops : List Byte)
    (k : State → Flow) :
    ((acceptHeader c askNumber (issue c (n :: ops) s)).andThen fun t => k (receiveNumber n t)) =
      k ((s.sent [0x79]).busy .fN c s.addr s.acks (some n) s.ncks s.buf s.cks s.i (ops.map RxEvent.byte ++ s.rx)) := by
  rw [acceptHeader_open (s := issue c _ s) hg, askNumber_eq (s := issue c _ s) h]
  rfl

/-- A DATA or LIST frame in the registers, as the frame receiver leaves it. -/
theorem checkedFrame_busy {s : State} {p : ControlState} {c : Command} {a : Option Addr} {x y : Option Byte} {ps : List Byte}
    {z : Byte} {j : Option Nat} {r : List RxEvent} (h1 : 1 ≤ ps.length) (h2 : ps.length ≤ 256) (k : List Byte → Bool → Flow) :
    checkedFrame (s.busy p c a x (some (numberOf ps)) y (ps ++ [numberOf ps]) (some z) j r) k =
      k ps (verify (ps ++ [numberOf ps]) z) := by
  have hb : bufValue (s.busy p c a x (some (numberOf ps)) y (ps ++ [numberOf ps]) (some z) j r) =
      some (ps ++ [numberOf ps]) := by
    simp [bufValue]
  simp only [checkedFrame, busy_num, busy_cks, hb, reading_some, payloadOf_numberOf h1 h2, coveredOf_numberOf h1 h2]

/-- The events of a frame body are taken from the script. -/
theorem drop_frame (ps : List Byte) (z : Byte) (r : List RxEvent) :
    ((ps ++ [z]).map RxEvent.byte ++ r).drop (ps.length + 1) = r := by
  rw [show ps.length + 1 = ((ps ++ [z]).map RxEvent.byte).length by simp, List.drop_left]

end Sys2Proof.Machine
end

