-- ==== Sys2Proof/Laws/Reads.lean ====
section
/-! SUPPORT. "Every handler writes a register before it reads it" (spec/10_state.md R24), of every instruction: no meaning of
a command ends in the fault of an unwritten register. -/

namespace Sys2Proof.Machine

/-- The block has not read a register without a value. -/
def State.readsWritten (s : State) : Prop := ∀ r, s.cs ≠ .fault (.unwrittenRegister r)

/-- Nor has it when this piece of a handler ends. -/
def Flow.readsWritten (f : Flow) : Prop := f.state.readsWritten

theorem State.readsWritten_of_cs {s t : State} (h : s.readsWritten) (e : t.cs = s.cs) : t.readsWritten := by
  intro r
  rw [e]
  exact h r

theorem Flow.readsWritten_andThen {f : Flow} {k : State → Flow} (hf : f.readsWritten)
    (hk : ∀ t, f = .go t → t.readsWritten → (k t).readsWritten) : (f.andThen k).readsWritten := by
  cases f with
  | go t => exact hk t rfl hf
  | stop t => exact hf

theorem raise_readsWritten {e : Fault} (he : ∀ r, e ≠ .unwrittenRegister r) (s : State) : (raise e s).readsWritten :=
  fun r h => he r (ControlState.fault.inj h)

theorem finish_readsWritten (s : State) : (finish s).readsWritten := fun _ => nofun
theorem fcReset_readsWritten (s : State) : (fcReset s).readsWritten := fun _ => nofun

theorem send_readsWritten {s : State} (h : s.readsWritten) (b : Byte) : (send b s).readsWritten := by
  unfold send
  split
  · exact h
  · exact raise_readsWritten (by simp) s
  · exact h

theorem sendAll_readsWritten {s : State} (h : s.readsWritten) (bs : List Byte) : (sendAll bs s).readsWritten := by
  induction bs generalizing s with
  | nil => exact h
  | cons b bs ih => exact Flow.readsWritten_andThen (send_readsWritten h b) fun _ _ ht => ih ht

theorem ack_readsWritten {s : State} (h : s.readsWritten) : (ack s).readsWritten := send_readsWritten h _

theorem ackFinish_readsWritten {s : State} (h : s.readsWritten) : ((ack s).andThen finish).readsWritten :=
  Flow.readsWritten_andThen (ack_readsWritten h) fun t _ _ => finish_readsWritten t

theorem ackReset_readsWritten {s : State} (h : s.readsWritten) : ((ack s).andThen fcReset).readsWritten :=
  Flow.readsWritten_andThen (ack_readsWritten h) fun t _ _ => fcReset_readsWritten t

/-- ACK, bytes, ACK: the information commands. -/
theorem reply_readsWritten {s : State} (h : s.readsWritten) (bs : State → List Byte) :
    ((ack s).andThen fun s => (sendAll (bs s) s).andThen fun s => (ack s).andThen finish).readsWritten :=
  Flow.readsWritten_andThen (ack_readsWritten h) fun _ _ ht =>
    Flow.readsWritten_andThen (sendAll_readsWritten ht _) fun _ _ hu => ackFinish_readsWritten hu

theorem takeError_readsWritten {s : State} (h : s.readsWritten) (e : ProtocolError) : (takeError e s).readsWritten := by
  refine Flow.readsWritten_andThen (sendAll_readsWritten h _) fun t _ _ => ?_
  intro r
  cases e <;> simp only [Flow.state_stop, endSession] <;> split <;> nofun

theorem acceptHeader_readsWritten {s : State} (h : s.readsWritten) (c : Command) {k : State → Flow} (hk : (k s).readsWritten) :
    (acceptHeader c k s).readsWritten := by
  unfold acceptHeader
  split
  · exact takeError_readsWritten h _
  · exact hk

theorem memRead_readsWritten {s : State} {a : Addr} {n : Nat} {k : Addr → Flow} (hk : ∀ v, (k v).readsWritten) :
    (memRead a n s k).readsWritten := by
  unfold memRead
  split
  · exact hk _
  · exact raise_readsWritten (by simp) s

theorem handoff_readsWritten (a : Addr) (s : State) : (handoff a s).readsWritten :=
  memRead_readsWritten fun _ => memRead_readsWritten fun _ _ => nofun

theorem streamBytes_readsWritten {s : State} (h : s.readsWritten) (n : Nat) (a : Addr) : (streamBytes n a s).readsWritten := by
  induction n generalizing a s with
  | zero => exact h
  | succ n ih => exact memRead_readsWritten fun _ => Flow.readsWritten_andThen (send_readsWritten h _) fun _ _ ht => ih ht _

theorem streamWords_readsWritten {s : State} (h : s.readsWritten) (n : Nat) (a : Addr) : (streamWords n a s).readsWritten := by
  induction n generalizing a s with
  | zero => exact h
  | succ n ih => exact memRead_readsWritten fun _ => Flow.readsWritten_andThen (sendAll_readsWritten h _) fun _ _ ht => ih ht _

theorem streamMemory_readsWritten {s : State} (h : s.readsWritten) (a : Addr) (num : Byte) :
    (streamMemory a num s).readsWritten := by
  unfold streamMemory
  split
  · exact streamBytes_readsWritten h _ _
  · exact streamWords_readsWritten h _ _

theorem programWord_readsWritten {s : State} (h : s.readsWritten) (a w : Addr) : (programWord a w s).readsWritten := by
  unfold programWord
  split
  · exact raise_readsWritten (by simp) s
  · split
    · exact raise_readsWritten (by simp) s
    · split <;> exact h

theorem programWords_readsWritten {s : State} (h : s.readsWritten) (ws : List Addr) (a : Addr) :
    (programWords ws a s).readsWritten := by
  induction ws generalizing a s with
  | nil => exact h
  | cons w ws ih => exact Flow.readsWritten_andThen (programWord_readsWritten h a w) fun _ _ ht => ih ht _

theorem storeBytes_readsWritten {s : State} (h : s.readsWritten) (bs : List Byte) (a : Addr) :
    (storeBytes bs a s).readsWritten := by
  induction bs generalizing a s with
  | nil => exact h
  | cons b bs ih =>
    refine Flow.readsWritten_andThen ?_ fun _ _ ht => ih ht _
    unfold memWriteByte
    split
    · exact h
    · exact raise_readsWritten (by simp) s

theorem erasePages_readsWritten {s : State} (h : s.readsWritten) (ps : List Addr) : (erasePages ps s).readsWritten := by
  induction ps generalizing s with
  | nil => exact h
  | cons p ps ih =>
    refine Flow.readsWritten_andThen ?_ fun _ _ ht => ih ht
    unfold erasePage
    split
    · exact raise_readsWritten (by simp) s
    · split
      · exact State.readsWritten_of_cs h (drawBytes_fields _ _ s).1
      · exact State.readsWritten_of_cs h rfl

theorem protectSectors_readsWritten {s : State} (h : s.readsWritten) (as : List Addr) : (protectSectors as s).readsWritten := by
  induction as generalizing s with
  | nil => exact h
  | cons a as ih =>
    refine Flow.readsWritten_andThen ?_ fun _ _ ht => ih ht
    unfold enableWriteProtection
    split
    · exact raise_readsWritten (by simp) s
    · exact h

theorem eraseListed_readsWritten {s : State} (h : s.readsWritten) (indices : List Byte) : (eraseListed indices s).readsWritten :=
  Flow.readsWritten_andThen (erasePages_readsWritten h _) fun _ _ ht => ackFinish_readsWritten ht

theorem arbitrateWrite_readsWritten {s : State} (h : s.readsWritten) (a : Addr) (payload : List Byte) :
    (arbitrateWrite a payload s).readsWritten := by
  unfold arbitrateWrite
  split
  · exact Flow.readsWritten_andThen (programWords_readsWritten h _ _) fun _ _ ht => ackFinish_readsWritten ht
  · refine Flow.readsWritten_andThen (storeBytes_readsWritten h _ _) fun t _ ht => ?_
    split
    · exact ackFinish_readsWritten ht
    · exact finish_readsWritten t
  · split
    · refine Flow.readsWritten_andThen ?_ fun _ _ ht => ackReset_readsWritten ht
      unfold programOptionBytes
      split
      · exact raise_readsWritten (by simp) s
      · exact h
    · exact takeError_readsWritten h _

/-! ## The stages on the registers their frames have filled -/

theorem askAddr_readsWritten {s : State} (h : s.readsWritten) : (askAddr s).readsWritten :=
  Flow.readsWritten_andThen (ack_readsWritten h) fun _ _ _ _ => nofun

theorem askNumber_readsWritten {s : State} (h : s.readsWritten) : (askNumber s).readsWritten :=
  Flow.readsWritten_andThen (ack_readsWritten h) fun _ _ _ _ => nofun

theorem startBody_readsWritten (s : State) : (startBody s).readsWritten := fun _ => nofun

theorem issue_readsWritten (c : Command) (ops : List Byte) (s : State) : (issue c ops s).readsWritten := fun _ => nofun

theorem checkedAddr_readsWritten {a : Addr} {x : Byte} {s : State} {k : Addr → Bool → Flow}
    (hk : ∀ ok, (k a ok).readsWritten) : (checkedAddr (receiveAddr a x s) k).readsWritten := hk _

theorem checkedFrame_readsWritten {n : Byte} {payload : List Byte} {x : Byte} {s : State} (hn : s.num = some n)
    {k : List Byte → Bool → Flow} (hk : ∀ p ok, (k p ok).readsWritten) :
    (checkedFrame (receiveBody payload x s) k).readsWritten := by
  have hb : bufValue (receiveBody payload x s) = some (payload ++ [numberOf payload]) := by
    simp [bufValue]
  simp only [checkedFrame, hb, receiveBody_fields, hn, reading_some]
  exact hk _ _

theorem rmAddrStage_readsWritten (a : Addr) (x : Byte) (s : State) : (rmAddrStage (receiveAddr a x s)).readsWritten := by
  have h : (receiveAddr a x s).readsWritten := fun _ => nofun
  refine checkedAddr_readsWritten fun ok => ?_
  split
  · split
    · exact Flow.readsWritten_andThen (ack_readsWritten h) fun _ _ _ _ => nofun
    · exact takeError_readsWritten h _
  · exact takeError_readsWritten h _

/-- The address that read-memory goes on with is the one its frame brought. -/
theorem rmAddrStage_go {a : Addr} {x : Byte} {s t : State} (h : rmAddrStage (receiveAddr a x s) = .go t) : t.addr = some a := by
  simp only [rmAddrStage, checkedAddr, receiveAddr_fields, reading_some] at h
  split at h
  · split at h
    · obtain ⟨u, hu, h⟩ := Flow.andThen_eq_go h
      cases h
      rw [ack_go hu]
      rfl
    · exact absurd h (takeError_ne_go _ _ _)
  · exact absurd h (takeError_ne_go _ _ _)

theorem rmCountStage_readsWritten {a : Addr} {s : State} (ha : s.addr = some a) (n y : Byte) :
    (rmCountStage (receiveCount n y s)).readsWritten := by
  have h : (receiveCount n y s).readsWritten := fun _ => nofun
  simp only [rmCountStage, checkedCount, receiveCount_fields, ha, reading_some]
  split
  · exact Flow.readsWritten_andThen (ack_readsWritten h) fun _ _ ht =>
      Flow.readsWritten_andThen (streamMemory_readsWritten ht _ _) fun u _ _ => finish_readsWritten u
  · exact takeError_readsWritten h _

theorem goAddrStage_readsWritten (a : Addr) (x : Byte) (s : State) : (goAddrStage (receiveAddr a x s)).readsWritten := by
  have h : (receiveAddr a x s).readsWritten := fun _ => nofun
  refine checkedAddr_readsWritten fun ok => ?_
  split
  · split
    · exact Flow.readsWritten_andThen (ack_readsWritten h) fun t _ _ => handoff_readsWritten a t
    · exact takeError_readsWritten h _
  · exact takeError_readsWritten h _

theorem wmAddrStage_readsWritten (a : Addr) (x : Byte) (s : State) : (wmAddrStage (receiveAddr a x s)).readsWritten := by
  have h : (receiveAddr a x s).readsWritten := fun _ => nofun
  refine checkedAddr_readsWritten fun ok => ?_
  split
  · exact askNumber_readsWritten h
  · exact takeError_readsWritten h _

/-- The address that write-memory goes on with is the one its frame brought. -/
theorem wmAddrStage_go {a : Addr} {x : Byte} {s t : State} (h : wmAddrStage (receiveAddr a x s) = .go t) : t.addr = some a := by
  simp only [wmAddrStage, checkedAddr, receiveAddr_fields, reading_some] at h
  split at h
  · rw [askNumber_go h]
    rfl
  · exact absurd h (takeError_ne_go _ _ _)

theorem wmFrameStage_readsWritten {a : Addr} {n : Byte} {s : State} (ha : s.addr = some a) (hn : s.num = some n)
    (payload : List Byte) (y : Byte) : (wmFrameStage (receiveBody payload y s)).readsWritten := by
  have h : (receiveBody payload y s).readsWritten := fun _ => nofun
  refine checkedFrame_readsWritten hn fun p ok => ?_
  simp only [receiveBody_fields, ha, reading_some]
  split
  · exact arbitrateWrite_readsWritten h _ _
  · exact takeError_readsWritten h _

theorem erFrameStage_readsWritten {n : Byte} {s : State} (hn : s.num = some n) (indices : List Byte) (y : Byte) :
    (erFrameStage (receiveBody indices y s)).readsWritten := by
  have h : (receiveBody indices y s).readsWritten := fun _ => nofun
  refine checkedFrame_readsWritten hn fun p ok => ?_
  split
  · exact eraseListed_readsWritten h _
  · split
    · exact takeError_readsWritten h _
    · exact Flow.readsWritten_andThen (send_readsWritten h _) fun _ _ ht => eraseListed_readsWritten ht _

theorem wpFrameStage_readsWritten {n : Byte} {s : State} (hn : s.num = some n) (indices : List Byte) (y : Byte) :
    (wpFrameStage (receiveBody indices y s)).readsWritten := by
  have h : (receiveBody indices y s).readsWritten := fun _ => nofun
  refine checkedFrame_readsWritten hn fun p ok => ?_
  split
  · exact Flow.readsWritten_andThen (protectSectors_readsWritten h _) fun _ _ ht => ackReset_readsWritten ht
  · exact takeError_readsWritten h _

/-! ## Every instruction -/

theorem execEr_readsWritten (list : Option (List Byte × Byte)) (s : State) :
    ((acceptHeader .er erHandler (issue .er (operandBytes (.er list)) s)).andThen fun s =>
      (erNumberStage (receiveNumber (erNumber list) s)).andThen (erBody list)).readsWritten := by
  refine Flow.readsWritten_andThen
    (acceptHeader_readsWritten (issue_readsWritten _ _ _) _ (askNumber_readsWritten (issue_readsWritten _ _ _))) fun t _ _ => ?_
  have h : (receiveNumber (erNumber list) t).readsWritten := fun _ => nofun
  simp only [erNumberStage, receiveNumber_fields, reading_some]
  split
  · rw [Flow.andThen_assoc]
    refine Flow.readsWritten_andThen (erasePages_readsWritten h _) fun u _ hu => ?_
    exact Flow.readsWritten_andThen (ackFinish_readsWritten hu) fun v hv _ =>
      absurd hv (by cases ack u <;> simp)
  · cases list with
    | none => exact startBody_readsWritten _
    | some l => exact erFrameStage_readsWritten (s := { receiveNumber (numberOf l.1) t with cs := .fD 0, i := some 0 }) rfl l.1 l.2

/-- No instruction ends in the fault of an unwritten register, from any state not already in it (R24): no meaning reaches the stop. -/
theorem exec_readsWritten {i : Instr} {s t : State} (hs : s.readsWritten) (h : exec i s = .next t) : t.readsWritten := by
  have hi := fun c ops => issue_readsWritten c ops s
  cases i with
  | init => cases h; exact ackFinish_readsWritten hs
  | get => cases h; exact acceptHeader_readsWritten (hi _ _) _ (reply_readsWritten (hi _ _) _)
  | gv => cases h; exact acceptHeader_readsWritten (hi _ _) _ (reply_readsWritten (hi _ _) fun s => [s.cfg.versionByte, 0x00, 0x00])
  | gid =>
    cases h
    exact acceptHeader_readsWritten (hi _ _) _
      (reply_readsWritten (hi _ _) fun s => [s.cfg.idBytes.1, s.cfg.idBytes.2.1, s.cfg.idBytes.2.2])
  | rm a x n y =>
    cases h
    refine Flow.readsWritten_andThen (acceptHeader_readsWritten (hi _ _) _ (askAddr_readsWritten (hi _ _))) fun u _ _ => ?_
    exact Flow.readsWritten_andThen (rmAddrStage_readsWritten a x u) fun v hv _ => rmCountStage_readsWritten (rmAddrStage_go hv) n y
  | go a x =>
    cases h
    exact Flow.readsWritten_andThen (acceptHeader_readsWritten (hi _ _) _ (askAddr_readsWritten (hi _ _)))
      fun u _ _ => goAddrStage_readsWritten a x u
  | wm a x payload y =>
    cases h
    refine Flow.readsWritten_andThen (acceptHeader_readsWritten (hi _ _) _ (askAddr_readsWritten (hi _ _))) fun u _ _ => ?_
    refine Flow.readsWritten_andThen (wmAddrStage_readsWritten a x u) fun v hv _ => ?_
    have ha : v.addr = some a := wmAddrStage_go hv
    exact wmFrameStage_readsWritten (s := { receiveNumber (numberOf payload) v with cs := .fD 0, i := some 0 }) ha rfl payload y
  | er list => cases h; exact execEr_readsWritten list s
  | ee => cases h; exact acceptHeader_readsWritten (hi _ _) _ (takeError_readsWritten (hi _ _) _)
  | wp indices y =>
    cases h
    exact Flow.readsWritten_andThen (acceptHeader_readsWritten (hi _ _) _ (askNumber_readsWritten (hi _ _)))
      fun u _ _ => wpFrameStage_readsWritten (s := { receiveNumber (numberOf indices) u with cs := .fD 0, i := some 0 }) rfl indices y
  | wu =>
    cases h
    exact acceptHeader_readsWritten (hi _ _) _
      (Flow.readsWritten_andThen (ack_readsWritten (hi _ _)) fun _ _ ht => ackReset_readsWritten ht)
  | rp =>
    cases h
    refine acceptHeader_readsWritten (hi _ _) _ ?_
    unfold rpHandler
    split
    · exact takeError_readsWritten (hi _ _) _
    · exact Flow.readsWritten_andThen (ack_readsWritten (hi _ _)) fun _ _ ht => ackReset_readsWritten ht
  | ru =>
    cases h
    refine acceptHeader_readsWritten (hi _ _) _ (Flow.readsWritten_andThen (ack_readsWritten (hi _ _)) fun u _ hu => ?_)
    exact Flow.readsWritten_andThen
      (ack_readsWritten (State.readsWritten_of_cs hu (disableReadoutProtection_fields u).1)) fun v _ _ => fcReset_readsWritten _

end Sys2Proof.Machine
end

