-- ==== Sys2Proof/Tests/Slice0.lean ====
section
/-! SUPPORT. Tests with results taken from spec/30_encoding.md and spec/95_test_vectors.md, and for every statement with
hypotheses a state and operands that meet them. -/

namespace Sys2Proof.Tests

open Sys2Proof.Machine

/-! ## Well-formedness -/

theorem payloadOk_replicate (n : Nat) (b : Byte) : payloadOk (List.replicate n b) = (decide (1 ≤ n) && decide (n ≤ 256)) := by
  rw [payloadOk, List.length_replicate]

theorem test_wf_refuses_empty_payload : (Instr.wm 0x08006000 0x68 [] 0x00).wellFormed = false := by decide
theorem test_wf_refuses_257_bytes : (Instr.wm 0x08006000 0x68 (List.replicate 257 0) 0x00).wellFormed = false :=
  payloadOk_replicate 257 0
theorem test_wf_refuses_empty_erase_list : (Instr.er (some ([], 0x00))).wellFormed = false := by decide
theorem test_wf_refuses_256_pages : (Instr.er (some (List.replicate 256 1, 0xFF))).wellFormed = false := by
  rw [Instr.wellFormed, List.length_replicate]
  rfl
theorem test_wf_refuses_empty_sector_list : (Instr.wp [] 0x00).wellFormed = false := by decide
theorem test_wf_refuses_257_sectors : (Instr.wp (List.replicate 257 1) 0x00).wellFormed = false :=
  payloadOk_replicate 257 1

/-! ## Decoding: the bytes of each constructor, from R61 to R66 and R73 -/

theorem test_decode_init : decode .awaitInit [0x7F] = .ok (.init, []) := by rfl
theorem test_decode_get : decode .commandLoop [0x00, 0xFF] = .ok (.get, []) := by rfl
theorem test_decode_gv : decode .commandLoop [0x01, 0xFE] = .ok (.gv, []) := by rfl
theorem test_decode_gid : decode .commandLoop [0x02, 0xFD] = .ok (.gid, []) := by rfl
/-- V1: 0x08006400 is `08 00 64 00 6C`. -/
theorem test_decode_rm :
    decode .commandLoop [0x11, 0xEE, 0x08, 0x00, 0x64, 0x00, 0x6C, 0x07, 0xF8] = .ok (.rm 0x08006400 0x6C 0x07 0xF8, []) := by
  rfl
theorem test_decode_go :
    decode .commandLoop [0x21, 0xDE, 0x08, 0x01, 0xFF, 0xFC, 0x0A] = .ok (.go 0x0801FFFC 0x0A, []) := by rfl
/-- V2: payload `01 02 03 04 05` is `04 01 02 03 04 05 05`. -/
theorem test_decode_wm :
    decode .commandLoop [0x31, 0xCE, 0x20, 0x00, 0x50, 0x00, 0x70, 0x04, 0x01, 0x02, 0x03, 0x04, 0x05, 0x05] =
      .ok (.wm 0x20005000 0x70 [0x01, 0x02, 0x03, 0x04, 0x05] 0x05, []) := by rfl
theorem test_decode_er_all : decode .commandLoop [0x43, 0xBC, 0xFF, 0x00] = .ok (.er none, [0x00]) := by rfl
theorem test_decode_er_list :
    decode .commandLoop [0x43, 0xBC, 0x01, 0x68, 0x69, 0x00] = .ok (.er (some ([0x68, 0x69], 0x00)), []) := by rfl
theorem test_decode_ee : decode .commandLoop [0x44, 0xBB] = .ok (.ee, []) := by rfl
theorem test_decode_wp : decode .commandLoop [0x63, 0x9C, 0x01, 0x1A, 0x03, 0x18] = .ok (.wp [0x1A, 0x03] 0x18, []) := by rfl
theorem test_decode_wu : decode .commandLoop [0x73, 0x8C] = .ok (.wu, []) := by rfl
theorem test_decode_rp : decode .commandLoop [0x82, 0x7D] = .ok (.rp, []) := by rfl
theorem test_decode_ru : decode .commandLoop [0x92, 0x6D] = .ok (.ru, []) := by rfl
theorem test_decode_mismatch : decode .commandLoop [0x11, 0xEF] = .error (.headerMismatch 0x11 0xEF) := by rfl
theorem test_decode_unknown : decode .commandLoop [0x03, 0xFC] = .error (.unknownOpcode 0x03) := by rfl
theorem test_decode_not_init : decode .awaitInit [0x79] = .error (.notInitByte 0x79) := by rfl
theorem test_table_word_rm : decodeTableWord 16 0x11EE = some (.rm 0 0 0 0) := by rfl
theorem test_table_word_init : decodeTableWord 8 0x7F = some .init := by rfl

/-! ## One step, from spec/95_test_vectors.md -/

/-- S0 of spec/95, with three ID bytes. -/
def loop : State := { State.reset with cs := .cmdOp, cfg := { Config.default with idBytes := (0xA1, 0xA2, 0xA3) } }

/-- Bytes placed in memory. -/
def holding (a : Nat) (bs : List Byte) (s : State) : State := { s with mem := s.mem.writeBytes a bs }

/-- The bytes as the next events. -/
def hearing (bs : List Byte) (s : State) : State := { s with rx := bs.map RxEvent.byte }

/-- The state after one step on these bytes. -/
def after (bs : List Byte) (s : State) : State :=
  match step (hearing bs s) with
  | .next t => t
  | .fault _ => s
  | .refused _ => s

/-- V3. -/
theorem test_init_acks : (after [0x7F] { loop with cs := .awaitInit }).tx = [0x79] := by decide
theorem test_init_opens_loop : (after [0x7F] { loop with cs := .awaitInit }).cs = .cmdOp := by decide
/-- W1. -/
theorem test_get_reply : (after [0x00, 0xFF] loop).tx =
    [0x79, 0x0B, 0x10, 0x00, 0x01, 0x02, 0x11, 0x21, 0x31, 0x43, 0x44, 0x63, 0x73, 0x82, 0x92, 0x79] := by decide
/-- V4. -/
theorem test_gv_reply : (after [0x01, 0xFE] loop).tx = [0x79, 0x10, 0x00, 0x00, 0x79] := by decide
theorem test_gid_reply : (after [0x02, 0xFD] loop).tx = [0x79, 0xA1, 0xA2, 0xA3, 0x79] := by decide
/-- V5: last byte of the RAM window. -/
theorem test_rm_last_ram_byte :
    (after [0x11, 0xEE, 0x20, 0x00, 0x50, 0x00, 0x70, 0x00, 0x00] (holding 0x20005000 [0xAB] loop)).tx =
      [0x79, 0x79, 0x79, 0xAB] := by decide
/-- V5: `FAULT(READ_UNMAPPED(0x08020000))` after one byte. -/
theorem test_rm_faults_past_flash :
    (after [0x11, 0xEE, 0x08, 0x01, 0xFF, 0xFF, 0x09, 0x01, 0x01] loop).cs = .fault (.readUnmapped 0x08020000) := by decide
/-- V7. -/
theorem test_go_hands_off :
    (after [0x21, 0xDE, 0x20, 0x00, 0x04, 0x00, 0x24]
      (holding 0x20000400 [0x00, 0x50, 0x00, 0x20, 0x09, 0x04, 0x00, 0x20] loop)).cs =
      .handedOff 0x20000400 0x20005000 0x20000409 := by decide
/-- W4. -/
theorem test_go_refuses_option_bytes : (after [0x21, 0xDE, 0x1F, 0xFF, 0xF8, 0x00, 0x18] loop).tx = [0x79, 0x1F] := by decide
/-- V6: zero padding of the last word. -/
theorem test_wm_pads_with_zero :
    (after [0x31, 0xCE, 0x08, 0x00, 0x60, 0x00, 0x68, 0x00, 0xAA, 0xAA] loop).mem =
      [(0x08006000, 0xAA), (0x08006001, 0x00), (0x08006002, 0x00), (0x08006003, 0x00)] := by decide
/-- W2. -/
theorem test_wm_bad_checksum :
    (after [0x31, 0xCE, 0x08, 0x00, 0x60, 0x00, 0x68, 0x00, 0xAA, 0xAB] loop).tx = [0x79, 0x79, 0x1F] := by decide
/-- V8. -/
theorem test_er_list_erases :
    (after [0x43, 0xBC, 0x01, 0x01, 0x02, 0x02] (holding 0x080067FF [0x11, 0x22] loop)).mem = [(0x08006800, 0x22)] := by decide
/-- V8: index 105, after page 104 is erased. -/
theorem test_er_faults_at_105 :
    (after [0x43, 0xBC, 0x01, 0x68, 0x69, 0x00] loop).cs = .fault (.erasePageInvalid 0x08020000) := by decide
theorem test_ee_nacks : (after [0x44, 0xBB] loop).tx = [0x1F] := by decide
/-- V9: sectors 26 and 3. -/
theorem test_wp_sets_26_and_3 : (after [0x63, 0x9C, 0x01, 0x1A, 0x03, 0x18] loop).wrp = 0x2000004 := by decide
/-- V9: index 0. -/
theorem test_wp_faults_at_0 : (after [0x63, 0x9C, 0x00, 0x00, 0x00] loop).cs = .fault (.wrpSectorInvalid 0x08005000) := by decide
theorem test_wu_clears : (after [0x73, 0x8C] { loop with wrp := 5 }).wrp = 0 := by decide
theorem test_rp_sets : (after [0x82, 0x7D] loop).rop = true := by decide
/-- R36: the pin has another level at the reset, and the block comes back to `AWAIT_INIT` all the same (V10). -/
theorem test_reset_takes_the_next_level :
    (after [0x82, 0x7D] { loop with pins := [false, true] }).bootPin = false ∧
    (after [] (after [0x82, 0x7D] { loop with pins := [false, true] })).cs = .awaitInit := by decide
theorem test_rp_refused_when_active : (after [0x82, 0x7D] { loop with rop := true }).tx = [0x1F] := by decide
/-- V9. -/
theorem test_ru_clears :
    (after [0x92, 0x6D] (holding 0x20000200 [0x5A] (holding 0x08006000 [0x11] { loop with rop := true }))).mem = [] := by decide
/-- V10. -/
theorem test_boot_hands_off :
    (after [] (holding 0x08006000 [0x00, 0x50, 0x00, 0x20, 0xC1, 0x60, 0x00, 0x08] { loop with cs := .boot, bootPin := false })).cs =
      .handedOff 0x08006000 0x20005000 0x080060C1 := by decide
/-- V3 with `CMD_TIMEOUT_MODE = end`, one byte later: E1 clears the registers (R140). -/
theorem test_timeout_ends_session_cleared :
    (deliver { loop with cs := .cmdCp, cmd := some 0x00, rx := [.timeout], cfg := { loop.cfg with cmdTimeoutMode := .finish } }) =
      { loop with cs := .initFailed, cfg := { loop.cfg with cmdTimeoutMode := .finish } } := by rfl
/-- R97 with another `ERASED_BYTE` than the launch contents: the range is listed, what lies beside it kept. -/
theorem test_fill_lists_its_range :
    Memory.fill [(0x08005FFF, 0x10), (0x08006000, 0x11), (0x08006002, 0x22)] 0x08006000 2 0x00 =
      [(0x08005FFF, 0x10), (0x08006000, 0x00), (0x08006001, 0x00), (0x08006002, 0x22)] := by decide
/-- R99, R106 at a reset from outside the block (log 24). -/
theorem test_outside_reset_consumes_ob_written : (outsideReset false true { loop with obWritten := true }).obWritten = false := by
  decide
/-- V3: `00` alone leaves the block waiting at `CMD_CP` (R112). -/
theorem test_half_a_header_waits : (after [0x00] loop).cs = .cmdCp := by decide
/-- The free values stay free: a word that is not erased takes none that the model chose (R96). -/
theorem test_overwrite_is_free :
    (after [0x31, 0xCE, 0x08, 0x00, 0x60, 0x00, 0x68, 0x03, 0x00, 0x00, 0x00, 0x00, 0x03]
      (holding 0x08006000 [0x11, 0x22, 0x33, 0x44] loop)).draws = 4 := by rfl

/-! ## Witnesses: a state and operands that meet the hypotheses of each statement, at the ends of their ranges -/

/-- `loop` with readout protection active. -/
def guarded : State := { loop with rop := true }
/-- The channel fails after `n` sends. -/
def failing (n : Nat) (s : State) : State := { s with txErrorIn := some n }

theorem witness_DecodeOfEncodeIsTheInstruction :
    WellFormed (.wm 0x08006000 0x68 (List.replicate 256 0) 0xFF) ∧ WellFormed (.wm 0x08006000 0x68 [0xAA] 0xAA) ∧
    WellFormed (.er (some (List.replicate 255 1, 0xFF))) ∧ WellFormed (.er none) ∧ WellFormed (.wp [0x01] 0x01) := by
  refine ⟨payloadOk_replicate 256 0, rfl, ?_, rfl, rfl⟩
  rw [WellFormed, Instr.wellFormed, List.length_replicate]
  rfl

theorem witness_EncodeOfDecodeIsTheBytes :
    decode .commandLoop [0x43, 0xBC, 0x00, 0x01, 0x01, 0x55] = .ok (.er (some ([0x01], 0x01)), [0x55]) := by rfl

theorem witness_IndicesNamePagesAndSectors :
    pageAddr 1 = 0x08006000 ∧ pageAddr 104 = 0x0801FC00 ∧ pageAddr 255 = 0x08045800 ∧
    sectorAddr 1 = 0x08006000 ∧ sectorAddr 26 = 0x0801F000 ∧ sectorAddr 255 = 0x08104000 := by decide

theorem witness_ChecksumIgnoresOrder :
    List.Perm [0x01, 0x02, 0x03] ([0x03, 0x01, 0x02] : List Byte) ∧ xorfold [0x01, 0x02, 0x03] = 0x00 := by decide

theorem witness_ChecksumDetectsOneChangedByte :
    verify ([0x01] ++ 0x02 :: [0x01]) 0x02 = true ∧ (0x02 : Byte) ≠ 0x03 ∧ verify ([0x01] ++ 0x03 :: [0x01]) 0x02 = false ∧
    xorfold [0x01, 0x02, 0x01] = xorfold [0x02, 0x01, 0x01] ∧ verify [0x02, 0x01, 0x01] 0x02 = true := by decide

theorem witness_AddressBytesAssembleMostSignificantFirst :
    (hearing [0x08, 0x00, 0x60, 0x00] { loop with cs := .addr 0 }).rx = [.byte 0x08, .byte 0x00, .byte 0x60, .byte 0x00] ∧
    (deliverMany 4 (hearing [0x08, 0x00, 0x60, 0x00] { loop with cs := .addr 0 })).addr = some 0x08006000 := by decide

theorem witness_SendWordReversesAReceivedWord :
    loop.canSend 4 = true ∧ (failing 4 loop).canSend 4 = true ∧ (failing 3 loop).canSend 4 = false ∧
    (sendWord (wireWord 0x11 0x22 0x33 0x44) loop).state.tx = [0x44, 0x33, 0x22, 0x11] := by decide

theorem witness_FrameBodyIsCollectedInOrder :
    ([0xAA] : List Byte).length = (0x00 : Byte).toNat + 1 ∧ (List.replicate 256 (0 : Byte)).length = (0xFF : Byte).toNat + 1 ∧
    (deliverMany 1 (hearing [0xAA] { loop with cs := .fD 0, num := some 0 })).cs = .fCks := by
  refine ⟨by decide, List.length_replicate, by decide⟩

theorem witness_AWaitPointConsumesOneEvent :
    ({ loop with rx := [.timeout] } : State).rx = .timeout :: [] ∧ loop.cs.waits = true ∧ loop.rx = [] ∧
    ControlState.waits (.fD 255) = true := by decide

theorem witness_TimeoutEndsTheCommandSilently :
    ControlState.waits .awaitInit = true ∧ ControlState.waits .cmdOp = true ∧ ControlState.waits .cmdCp = true ∧
    ControlState.waits (.addr 3) = true ∧ ({ loop with rx := [.timeout] } : State).rx = .timeout :: [] ∧
    ({ loop.cfg with cmdTimeoutMode := .finish } : Config).cmdTimeoutMode = .finish := by decide

theorem witness_ErrorOfTheChannelFaultsAtItsSend :
    loop.txErrorIn = none ∧ (∃ t, exec .get loop = .next t ∧ t.tx = loop.tx ++ [0x79, 0x0B, 0x10, 0x00, 0x01, 0x02, 0x11,
      0x21, 0x31, 0x43, 0x44, 0x63, 0x73, 0x82, 0x92, 0x79]) ∧
    (after [0x00, 0xFF] (failing 0 loop)).cs = .fault .txIoError ∧ (after [0x00, 0xFF] (failing 15 loop)).cs = .fault .txIoError ∧
    (after [0x00, 0xFF] (failing 2 loop)).tx = [0x79, 0x0B] ∧
    (deliver (hearing [0xEF] { loop with cs := .cmdCp, cmd := some 0x11 })).tx = loop.tx ++ [0x1F] ∧
    (after [0xEF] (failing 0 { loop with cs := .cmdCp, cmd := some 0x11 })).cs = .fault .txIoError ∧
    (after [0xFC] (failing 0 { loop with cs := .cmdCp, cmd := some 0x03 })).cs = .fault .txIoError := by
  refine ⟨by decide, ⟨_, rfl, by decide⟩, by decide, by decide, by decide, by decide, by decide, by decide⟩

theorem witness_InitOpensTheCommandLoop :
    ({ loop with cs := .awaitInit } : State).canSend 1 = true ∧ (failing 1 loop).canSend 1 = true := by decide

theorem witness_AnyOtherFirstEventFailsTheHandshake :
    RxEvent.timeout ≠ .byte 0x7F ∧ RxEvent.byte 0x79 ≠ .byte 0x7F ∧
    (after [0x79] { loop with cs := .awaitInit }).cs = .initFailed := by decide

theorem witness_HeaderMismatchRunsNoHandler :
    (0xEF : Byte) ≠ ~~~0x11 ∧ loop.cs = .cmdOp ∧ (hearing [0x11, 0xEF] loop).rx = [.byte 0x11, .byte 0xEF] ∧
    loop.canSend 2 = true ∧ (0x00 : Byte) ≠ ~~~0x00 := by decide

theorem witness_UnknownOpcodeIsRefused :
    (0x03 : Byte) ∉ ([0x00, 0x01, 0x02, 0x11, 0x21, 0x31, 0x43, 0x44, 0x63, 0x73, 0x82, 0x92] : List Byte) ∧
    (hearing [0x03, 0xFC] loop).rx = [.byte 0x03, .byte (~~~0x03)] ∧ loop.canSend 1 = true := by decide

theorem witness_InitByteHasNoMeaningInTheLoop :
    (hearing [0x7F, 0x80] loop).rx = [.byte 0x7F, .byte 0x80] ∧ loop.canSend 1 = true ∧
    loop.cfg.hdrMismatchNacks = .one := by decide

theorem witness_GuardRefusesUnderReadoutProtection :
    (Instr.wp [0x01] 0x01).command = some .wp ∧ guarded.rop = true ∧ guarded.canSend 1 = true ∧
    (Instr.rm 0x08006000 0x68 0x00 0x00).command = some .rm ∧
    Command.opcode .rm ∈ ({ guarded.cfg with ropGuarded := [0x11] } : Config).ropGuarded := by decide

theorem witness_FirstReplyIsAckButForTheNotedThree :
    (∃ t, exec .ee loop = .next t ∧ t.tx = [0x1F]) ∧ (∃ t, exec .rp guarded = .next t ∧ t.tx = [0x1F]) ∧
    (∃ t, exec .rp loop = .next t ∧ t.tx = [0x79, 0x79]) ∧
    (∃ t, exec (.wp [0x01] 0x01) guarded = .next t ∧ t.tx = [0x1F]) := by
  refine ⟨⟨_, rfl, by decide⟩, ⟨_, rfl, by decide⟩, ⟨_, rfl, by decide⟩, ⟨_, rfl, by decide⟩⟩

theorem witness_GetCommandsReply : guarded.guardOpen .get = true ∧ guarded.canSend 16 = true := by decide
theorem witness_GetVersionReply : guarded.guardOpen .gv = true ∧ (failing 5 loop).canSend 5 = true := by decide
theorem witness_GetIdReply : guarded.guardOpen .gid = true ∧ (failing 5 loop).canSend 5 = true := by decide

theorem witness_ReadMemoryStreamsTheBytes :
    guarded.guardOpen .rm = true ∧ (0x70 : Byte) = addrXor 0x20005000 ∧ classify 0x20005000 ≠ .other ∧
    (0x00 : Byte) = readCountCks loop.cfg.readCountCks 0x00 ∧ storedFrom loop 0x20005000 1 ∧ storedFrom loop 0x08006000 8 ∧
    1 = (match loop.cfg.readLengthMode with | .exact => (0x00 : Byte).toNat + 1 | .words => 4 * ((0x00 : Byte).toNat / 4 + 1)) ∧
    loop.canSend (3 + 1) = true ∧ loop.canSend (3 + 256) = true := by
  unfold storedFrom
  decide

theorem witness_ReadMemoryRefusals :
    loop.guardOpen .rm = true ∧ loop.canSend 3 = true ∧ (0x69 : Byte) ≠ addrXor 0x08006000 ∧
    classify 0x1FFFF800 = .other ∧ (0x68 : Byte) = addrXor 0x08006000 ∧ classify 0x08006000 ≠ .other ∧
    (0xF8 : Byte) ≠ readCountCks loop.cfg.readCountCks 0x07 := by decide

theorem witness_ReadMemoryFaultsPastStorage :
    loop.guardOpen .rm = true ∧ (0x09 : Byte) = addrXor 0x0801FFFF ∧ classify 0x0801FFFF ≠ .other ∧ storedFrom loop 0x0801FFFF 1 ∧
    hasStorage loop.cfg (addrPlus 0x0801FFFF 1).toNat = false ∧ 1 < 2 ∧ loop.canSend (3 + 1) = true ∧
    2 = (match loop.cfg.readLengthMode with | .exact => (0x01 : Byte).toNat + 1 | .words => 4 * ((0x01 : Byte).toNat / 4 + 1)) ∧
    (0x01 : Byte) = readCountCks loop.cfg.readCountCks 0x01 := by
  unfold storedFrom
  decide

/-- Erased flash of `loop`. -/
theorem loop_flash_erased (z : Nat) (h1 : 0x08006000 ≤ z) (h2 : z ≤ 0x0801FFFF) : loop.mem.read z = 0xFF :=
  Memory.background_of_not_inRam (inRam_of_inFlash ((inFlash_iff z).2 ⟨h1, h2⟩))

theorem witness_WriteMemoryProgramsFlash :
    loop.mem.wf = true ∧ loop.guardOpen .wm = true ∧ (0x0A : Byte) = addrXor 0x0801FFFC ∧ (0xAA : Byte) = frameXor [0xAA] ∧
    1 ≤ ([0xAA] : List Byte).length ∧ ([0xAA] : List Byte).length ≤ 256 ∧
    4 = 4 * ((([0xAA] : List Byte).length - 1) / 4 + 1) ∧ 0x08006000 ≤ (0x0801FFFC : Addr).toNat ∧
    (0x0801FFFC : Addr).toNat + 4 ≤ 0x08020000 ∧ (0x0801FFFC : Addr).toNat % 4 = 0 ∧
    (∀ z, (0x0801FFFC : Addr).toNat ≤ z → z < (0x0801FFFC : Addr).toNat + 4 →
      loop.mem.read z = 0xFF ∧ sectorProtected loop z = false) ∧ loop.canSend 3 = true := by
  refine ⟨by decide, by decide, by decide, by decide, by decide, by decide, by decide, by decide, by decide, by decide,
    fun z h1 h2 => ⟨loop_flash_erased z ?_ ?_, ?_⟩,
    by decide⟩
  · simp at h1; omega
  · simp at h2; omega
  · simp [sectorProtected, loop, State.reset]

/-- Protected and written words. -/
theorem witness_WriteMemoryToFlashCompletesOnAnyContents :
    (holding 0x08006000 [0x11] { loop with wrp := 1 }).mem.wf = true ∧
    (holding 0x08006000 [0x11] { loop with wrp := 1 }).guardOpen .wm = true ∧
    (holding 0x08006000 [0x11] { loop with wrp := 1 }).canSend 3 = true ∧
    sectorProtected (holding 0x08006000 [0x11] { loop with wrp := 1 }) 0x08006000 = true ∧ (0x68 : Byte) = addrXor 0x08006000 ∧
    1 ≤ ([0, 0, 0, 0] : List Byte).length ∧ ([0, 0, 0, 0] : List Byte).length ≤ 256 ∧ 0x08006000 ≤ (0x08006000 : Addr).toNat ∧
    (0x08006000 : Addr).toNat + 4 ≤ 0x08020000 ∧ (0x08006000 : Addr).toNat % 4 = 0 ∧
    programmable loop 0x08006003 ∧ (0x03 : Byte) = frameXor [0, 0, 0, 0] ∧ 4 = 4 * ((([0, 0, 0, 0] : List Byte).length - 1) / 4 + 1) ∧
    (holding 0x08006000 [0x11] loop).mem.read 0x08006000 ≠ 0xFF := by
  unfold programmable
  decide

theorem witness_WriteMemoryFlashFaults :
    (0x6A : Byte) = addrXor 0x08006002 ∧ classify 0x08006002 = .flash ∧ (0x08006002 : Addr).toNat % 4 ≠ 0 ∧
    (0x0A : Byte) = addrXor 0x0801FFFC ∧ classify 0x0801FFFC = .flash ∧ (0x0801FFFC : Addr).toNat % 4 = 0 ∧
    1 ≤ ([1, 2, 3, 4, 5] : List Byte).length ∧ ([1, 2, 3, 4, 5] : List Byte).length ≤ 256 ∧
    0x08020000 < (0x0801FFFC : Addr).toNat + ([1, 2, 3, 4, 5] : List Byte).length ∧ (0x05 : Byte) = frameXor [1, 2, 3, 4, 5] ∧
    loop.canSend 2 = true ∧ loop.mem.wf = true ∧ loop.guardOpen .wm = true ∧ programmable loop 0x0801FFFF := by
  unfold programmable
  decide

theorem witness_WriteMemoryStoresRam :
    loop.mem.wf = true ∧ loop.guardOpen .wm = true ∧ (0x70 : Byte) = addrXor 0x20005000 ∧ (0x01 : Byte) = frameXor [0x01] ∧
    1 ≤ ([0x01] : List Byte).length ∧ ([0x01] : List Byte).length ≤ 256 ∧ 0x20000200 ≤ (0x20005000 : Addr).toNat ∧ (0x20005000 : Addr).toNat + ([0x01] : List Byte).length ≤ 0x20005001 ∧
    loop.canSend 3 = true ∧ loop.cfg.ramWriteAck = false ∧
    ({ loop.cfg with ramWriteAck := true } : Config).ramWriteAck = true := by decide

theorem witness_WriteMemoryRamFaultsPastTheWindow :
    (0x70 : Byte) = addrXor 0x20005000 ∧ classify 0x20005000 = .ram ∧ (0x02 : Byte) = frameXor [0x01, 0x02] ∧
    ([0x01, 0x02] : List Byte).length ≤ 256 ∧ 0x20005001 < (0x20005000 : Addr).toNat + ([0x01, 0x02] : List Byte).length ∧ loop.canSend 2 = true ∧
    loop.mem.wf = true ∧ loop.guardOpen .wm = true := by decide

theorem witness_WriteMemoryProgramsOptionBytesAndResets :
    (0x18 : Byte) = addrXor 0x1FFFF800 ∧ (0xFE : Byte) = frameXor [0xA5, 0x5A] ∧
    1 ≤ ([0xA5, 0x5A] : List Byte).length ∧ ([0xA5, 0x5A] : List Byte).length ≤ 256 ∧
    ([0xA5, 0x5A] : List Byte).length ≤ loop.cfg.obSize ∧ loop.canSend 3 = true ∧ loop.mem.wf = true ∧
    loop.guardOpen .wm = true := by decide

theorem witness_WriteMemoryRefusals :
    loop.guardOpen .wm = true ∧ loop.canSend 3 = true ∧ (0x69 : Byte) ≠ addrXor 0x08006000 ∧
    (0x68 : Byte) = addrXor 0x08006000 ∧ (0xAB : Byte) ≠ frameXor [0xAA] ∧
    (0x19 : Byte) = addrXor 0x1FFFF801 ∧ (0x01 : Byte) = frameXor [0x01] ∧ classify 0x1FFFF801 = .other ∧
    (0x1FFFF801 : Addr) ≠ 0x1FFFF800 ∧ (0x18 : Byte) = addrXor 0x1FFFF800 ∧
    1 ≤ ([0xAA] : List Byte).length ∧ ([0xAA] : List Byte).length ≤ 256 ∧ (List.replicate 17 (0 : Byte)).length ≤ 256 ∧
    loop.cfg.obSize < (List.replicate 17 (0 : Byte)).length ∧ (0x10 : Byte) = frameXor (List.replicate 17 0) := by decide

theorem witness_GoHandsOverOrRefuses :
    loop.guardOpen .go = true ∧ loop.canSend 2 = true ∧ (0x68 : Byte) = addrXor 0x08006000 ∧ storedFrom loop 0x08006000 8 ∧
    classify 0x08006000 ≠ .other ∧ (0x0A : Byte) = addrXor 0x0801FFFC ∧ storedFrom loop 0x0801FFFC 4 ∧
    hasStorage loop.cfg (addrPlus 0x0801FFFC 4).toNat = false ∧ classify 0x0801FFFC ≠ .other ∧
    (0x00 : Byte) ≠ addrXor 0x08006000 ∧ classify 0x1FFFF800 = .other := by
  unfold storedFrom
  decide

theorem witness_EraseAllErasesFlash :
    loop.mem.wf = true ∧ loop.guardOpen .er = true ∧ loop.canSend 2 = true ∧ flashPageList.head? = some 0x08006000 ∧
    flashPageList.getLast? = some 0x0801FC00 ∧ overlapsBootloader loop.cfg 0x08006000 = false ∧
    overlapsBootloader { loop.cfg with blTop := 0x08006000 } 0x08006000 = true := by decide

theorem witness_EraseListErasesItsPages :
    loop.mem.wf = true ∧ loop.guardOpen .er = true ∧ (∀ p ∈ ([1, 104] : List Byte), 1 ≤ p.toNat ∧ p.toNat ≤ 104) ∧
    1 ≤ ([1, 104] : List Byte).length ∧ ([1, 104] : List Byte).length ≤ 255 ∧ (0x68 : Byte) = frameXor [1, 104] ∧ loop.canSend 2 = true := by decide

theorem witness_EraseOnABadChecksum :
    1 ≤ ([0x01] : List Byte).length ∧ ([0x01] : List Byte).length ≤ 255 ∧ (0x00 : Byte) ≠ frameXor [0x01] ∧
    (∀ p ∈ ([0x01] : List Byte), 1 ≤ p.toNat ∧ p.toNat ≤ 104) ∧ loop.cfg.eraseCksFailMode = .abort ∧
    ({ loop.cfg with eraseCksFailMode := .proceed } : Config).eraseCksFailMode = .proceed ∧ loop.canSend 3 = true ∧
    ([0x68, 0x69] : List Byte) = [0x68] ++ 0x69 :: [] ∧ (0x01 : Byte) ≠ frameXor [0x68, 0x69] ∧ 104 < (0x69 : Byte).toNat ∧
    loop.mem.wf = true ∧ loop.guardOpen .er = true := by decide

theorem witness_EraseFaultsAtAnInvalidPage :
    (0x00 : Byte) = frameXor ([0x68] ++ 0x69 :: []) ∧ (∀ q ∈ ([0x68] : List Byte), 1 ≤ q.toNat ∧ q.toNat ≤ 104) ∧
    104 < (0x69 : Byte).toNat ∧ (0x00 : Byte).toNat = 0 ∧ (0x00 : Byte) = frameXor ([] ++ 0x00 :: []) ∧
    (([0x68] ++ 0x69 :: []) : List Byte).length ≤ 255 ∧ loop.canSend 1 = true ∧ loop.mem.wf = true ∧
    loop.guardOpen .er = true := by decide

theorem witness_ExtendedEraseAlwaysNacks : guarded.canSend 1 = true ∧ (failing 1 loop).canSend 1 = true := by decide

theorem witness_WriteProtectSetsTheListedSectors :
    loop.rop = false ∧ loop.obWritten = false ∧ (∀ p ∈ ([0x1A, 0x01] : List Byte), 1 ≤ p.toNat ∧ p.toNat ≤ 26) ∧
    1 ≤ ([0x1A, 0x01] : List Byte).length ∧ ([0x1A, 0x01] : List Byte).length ≤ 256 ∧ (0x1A : Byte) = frameXor [0x1A, 0x01] ∧
    loop.canSend 2 = true := by decide

theorem witness_WriteProtectRefusals :
    loop.canSend 2 = true ∧ loop.rop = false ∧ (0x00 : Byte) ≠ frameXor [0x01] ∧
    1 ≤ ([0x01] : List Byte).length ∧ ([0x01] : List Byte).length ≤ 256 ∧ (([] ++ 0x1B :: []) : List Byte).length ≤ 256 ∧
    (0x1B : Byte) = frameXor ([] ++ 0x1B :: []) ∧ 26 < (0x1B : Byte).toNat ∧ (0x00 : Byte) = frameXor ([] ++ 0x00 :: []) ∧
    guarded.rop = true := by decide

theorem witness_WriteUnprotectClearsEverySector :
    guarded.guardOpen .wu = true ∧ loop.obWritten = false ∧ loop.canSend 2 = true := by decide

theorem witness_ReadoutProtectSetsRopOnce :
    loop.canSend 2 = true ∧ loop.rop = false ∧ loop.obWritten = false ∧ guarded.rop = true := by decide

theorem witness_ReadoutUnprotectErasesFlashAndRam :
    guarded.guardOpen .ru = true ∧ guarded.obWritten = false ∧ guarded.canSend 2 = true := by decide

theorem witness_ProgramWordByItsCases :
    (0x08006002 : Addr).toNat % 4 ≠ 0 ∧ (0x08020000 : Addr).toNat % 4 = 0 ∧ classify 0x08020000 ≠ .flash ∧
    (0x0801FFFC : Addr).toNat % 4 = 0 ∧ classify 0x0801FFFC = .flash ∧ sectorProtected loop 0x0801FFFC = false ∧
    (∀ i, i < 4 → loop.mem.read (0x0801FFFC + i) = 0xFF) ∧ sectorProtected { loop with wrp := 0x2000000 } 0x0801FFFC = true ∧
    (∃ i, i < 4 ∧ (holding 0x0801FFFF [0x00] loop).mem.read (0x0801FFFC + i) ≠ 0xFF) ∧
    (holding 0x0801FFFF [0x00] loop).mem.wf = true := by decide

theorem witness_ErasePageByItsCases :
    classify 0x08020000 ≠ .flash ∧ ((0x08006200 : Addr).toNat - 0x08006000) % 0x400 ≠ 0 ∧ classify 0x0801FC00 = .flash ∧
    ((0x0801FC00 : Addr).toNat - 0x08006000) % 0x400 = 0 ∧ sectorProtected loop 0x0801FC00 = false ∧
    sectorProtected { loop with wrp := 0x2000000 } 0x0801FC00 = true ∧ loop.mem.wf = true := by decide

theorem witness_ErrorsAreLocalToTheCommand :
    loop.canSend 2 = true ∧ ProtocolError.timeout ≠ .initFailed ∧ ControlState.addrCks ≠ .cmdOp ∧
    ControlState.addrCks ≠ .cmdCp ∧ loop.cfg.cmdTimeoutMode = .proceed := by decide

theorem witness_ResetSequenceDecides :
    State.reset.cs = .boot ∧ State.reset.bootPin = true ∧
    ({ State.reset with bootPin := false, swrf := true } : State).swrf = true ∧
    ({ State.reset with bootPin := false } : State).bootPin = false ∧ State.reset.swrf = false := by decide

theorem witness_PowerOnKeepsNonVolatileState :
    loop.mem.wf = true ∧ (List.replicate 0x4E01 (0x00 : Byte)).length = 0x4E01 := ⟨by decide, List.length_replicate⟩

theorem witness_AStepRunsTheDecodedInstruction :
    WellFormed (.go 0x08006000 0x68) ∧ loop.cs = acceptState (Instr.go 0x08006000 0x68).acceptPoint ∧
    (hearing [0x21, 0xDE, 0x08, 0x00, 0x60, 0x00, 0x68, 0x55] loop).rx =
      (encode (.go 0x08006000 0x68)).map RxEvent.byte ++ [.byte 0x55] ∧
    ({ loop with cs := .awaitInit } : State).cs = acceptState Instr.init.acceptPoint := by decide

theorem witness_EveryStepIsARunOfSingleEvents :
    (hearing [0x00, 0xFF] loop).cs.waits = true ∧ (deliverMany 1 (hearing [0x00, 0xFF] loop)).cs.waits = true := by decide

/-- `loop` meets the invariant. -/
theorem witness_EveryStepKeepsTheInvariant : loop.Inv ∧ ∃ t, step loop = .next t := by
  refine ⟨⟨rfl, rfl, ?_, by simp [loop, State.reset]⟩, ⟨_, rfl⟩⟩
  intro r
  cases r <;> rfl

/-- A fault of R135 meets the invariant too. -/
theorem witness_OnlyAFaultStateFaults : ({ loop with cs := .fault .txIoError } : State).Inv :=
  ⟨rfl, rfl, rfl, fun _ => ⟨_, rfl⟩⟩

theorem witness_TransmitOnlyGrowsAndEventsKeepTheirOrder : ∃ t, step (hearing [0x01, 0xFE] loop) = .next t := ⟨_, rfl⟩

theorem witness_TerminalStatesAreFinal :
    ({ loop with cs := .handedOff 0 0 0 } : State).cs = .handedOff 0 0 0 ∧
    ({ loop with cs := .initFailed } : State).cs = .initFailed ∧
    ({ loop with cs := .fault .txIoError } : State).cs = .fault .txIoError := by decide

theorem witness_ProtectionChangesEndInTheReset :
    ∃ t, step (hearing [0x82, 0x7D] loop) = .next t ∧ t.rop ≠ loop.rop ∧ t.cs = .boot := ⟨_, rfl, by decide, by decide⟩

theorem witness_OtherCommandsKeepTheProtectionStatus :
    ∃ t, exec (.er none) loop = .next t ∧ Instr.er none ∉ ([.wu, .rp, .ru] : List Instr) := ⟨_, rfl, by decide⟩

theorem witness_OtherCommandsKeepMemory :
    ∃ t, exec .rp loop = .next t ∧ Instr.rp ≠ .ru ∧ (∀ a x ps y, Instr.rp ≠ .wm a x ps y) ∧ ∀ l, Instr.rp ≠ .er l := by
  exact ⟨_, rfl, by decide, by simp, by simp⟩

end Sys2Proof.Tests
end

section
/-! PROOFS. A step is a run of single receive events (spec/00_scope.md R7, spec/10_state.md R22, R25; log 2): each frame of a
command, delivered event by event, leaves the state that the meaning of the command puts together at once. -/

namespace Sys2Proof

/-! ## What decodes is an encoding -/

theorem payloadOk_iff {payload : List Byte} : payloadOk payload = true ↔ 1 ≤ payload.length ∧ payload.length ≤ 256 := by
  simp [payloadOk]

/-- A `number` byte and a body that decodes after it are a DATA or LIST frame (R65, R66). -/
theorem dataFrame_of_decodeBody {number cks : Byte} {body payload rest : List Byte}
    (h : decodeBody number body = .ok (payload, cks, rest)) :
    payloadOk payload = true ∧ dataFrame payload cks ++ rest = number :: body := by
  obtain ⟨rfl, hl, rfl⟩ := decodeBody_ok h
  have := (numberOf payload).isLt
  exact ⟨payloadOk_iff.mpr (by omega), by simp [dataFrame]⟩

/-- `number` is 0xFF only for a payload of 256 bytes (R70). -/
theorem numberOf_ne_iff {payload : List Byte} (h : payloadOk payload = true) :
    numberOf payload ≠ 0xFF ↔ payload.length ≤ 255 := by
  obtain ⟨h1, h2⟩ := payloadOk_iff.mp h
  have hlen := numberOf_toNat h1 h2
  rw [ne_eq, ← BitVec.toNat_inj, show (0xFF : Byte).toNat = 255 from rfl]
  omega

/-- Operand frames that decode are those of the instruction, which is well-formed (R63 to R66, R77). -/
theorem operandBytes_of_decodeOperands {c : Command} {bs rest : List Byte} {i : Instr}
    (h : decodeOperands c bs = .ok (i, rest)) : WellFormed i ∧ i.command = some c ∧ operandBytes i ++ rest = bs := by
  cases c <;> simp only [decodeOperands] at h
  case rm | go =>
    split at h <;> cases h
    simp [WellFormed, Instr.wellFormed, Instr.command, operandBytes, addrFrame]
  case wm =>
    split at h
    · split at h <;> cases h
      rename_i hb
      obtain ⟨hok, hf⟩ := dataFrame_of_decodeBody hb
      exact ⟨hok, rfl, by simp [operandBytes, addrFrame, hf]⟩
    · cases h
  case er =>
    split at h
    · cases h
    · split at h
      · cases h
        simp_all [WellFormed, Instr.wellFormed, Instr.command, operandBytes]
      · rename_i hn
        split at h <;> cases h
        rename_i hb
        obtain ⟨hok, hf⟩ := dataFrame_of_decodeBody hb
        obtain ⟨-, -, rfl⟩ := decodeBody_ok hb
        refine ⟨?_, rfl, hf⟩
        have := (numberOf_ne_iff hok).mp hn
        simp_all [WellFormed, Instr.wellFormed, payloadOk_iff]
  case wp =>
    split at h
    · cases h
    · split at h <;> cases h
      rename_i hb
      obtain ⟨hok, hf⟩ := dataFrame_of_decodeBody hb
      exact ⟨hok, rfl, hf⟩
  all_goals
    cases h
    exact ⟨rfl, rfl, rfl⟩

/-- Whatever decodes at an accept point is the encoding of a well-formed instruction of that point (R60 to R62, R74, R75). -/
theorem encode_of_decode {p : AcceptPoint} {bs rest : List Byte} {i : Instr} (h : decode p bs = .ok (i, rest)) :
    WellFormed i ∧ i.acceptPoint = p ∧ encode i ++ rest = bs := by
  cases p with
  | awaitInit =>
    simp only [decode, decodeInit] at h
    split at h
    · cases h
    · split at h <;> cases h
      simp_all [WellFormed, Instr.wellFormed, Instr.acceptPoint, Instr.command, encode]
  | commandLoop =>
    simp only [decode, decodeCommand] at h
    split at h
    · split at h
      · split at h
        · cases h
        · rename_i hcp _ c hop
          obtain ⟨hwf, hc, rfl⟩ := operandBytes_of_decodeOperands h
          refine ⟨hwf, by simp [Instr.acceptPoint, hc], ?_⟩
          simp [encode, hc, headerBytes, Command.opcode_of_ofOpcode hop, hcp]
      · cases h
    · cases h

end Sys2Proof

namespace Sys2Proof.Machine

/-- A command that is fetched is the next events, byte for byte (R60, R77). -/
theorem fetch_eq_some {p : AcceptPoint} {i : Instr} {s : State} (h : fetch p s = some i) :
    WellFormed i ∧ i.acceptPoint = p ∧ s.rx = (encode i).map RxEvent.byte ++ s.rx.drop (wireLength i) := by
  unfold fetch at h
  split at h <;> cases h
  rename_i rest hd
  obtain ⟨hwf, hp, hbs⟩ := encode_of_decode hd
  refine ⟨hwf, hp, ?_⟩
  have hrx := rx_eq_leadingBytes s.rx
  rw [← hbs, List.map_append, List.append_assoc] at hrx
  have hlen : wireLength i = ((encode i).map RxEvent.byte).length := by simp [encode_length]
  rw [hrx, hlen, List.drop_left]

/-! ## Runs of deliveries -/

/-- `n` deliveries lead from `s` to `t`, each at a wait point. -/
def Deliveries (n : Nat) (s t : State) : Prop :=
  (∀ k, k < n → (deliverMany k s).cs.waits = true) ∧ deliverMany n s = t

theorem Deliveries.zero (s : State) : Deliveries 0 s s := ⟨by simp, rfl⟩

theorem Deliveries.cons {n : Nat} {s t : State} (hw : s.cs.waits = true) (h : Deliveries n (deliver s) t) :
    Deliveries (n + 1) s t := by
  obtain ⟨hk, rfl⟩ := h
  refine ⟨fun k hlt => ?_, rfl⟩
  cases k with
  | zero => exact hw
  | succ k => exact hk k (by omega)

theorem Deliveries.trans {m n : Nat} {s t u : State} (h : Deliveries m s t) (h' : Deliveries n t u) :
    Deliveries (m + n) s u := by
  induction m generalizing s with
  | zero =>
    obtain ⟨-, rfl⟩ := h
    simpa using h'
  | succ m ih =>
    obtain ⟨hk, e⟩ := h
    rw [Nat.succ_add]
    exact .cons (hk 0 (by omega)) (ih ⟨fun k hlt => hk (k + 1) (by omega), e⟩)

/-- One byte is delivered at a wait point. -/
theorem Deliveries.byte {s : State} {b : Byte} {rest : List RxEvent} (hw : s.cs.waits = true) (hrx : s.rx = .byte b :: rest) :
    Deliveries 1 s (receiveByte b { s with rx := rest }).state :=
  .cons hw (deliver_cons hrx ▸ .zero _)

/-- At least one and at most `n` deliveries lead from `s` to `t`, each at a wait point. -/
def ReachesWithin (n : Nat) (s t : State) : Prop := ∃ m, 0 < m ∧ m ≤ n ∧ Deliveries m s t

theorem Deliveries.reachesWithin {n : Nat} {s t : State} (h : Deliveries (n + 1) s t) : ReachesWithin (n + 1) s t :=
  ⟨n + 1, by omega, Nat.le_refl _, h⟩

/-- Where a flow goes on, the deliveries go on; where it stops, they are over. -/
theorem ReachesWithin.andThen {m n : Nat} {s : State} {f : Flow} {k : State → Flow} (hf : ReachesWithin m s f.state)
    (hk : ∀ t, f = .go t → ReachesWithin n t (k t).state) : ReachesWithin (m + n) s (f.andThen k).state := by
  obtain ⟨i, hi, him, hd⟩ := hf
  cases f with
  | stop t => exact ⟨i, hi, by omega, hd⟩
  | go t =>
    obtain ⟨j, hj, hjn, hd'⟩ := hk t rfl
    exact ⟨i + j, by omega, by omega, hd.trans hd'⟩

/-! ## Frames, delivered byte by byte -/

/-- The header of a command selects its handler (R62, R111, R114). -/
theorem deliveries_header {s : State} (hcs : s.cs = .cmdOp) (c : Command) (ops : List Byte) {rest : List RxEvent}
    (hrx : s.rx = (headerBytes c ++ ops).map RxEvent.byte ++ rest) :
    Deliveries 2 s (dispatch c (issue c ops { s with rx := rest })).state := by
  have h := Deliveries.byte (by rw [hcs]; rfl) hrx
  simp only [receiveByte, hcs] at h
  simpa [receiveByte, headerStage, issue] using h.trans (.byte rfl rfl)

/-- Four address bytes are put together, most significant first (R69, R83). -/
theorem deliveries_addrBytes {s : State} (hcs : s.cs = .addr 0) (b0 b1 b2 b3 : Byte) {rest : List RxEvent}
    (hrx : s.rx = .byte b0 :: .byte b1 :: .byte b2 :: .byte b3 :: rest) :
    Deliveries 4 s { s with cs := .addrCks, addr := some (wireWord b0 b1 b2 b3), rx := rest } := by
  obtain ⟨cs, cmd, cmp, addr, acks, num, ncks, buf, cks, i, rop, wrp, swrf, bootPin, obWritten, mem, tx, rx⟩ := s
  cases hcs
  cases hrx
  exact .cons rfl (.cons rfl (.cons rfl (.cons rfl (.zero _))))

/-- An ADDR frame is received (R63, R87). -/
theorem deliveries_addrFrame {s : State} {f : Flow} (hcs : s.cs = .addr 0) (a : Addr) (x : Byte) {rest : List RxEvent}
    (hrx : s.rx = (addrFrame a x).map RxEvent.byte ++ rest) (hf : addrStage (receiveAddr a x s) = f) :
    Deliveries 5 s f.state := by
  subst hf
  have h := (deliveries_addrBytes hcs _ _ _ _ hrx).trans (.byte rfl rfl)
  rw [wireWord_byteOf] at h
  simpa [receiveByte, receiveAddr, hrx, addrFrame, wireBytes] using h

/-- A CNT frame is received (R64, R88). -/
theorem deliveries_count {s : State} {f : Flow} (hcs : s.cs = .rmN) (n y : Byte) {rest : List RxEvent}
    (hrx : s.rx = .byte n :: .byte y :: rest) (hf : countStage (receiveCount n y s) = f) : Deliveries 2 s f.state := by
  subst hf
  have h := Deliveries.byte (by rw [hcs]; rfl) hrx
  simp only [receiveByte, hcs] at h
  simpa [receiveByte, receiveCount, hrx] using h.trans (.byte rfl rfl)

/-- The `number` byte is received (R65, R66). -/
theorem deliveries_number {s : State} {f : Flow} (hcs : s.cs = .fN) (n : Byte) {rest : List RxEvent}
    (hrx : s.rx = .byte n :: rest) (hf : numberStage (receiveNumber n s) = f) : Deliveries 1 s f.state := by
  subst hf
  have h := Deliveries.byte (by rw [hcs]; rfl) hrx
  simpa [receiveByte, receiveNumber, hcs, hrx] using h

/-- A payload byte before the last one is stored, and the next one is waited for (R89). -/
theorem deliveries_payloadByte {s : State} {j : Nat} {n b : Byte} {rest : List RxEvent} (hcs : s.cs = .fD j)
    (hnum : s.num = some n) (hj : j < n.toNat) (hrx : s.rx = .byte b :: rest) :
    Deliveries 1 s { s with cs := .fD (j + 1), buf := s.buf.take j ++ [b], i := some (j + 1), rx := rest } := by
  have h := Deliveries.byte (by rw [hcs]; rfl) hrx
  simpa [receiveByte, hcs, receivePayloadByte, hnum, hj] using h

/-- After the last payload byte `NUM` is appended, and the checksum is waited for (R89). -/
theorem deliveries_lastPayloadByte {s : State} {n b : Byte} {rest : List RxEvent} (hcs : s.cs = .fD n.toNat)
    (hnum : s.num = some n) (hrx : s.rx = .byte b :: rest) :
    Deliveries 1 s
      { s with cs := .fCks, buf := s.buf.take n.toNat ++ [b] ++ [n], i := some (n.toNat + 1), rx := rest } := by
  have h := Deliveries.byte (by rw [hcs]; rfl) hrx
  simpa [receiveByte, hcs, receivePayloadByte, hnum] using h

/-- The rest of a payload is received after the bytes `got` (R89). -/
theorem deliveries_payload {s : State} {n : Byte} (got payload : List Byte) {rest : List RxEvent} (hcs : s.cs = .fD got.length)
    (hnum : s.num = some n) (hbuf : s.buf.take got.length = got) (hlen : got.length + payload.length = n.toNat + 1)
    (hne : payload ≠ []) (hrx : s.rx = payload.map RxEvent.byte ++ rest) :
    Deliveries payload.length s
      { s with cs := .fCks, buf := got ++ payload ++ [n], i := some (n.toNat + 1), rx := rest } := by
  induction payload generalizing s got with
  | nil => exact absurd rfl hne
  | cons b payload ih =>
    by_cases hlast : payload = []
    · subst hlast
      have hn : got.length = n.toNat := by simpa using hlen
      have h := deliveries_lastPayloadByte (hn ▸ hcs) hnum hrx
      rwa [← hn, hbuf, hn] at h
    · have hlen' : (got ++ [b]).length + payload.length = n.toNat + 1 := by
        simpa [Nat.add_assoc, Nat.add_comm 1] using hlen
      have hj : got.length < n.toNat := by
        have := List.length_pos_iff.mpr hlast
        simp only [List.length_append, List.length_singleton] at hlen'
        omega
      have h1 := deliveries_payloadByte hcs hnum hj hrx
      rw [hbuf] at h1
      have h := h1.trans (ih (got ++ [b]) (by simp) hnum (by simp) hlen' hlast rfl)
      simpa [Nat.add_comm] using h

/-- The payload and the checksum of a DATA or LIST frame are received (R65, R66, R89). -/
theorem deliveries_body {s : State} {f : Flow} {payload : List Byte} (hok : payloadOk payload = true) (hcs : s.cs = .fD 0)
    (hnum : s.num = some (numberOf payload)) (cks : Byte) {rest : List RxEvent}
    (hrx : s.rx = (payload ++ [cks]).map RxEvent.byte ++ rest) (hf : frameStage (receiveBody payload cks s) = f) :
    Deliveries (payload.length + 1) s f.state := by
  subst hf
  obtain ⟨h1, h2⟩ := payloadOk_iff.mp hok
  have hlen := numberOf_toNat h1 h2
  have hne : payload ≠ [] := List.length_pos_iff.mp h1
  have h := (deliveries_payload (rest := .byte cks :: rest) [] payload hcs hnum rfl (by simp [hlen]) hne (by simp [hrx])).trans
    (.byte rfl rfl)
  have hdrop : s.rx.drop (payload.length + 1) = rest := by rw [hrx, drop_frame]
  simpa [receiveByte, receiveBody, hlen, hdrop] using h

/-! ## Stages of a handler -/

/-- The running handler is the one whose opcode `CMD` holds (R21). -/
theorem running_eq {s : State} (c : Command) (h : s.cmd = some c.opcode) (k : Option Command → Flow) :
    running s k = k (some c) := by
  simp [running, h]

/-- A register read that goes on found a value (R24). -/
theorem reading_go {α : Type} {r : Register} {v : Option α} {s t : State} {k : α → Flow} (h : reading r v s k = .go t) :
    ∃ x, k x = .go t := by
  cases v with
  | none => cases h
  | some x => exact ⟨x, h⟩

theorem checkedAddr_go {s t : State} {k : Addr → Bool → Flow} (h : checkedAddr s k = .go t) : ∃ a ok, k a ok = .go t := by
  obtain ⟨a, h⟩ := reading_go h
  obtain ⟨x, h⟩ := reading_go h
  exact ⟨a, _, h⟩

/-- read-memory goes on from its ADDR frame with an ACK to the count byte (R123). -/
theorem rmAddrStage_go_eq {s t : State} (h : rmAddrStage s = .go t) : t = { s.sent [0x79] with cs := .rmN } := by
  obtain ⟨a, ok, h⟩ := checkedAddr_go h
  split at h
  · split at h
    · obtain ⟨u, hu, h⟩ := Flow.andThen_eq_go h
      cases h
      rw [ack_go hu]
    · exact absurd h (takeError_ne_go _ _ _)
  · exact absurd h (takeError_ne_go _ _ _)

/-- write-memory goes on from its ADDR frame with an ACK to `number` (R124). -/
theorem wmAddrStage_go_eq {s t : State} (h : wmAddrStage s = .go t) : t = { s.sent [0x79] with cs := .fN } := by
  obtain ⟨a, ok, h⟩ := checkedAddr_go h
  split at h
  · exact askNumber_go h
  · exact absurd h (takeError_ne_go _ _ _)

/-- A `number` other than 0xFF announces a list of pages (R127). -/
theorem erNumberStage_list {s : State} {n : Byte} (h : n ≠ 0xFF) :
    erNumberStage (receiveNumber n s) = startBody (receiveNumber n s) := by
  simp only [erNumberStage, receiveNumber_fields, reading_some, if_neg h]

/-- Nothing of erase follows the ALL form (R66). -/
theorem Flow.andThen_erBody_none (f : Flow) : f.andThen (erBody none) = f := by
  cases f <;> rfl

/-- A DATA or LIST frame is received by a handler that goes on at its `number` (R65, R66, R89). -/
theorem reachesWithin_dataFrame {s : State} {f : Flow} {payload : List Byte} (hok : payloadOk payload = true) (hcs : s.cs = .fN)
    (cks : Byte) {rest : List RxEvent} (hrx : s.rx = (dataFrame payload cks).map RxEvent.byte ++ rest)
    (hn : numberStage (receiveNumber (numberOf payload) s) = startBody (receiveNumber (numberOf payload) s))
    (hf : frameStage (receiveBody payload cks { receiveNumber (numberOf payload) s with cs := .fD 0, i := some 0 }) = f) :
    ReachesWithin (payload.length + 2) s f.state := by
  have hbody : (receiveNumber (numberOf payload) s).rx = (payload ++ [cks]).map RxEvent.byte ++ rest := by
    simp [receiveNumber, hrx, dataFrame]
  have h := (deliveries_number hcs _ hrx hn).trans (deliveries_body hok rfl rfl cks hbody hf)
  rw [Nat.add_comm] at h
  exact h.reachesWithin

/-! ## Commands: each meaning, from the head of the command loop, is a run of at most as many deliveries as it has bytes -/

section
variable {s : State} {rest : List RxEvent} (hcs : s.cs = .cmdOp)
include hcs

theorem execRm_reachesWithin {a : Addr} {x n y : Byte}
    (hrx : s.rx = (encode (.rm a x n y)).map RxEvent.byte ++ rest) :
    ∃ t, execRm a x n y { s with rx := rest } = .next t ∧ ReachesWithin 9 s t := by
  refine ⟨_, rfl, .andThen (m := 2) (n := 7) (deliveries_header hcs .rm _ hrx).reachesWithin fun t ht => ?_⟩
  obtain rfl := askAddr_go (acceptHeader_go ht)
  refine .andThen (m := 5) (n := 2) ?_ fun t ht => ?_
  · exact (deliveries_addrFrame rfl a x (rest := .byte n :: .byte y :: rest) rfl (running_eq .rm rfl _)).reachesWithin
  · obtain rfl := rmAddrStage_go_eq ht
    exact (deliveries_count rfl n y rfl (running_eq .rm rfl _)).reachesWithin

theorem execGo_reachesWithin {a : Addr} {x : Byte} (hrx : s.rx = (encode (.go a x)).map RxEvent.byte ++ rest) :
    ∃ t, execGo a x { s with rx := rest } = .next t ∧ ReachesWithin 7 s t := by
  refine ⟨_, rfl, .andThen (m := 2) (n := 5) (deliveries_header hcs .go _ hrx).reachesWithin fun t ht => ?_⟩
  obtain rfl := askAddr_go (acceptHeader_go ht)
  exact (deliveries_addrFrame rfl a x rfl (running_eq .go rfl _)).reachesWithin

theorem execWm_reachesWithin {a : Addr} {x y : Byte} {payload : List Byte} (hok : payloadOk payload = true)
    (hrx : s.rx = (encode (.wm a x payload y)).map RxEvent.byte ++ rest) :
    ∃ t, execWm a x payload y { s with rx := rest } = .next t ∧ ReachesWithin (2 + 5 + (payload.length + 2)) s t := by
  rw [Nat.add_assoc]
  refine ⟨_, rfl, .andThen (deliveries_header hcs .wm _ hrx).reachesWithin fun t ht => ?_⟩
  obtain rfl := askAddr_go (acceptHeader_go ht)
  refine .andThen ?_ fun t ht => ?_
  · exact (deliveries_addrFrame rfl a x (rest := (dataFrame payload y).map RxEvent.byte ++ rest) rfl
      (running_eq .wm rfl _)).reachesWithin
  · obtain rfl := wmAddrStage_go_eq ht
    exact reachesWithin_dataFrame hok rfl y rfl (running_eq .wm rfl _) (running_eq .wm rfl _)

theorem execWp_reachesWithin {indices : List Byte} {y : Byte} (hok : payloadOk indices = true)
    (hrx : s.rx = (encode (.wp indices y)).map RxEvent.byte ++ rest) :
    ∃ t, execWp indices y { s with rx := rest } = .next t ∧ ReachesWithin (2 + (indices.length + 2)) s t := by
  refine ⟨_, rfl, .andThen (deliveries_header hcs .wp _ hrx).reachesWithin fun t ht => ?_⟩
  obtain rfl := askNumber_go (acceptHeader_go ht)
  exact reachesWithin_dataFrame hok rfl y rfl (running_eq .wp rfl _) (running_eq .wp rfl _)

theorem execErAll_reachesWithin (hrx : s.rx = (encode (.er none)).map RxEvent.byte ++ rest) :
    ∃ t, execEr none { s with rx := rest } = .next t ∧ ReachesWithin 3 s t := by
  refine ⟨_, rfl, .andThen (m := 2) (n := 1) (deliveries_header hcs .er _ hrx).reachesWithin fun t ht => ?_⟩
  obtain rfl := askNumber_go (acceptHeader_go ht)
  rw [Flow.andThen_erBody_none]
  exact (deliveries_number rfl _ rfl (running_eq .er rfl _)).reachesWithin

theorem execErList_reachesWithin {indices : List Byte} {y : Byte} (hwf : WellFormed (.er (some (indices, y))))
    (hrx : s.rx = (encode (.er (some (indices, y)))).map RxEvent.byte ++ rest) :
    ∃ t, execEr (some (indices, y)) { s with rx := rest } = .next t ∧ ReachesWithin (2 + (indices.length + 2)) s t := by
  simp only [WellFormed, Instr.wellFormed, Bool.and_eq_true, decide_eq_true_eq] at hwf
  obtain ⟨h1, h2⟩ := hwf
  have hok : payloadOk indices = true := payloadOk_iff.mpr ⟨h1, h2.trans (by decide)⟩
  have hn : numberOf indices ≠ 0xFF := (numberOf_ne_iff hok).mpr h2
  refine ⟨_, rfl, .andThen (deliveries_header hcs .er _ hrx).reachesWithin fun t ht => ?_⟩
  obtain rfl := askNumber_go (acceptHeader_go ht)
  rw [erNumber, erNumberStage_list hn]
  exact reachesWithin_dataFrame hok rfl y rfl ((running_eq .er rfl _).trans (erNumberStage_list hn))
    (running_eq .er rfl _)

/-- The meaning of every command of the loop is a run of deliveries (R25, R114; log 2). -/
theorem exec_reachesWithin_of_cmdOp {i : Instr} (hwf : WellFormed i) (hi : i.acceptPoint = .commandLoop)
    (hrx : s.rx = (encode i).map RxEvent.byte ++ rest) :
    ∃ t, exec i { s with rx := rest } = .next t ∧ ReachesWithin (wireLength i) s t := by
  cases i with
  | init => cases hi
  | get => exact ⟨_, rfl, (deliveries_header hcs .get [] hrx).reachesWithin⟩
  | gv => exact ⟨_, rfl, (deliveries_header hcs .gv [] hrx).reachesWithin⟩
  | gid => exact ⟨_, rfl, (deliveries_header hcs .gid [] hrx).reachesWithin⟩
  | rm a x n y => exact execRm_reachesWithin hcs hrx
  | go a x => exact execGo_reachesWithin hcs hrx
  | wm a x payload y => exact execWm_reachesWithin hcs hwf hrx
  | er list =>
    cases list with
    | none => exact execErAll_reachesWithin hcs hrx
    | some l => exact execErList_reachesWithin hcs hwf hrx
  | ee => exact ⟨_, rfl, (deliveries_header hcs .ee [] hrx).reachesWithin⟩
  | wp indices y => exact execWp_reachesWithin hcs hwf hrx
  | wu => exact ⟨_, rfl, (deliveries_header hcs .wu [] hrx).reachesWithin⟩
  | rp => exact ⟨_, rfl, (deliveries_header hcs .rp [] hrx).reachesWithin⟩
  | ru => exact ⟨_, rfl, (deliveries_header hcs .ru [] hrx).reachesWithin⟩

end

/-- INIT is one delivery (R61, R109). -/
theorem execInit_reachesWithin {s : State} (hcs : s.cs = .awaitInit) {rest : List RxEvent}
    (hrx : s.rx = (encode .init).map RxEvent.byte ++ rest) :
    ∃ t, execInit { s with rx := rest } = .next t ∧ ReachesWithin 1 s t := by
  have h := Deliveries.byte (by rw [hcs]; rfl) hrx
  have hr : receiveByte Const.initByte { s with rx := rest } = initHandler { s with rx := rest } := by
    simp [receiveByte, hcs]
  exact ⟨_, rfl, hr ▸ h.reachesWithin⟩

/-- The meaning of a well-formed instruction at its accept point is a run of deliveries (R25; log 2). -/
theorem exec_reachesWithin {i : Instr} {s : State} {rest : List RxEvent} (hwf : WellFormed i)
    (hcs : s.cs = acceptState i.acceptPoint) (hrx : s.rx = (encode i).map RxEvent.byte ++ rest) :
    ∃ t, exec i { s with rx := rest } = .next t ∧ ReachesWithin (wireLength i) s t := by
  cases hp : i.acceptPoint with
  | awaitInit =>
    cases i <;> cases hp
    exact execInit_reachesWithin hcs hrx
  | commandLoop =>
    rw [hp] at hcs
    exact exec_reachesWithin_of_cmdOp hcs hwf hp hrx

/-! ## Steps -/

/-- The outcome of a step is what a run of deliveries leads to, with at least one where there is an event (R22, R25). -/
def StepIsRun (s : State) (o : Host.Outcome State Fault Refusal) : Prop :=
  ∃ n, n ≤ s.rx.length ∧ (s.rx ≠ [] → 0 < n) ∧ (∀ k, k < n → (deliverMany k s).cs.waits = true) ∧ o = .next (deliverMany n s)

theorem stepIsRun_deliver {s : State} (hw : s.cs.waits = true) : StepIsRun s (.next (deliver s)) := by
  cases hrx : s.rx with
  | nil => exact ⟨0, by simp, by simp [hrx], by simp, by simp [deliver_nil hrx]⟩
  | cons ev rest =>
    obtain ⟨hk, -⟩ := Deliveries.cons hw (.zero _)
    exact ⟨1, by simp [hrx], by simp, hk, rfl⟩

theorem stepIsRun_accept {s : State} (p : AcceptPoint) (hcs : s.cs = acceptState p) : StepIsRun s (stepAccept p exec s) := by
  unfold stepAccept
  split
  · rename_i i hf
    obtain ⟨hwf, rfl, hrx⟩ := fetch_eq_some hf
    obtain ⟨t, ht, n, hpos, hn, hk, rfl⟩ := exec_reachesWithin hwf hcs hrx
    refine ⟨n, hn.trans ?_, fun _ => hpos, hk, ht⟩
    rw [hrx, ← encode_length]
    simp
  · exact stepIsRun_deliver (by rw [hcs]; cases p <;> rfl)

/-- Settles O52: at an accept point by the runs of each command's frames, elsewhere by the one delivery. -/
theorem everyStepIsARunOfSingleEvents : Obligations.EveryStepIsARunOfSingleEvents := by
  unfold Obligations.EveryStepIsARunOfSingleEvents
  intro s hw
  change StepIsRun s (stepWith exec s)
  unfold stepWith
  split
  case h_2 hcs => exact stepIsRun_accept .awaitInit hcs
  case h_3 hcs => exact stepIsRun_accept .commandLoop hcs
  case h_1 hcs | h_12 hcs | h_13 hcs | h_14 hcs =>
    rw [hcs] at hw
    cases hw
  all_goals exact stepIsRun_deliver hw

end Sys2Proof.Machine
end

section
/-! PROOFS. What the piece of a handler between two waits may do: send, work on memory and protection, and end the step in one
of a few ways (spec/10_state.md R24, R30, R34 to R36, spec/60_exceptions.md R134, R135). One rule per shared operation; the
invariant and the frame of every step are read off these rules. -/

namespace Sys2Proof.Machine

/-! ## What a piece of a handler leaves as it is -/

/-- Memory is in canonical form and inside the address map (R39). -/
structure Memory.Stored (cfg : Config) (m : Memory) : Prop where
  wf : m.wf = true
  inMap : m.inMap cfg = true

/-- `TX` has grown, the events and the parameters are the same, and memory is still in order (R10, R22, R34, R39). -/
structure Extends (s t : State) : Prop where
  tx : ∃ d, t.tx = s.tx ++ d
  rx : t.rx = s.rx
  cfg : t.cfg = s.cfg
  stored : s.mem.Stored s.cfg → t.mem.Stored t.cfg

/-- The boot pin and the script of its levels are the same (R30). -/
def samePin (s t : State) : Prop := t.bootPin = s.bootPin ∧ t.pins = s.pins

/-- They are the same, or the block is at a reset and the pin at its next level (R30, R36; log 13). -/
def pinMovesAtReset (s t : State) : Prop :=
  samePin s t ∨ (t.cs = .boot ∧ t.bootPin = s.pins.headD s.bootPin ∧ t.pins = s.pins.tail)

/-- What holds from `s` to a state `t` in which the handler goes on. -/
structure Works (s t : State) : Prop extends Extends s t where
  pin : samePin s t
  obWritten : t.obWritten = s.obWritten

/-- The part of the state that `Works` speaks of. -/
def State.shared (s : State) : List Byte × List RxEvent × Config × Memory × Bool × List Bool × Bool :=
  (s.tx, s.rx, s.cfg, s.mem, s.bootPin, s.pins, s.obWritten)

theorem Works.refl (s : State) : Works s s := ⟨⟨⟨[], by simp⟩, rfl, rfl, id⟩, ⟨rfl, rfl⟩, rfl⟩

theorem Works.trans {s t u : State} (h : Works s t) (h' : Works t u) : Works s u := by
  obtain ⟨⟨⟨d, hd⟩, hrx, hcfg, hst⟩, ⟨hpin, hpins⟩, hob⟩ := h
  obtain ⟨⟨⟨d', hd'⟩, hrx', hcfg', hst'⟩, ⟨hpin', hpins'⟩, hob'⟩ := h'
  exact ⟨⟨⟨d ++ d', by rw [hd', hd, List.append_assoc]⟩, hrx'.trans hrx, hcfg'.trans hcfg, hst' ∘ hst⟩,
    ⟨hpin'.trans hpin, hpins'.trans hpins⟩, hob'.trans hob⟩

/-- The registers, the control state and the protection status do not count. -/
theorem Works.of_shared {s t : State} (e : t.shared = s.shared) : Works s t := by
  simp only [State.shared, Prod.mk.injEq] at e
  obtain ⟨htx, hrx, hcfg, hmem, hpin, hpins, hob⟩ := e
  exact ⟨⟨⟨[], by simp [htx]⟩, hrx, hcfg, by simp [hcfg, hmem]⟩, ⟨hpin, hpins⟩, hob⟩

theorem Works.keep {s t u : State} (h : Works s t) (e : u.shared = t.shared) : Works s u := h.trans (.of_shared e)

theorem works_sent (s : State) (bs : List Byte) : Works s (s.sent bs) :=
  ⟨⟨⟨bs, rfl⟩, rfl, rfl, id⟩, ⟨rfl, rfl⟩, rfl⟩

theorem works_mem {s : State} {m : Memory} {n : Nat} (h : s.mem.Stored s.cfg → m.Stored s.cfg) :
    Works s { s with mem := m, draws := n } :=
  ⟨⟨⟨[], by simp⟩, rfl, rfl, h⟩, ⟨rfl, rfl⟩, rfl⟩

/-! ## Memory stays in order (R39) -/

theorem inFlash_of_classify {a : Addr} (h : classify a = .flash) : 0x08006000 ≤ a.toNat ∧ a.toNat ≤ 0x0801FFFF := by
  unfold classify at h
  split at h
  · rename_i hf
    exact (inFlash_iff _).1 hf
  · split at h <;> cases h

theorem inRam_of_classify {a : Addr} (h : classify a = .ram) : inRam a.toNat = true := by
  unfold classify at h
  split at h
  · cases h
  · split at h
    · assumption
    · cases h

theorem hasStorage_of_flash (cfg : Config) {x : Nat} (h1 : 0x08006000 ≤ x) (h2 : x ≤ 0x0801FFFF) :
    hasStorage cfg x = true := by
  simp [hasStorage, (inFlash_iff x).2 ⟨h1, h2⟩]

@[simp] theorem freeBytes_length (k n : Nat) : (freeBytes k n).length = n := by simp [freeBytes]

/-- Bytes written inside class `Flash`. -/
theorem Memory.Stored.writeFlash {cfg : Config} {m : Memory} (h : m.Stored cfg) {a : Nat} {bs : List Byte}
    (h1 : 0x08006000 ≤ a) (h2 : a + bs.length ≤ 0x08020000) : (m.writeBytes a bs).Stored cfg :=
  ⟨Memory.wf_writeBytes h.wf a bs,
    Memory.inMap_writeBytes h.inMap a bs fun j hj => hasStorage_of_flash cfg (by omega) (by omega)⟩

/-- A range of class `Flash` filled. -/
theorem Memory.Stored.fillFlash {cfg : Config} {m : Memory} (h : m.Stored cfg) {lo n : Nat} (v : Byte)
    (h1 : 0x08006000 ≤ lo) (h2 : lo + n ≤ 0x08020000) : (m.fill lo n v).Stored cfg :=
  ⟨Memory.wf_fill (Memory.background_of_inFlash h1 h2) h.wf v,
    Memory.inMap_fill h.inMap (fun x hx1 hx2 => hasStorage_of_flash cfg (by omega) (by omega)) v⟩

theorem works_clearRam (s : State) : Works s (clearRam s) :=
  works_mem (n := s.draws) fun h => ⟨Memory.wf_forget h.wf _ _, Memory.inMap_forget h.inMap _ _⟩

theorem works_disableReadoutProtection (s : State) : Works s (disableReadoutProtection s) :=
  .trans (works_mem (n := s.draws) fun h => h.fillFlash s.cfg.erasedByte le_rfl (by decide)) (.of_shared rfl)

/-! ## The ways a step ends -/

/-- The registers are those of the control state, and `OB_WRITTEN` is consumed: what the invariant asks of `t` beside memory. -/
def State.Settled (t : State) : Prop := t.coherent ∧ (t.obWritten = true → ∃ r, t.cs = .fault r)

/-- A piece of a handler that started in `s`. Where it goes on, the state meets `G`. Where it stops, the state is settled if `ok`,
which stands for what the piece takes for granted of the registers, holds and no option byte waits for its reset. -/
def Piece (ok : Prop) (s : State) (G : State → Prop) : Flow → Prop
  | .go t => G t
  | .stop t => Extends s t ∧ pinMovesAtReset s t ∧ (ok → s.obWritten = false → t.Settled)

section
variable {ok : Prop} {G : State → Prop} {s u : State}

theorem Piece.andThen {f : Flow} {k : State → Flow} (hf : Piece ok s (Works s) f)
    (hk : ∀ t, Works s t → Piece ok s G (k t)) : Piece ok s G (f.andThen k) := by
  cases f with
  | go t => exact hk t hf
  | stop t => exact hf

theorem stop_piece {t : State} (h : Works s u) (e : t.shared = u.shared) (hc : ok → t.coherent) : Piece ok s G (.stop t) := by
  have ht := h.keep e
  exact ⟨ht.toExtends, .inl ht.pin, fun hok hob => ⟨hc hok, fun hob' => by rw [ht.obWritten, hob] at hob'; cases hob'⟩⟩

/-- A fault needs no consumed `OB_WRITTEN` (R135). -/
theorem raise_piece (h : Extends s u) (hp : samePin s u) {r : Fault} (hr : ok → r.ofSpec = true) : Piece ok s G (raise r u) :=
  ⟨⟨h.tx, h.rx, h.cfg, h.stored⟩, .inl hp, fun hok _ => ⟨hr hok, fun _ => ⟨r, rfl⟩⟩⟩

theorem fault_piece (h : Works s u) (r : Fault) (hr : r.ofSpec = true) : Piece ok s G (raise r u) :=
  raise_piece h.toExtends h.pin fun _ => hr

theorem finish_piece (h : Works s u) : Piece ok s G (finish u) :=
  stop_piece h rfl fun _ r => by cases r <;> rfl

/-- A reset is `State.restarted` but for the protection status, which a write of option bytes leaves open (R106). -/
theorem softwareReset_eq (s : State) : ∃ r w d,
    softwareReset s = { s.restarted with rop := r, wrp := w, obWritten := false, draws := d } ∧
    (s.obWritten = false → r = s.rop ∧ w = s.wrp) := by
  obtain ⟨r, w, d, h, hk⟩ := applyOptionBytes_eq s
  exact ⟨r, w, d, by rw [softwareReset, h]; rfl, fun hob => ⟨(hk hob).1, (hk hob).2.1⟩⟩

/-- No register keeps its value over a reset (R36). -/
theorem restarted_holdsExactly (s : State) : s.restarted.holdsExactly [] := fun r => by cases r <;> rfl

theorem fcReset_piece (h : Extends s u) (hp : samePin s u) : Piece ok s G (fcReset u) := by
  obtain ⟨r, w, d, e, -⟩ := softwareReset_eq u
  obtain ⟨hpin, hpins⟩ := hp
  rw [fcReset_eq, e]
  refine ⟨⟨h.tx, h.rx, h.cfg, h.stored⟩, .inr ⟨rfl, ?_, ?_⟩, fun _ _ => ⟨restarted_holdsExactly u, nofun⟩⟩
  · rw [← hpin, ← hpins]
    rfl
  · rw [← hpins]
    rfl

/-! ## Sending (R34, R86) -/

/-- A send appends its byte, or the channel fails. -/
theorem send_cases (b : Byte) (u : State) : send b u = .go (u.sent [b]) ∨ send b u = raise .txIoError u := by
  cases h : send b u with
  | go t => exact .inl (congrArg Flow.go (send_go h))
  | stop t =>
    unfold send at h
    split at h <;> cases h
    exact .inr rfl

theorem send_piece (h : Works s u) (b : Byte) : Piece ok s (Works s) (send b u) := by
  obtain e | e := send_cases b u <;> rw [e]
  · exact h.trans (works_sent u [b])
  · exact fault_piece h _ rfl

theorem ack_piece (h : Works s u) : Piece ok s (Works s) (ack u) := send_piece h _

theorem sendAll_piece (h : Works s u) (bs : List Byte) : Piece ok s (Works s) (sendAll bs u) := by
  induction bs generalizing u with
  | nil => exact h
  | cons b bs ih => exact (send_piece h b).andThen fun _ ht => ih ht

theorem ackFinish_piece (h : Works s u) : Piece ok s G ((ack u).andThen finish) := (ack_piece h).andThen fun _ => finish_piece

theorem ackReset_piece (h : Extends s u) (hp : samePin s u) : Piece ok s G ((ack u).andThen fcReset) := by
  obtain e | e := send_cases Const.ack u <;> rw [ack, e]
  · obtain ⟨d, hd⟩ := h.tx
    exact fcReset_piece (u := u.sent _) ⟨⟨d ++ [Const.ack], by simp [hd]⟩, h.rx, h.cfg, h.stored⟩ hp
  · exact raise_piece h hp fun _ => rfl

/-- ACK, bytes, ACK: the information commands (R120 to R122). -/
theorem reply_piece (h : Works s u) (bs : State → List Byte) :
    Piece ok s G ((ack u).andThen fun t => (sendAll (bs t) t).andThen fun t => (ack t).andThen finish) :=
  (ack_piece h).andThen fun _ ht => (sendAll_piece ht _).andThen fun _ => ackFinish_piece

theorem endSession_of_ne {e : ProtocolError} (he : e ≠ .initFailed) (s : State) :
    endSession e s = { endCommand s with cs := .initFailed } := by
  cases e with
  | initFailed => exact absurd rfl he
  | _ => rfl

theorem takeError_piece (h : Works s u) {e : ProtocolError} (he : e ≠ .initFailed) : Piece ok s G (takeError e u) := by
  refine (sendAll_piece h _).andThen fun t ht => ?_
  rw [endSession_of_ne he]
  split
  · exact stop_piece ht rfl fun _ r => by cases r <;> rfl
  · exact finish_piece ht

/-! ## Reading (R46) -/

theorem memRead_piece (h : Works s u) {a : Addr} {n : Nat} {k : Addr → Flow} (hk : ∀ v, Piece ok s G (k v)) :
    Piece ok s G (memRead a n u k) := by
  unfold memRead
  split
  · exact hk _
  · exact fault_piece h _ rfl

theorem handoff_piece (h : Works s u) (a : Addr) : Piece ok s G (handoff a u) :=
  memRead_piece h fun _ => memRead_piece h fun _ => stop_piece h rfl fun _ => trivial

theorem streamBytes_piece (h : Works s u) (n : Nat) (a : Addr) : Piece ok s (Works s) (streamBytes n a u) := by
  induction n generalizing a u with
  | zero => exact h
  | succ n ih => exact memRead_piece h fun _ => (send_piece h _).andThen fun _ ht => ih ht _

theorem streamWords_piece (h : Works s u) (n : Nat) (a : Addr) : Piece ok s (Works s) (streamWords n a u) := by
  induction n generalizing a u with
  | zero => exact h
  | succ n ih => exact memRead_piece h fun _ => (sendAll_piece h _).andThen fun _ ht => ih ht _

theorem streamMemory_piece (h : Works s u) (a : Addr) (n : Byte) : Piece ok s (Works s) (streamMemory a n u) := by
  unfold streamMemory
  split
  · exact streamBytes_piece h _ _
  · exact streamWords_piece h _ _

/-! ## Writing memory and protection (R47, R95 to R103) -/

theorem programWord_piece (h : Works s u) (a w : Addr) : Piece ok s (Works s) (programWord a w u) := by
  unfold programWord
  split
  · exact fault_piece h _ rfl
  · split
    · exact fault_piece h _ rfl
    · rename_i halign hclass
      obtain ⟨h1, h2⟩ := inFlash_of_classify (not_not.1 hclass)
      split
      · exact h.trans (works_mem fun hs => hs.writeFlash h1 (by rw [freeBytes_length]; omega))
      · exact h.trans (works_mem (n := u.draws) fun hs => hs.writeFlash h1 (by simp only [leBytes, List.length]; omega))

theorem programWords_piece (h : Works s u) (ws : List Addr) (a : Addr) : Piece ok s (Works s) (programWords ws a u) := by
  induction ws generalizing a u with
  | nil => exact h
  | cons w ws ih => exact (programWord_piece h a w).andThen fun _ ht => ih ht _

theorem memWriteByte_piece (h : Works s u) (a : Addr) (v : Byte) : Piece ok s (Works s) (memWriteByte a v u) := by
  unfold memWriteByte
  split
  · rename_i hram
    refine h.trans (works_mem (n := u.draws) fun hs => ⟨Memory.wf_write hs.wf _ _, Memory.inMap_write hs.inMap ?_ _⟩)
    simp [hasStorage, inRam_of_classify hram]
  · exact fault_piece h _ rfl

theorem storeBytes_piece (h : Works s u) (bs : List Byte) (a : Addr) : Piece ok s (Works s) (storeBytes bs a u) := by
  induction bs generalizing a u with
  | nil => exact h
  | cons b bs ih => exact (memWriteByte_piece h a b).andThen fun _ ht => ih ht _

theorem erasePage_piece (h : Works s u) (p : Addr) : Piece ok s (Works s) (erasePage p u) := by
  unfold erasePage
  split
  · exact fault_piece h _ rfl
  · rename_i hpage
    obtain ⟨hclass, halign⟩ := not_or.1 hpage
    obtain ⟨h1, h2⟩ := inFlash_of_classify (not_not.1 hclass)
    have hend : p.toNat + Const.pageSize ≤ 0x08020000 := by
      simp only [Const.flashBase, Const.pageSize] at halign ⊢
      omega
    split
    · exact h.trans (works_mem fun hs => hs.writeFlash h1 (by rwa [freeBytes_length]))
    · exact h.trans (works_mem (n := u.draws) fun hs => hs.fillFlash _ h1 hend)

theorem erasePages_piece (h : Works s u) (ps : List Addr) : Piece ok s (Works s) (erasePages ps u) := by
  induction ps generalizing u with
  | nil => exact h
  | cons p ps ih => exact (erasePage_piece h p).andThen fun _ ht => ih ht

theorem protectSectors_piece (h : Works s u) (as : List Addr) : Piece ok s (Works s) (protectSectors as u) := by
  induction as generalizing u with
  | nil => exact h
  | cons a as ih =>
    refine Piece.andThen ?_ fun _ ht => ih ht
    unfold enableWriteProtection
    split
    · exact fault_piece h _ rfl
    · exact h.keep rfl

/-- Option bytes are written inside their array, and the reset that follows consumes `OB_WRITTEN` (R99, R105, R106). -/
theorem programOptionBytes_piece (h : Works s u) (xs : List Byte) :
    Piece ok s G ((programOptionBytes xs u).andThen fun t => (ack t).andThen fcReset) := by
  unfold programOptionBytes
  split
  · exact fault_piece h _ rfl
  · rename_i hlen
    refine ackReset_piece ⟨h.tx, h.rx, h.cfg, fun hs => ?_⟩ h.pin
    obtain ⟨hwf, hmap⟩ := h.stored hs
    refine ⟨Memory.wf_writeBytes hwf _ _, Memory.inMap_writeBytes hmap _ _ fun j hj => ?_⟩
    have : j < u.cfg.obSize := by omega
    simp [hasStorage, inOptionBytes, this]

theorem arbitrateWrite_piece (h : Works s u) (a : Addr) (payload : List Byte) : Piece ok s G (arbitrateWrite a payload u) := by
  unfold arbitrateWrite
  split
  · exact (programWords_piece h _ _).andThen fun _ => ackFinish_piece
  · refine (storeBytes_piece h _ _).andThen fun t ht => ?_
    split
    · exact ackFinish_piece ht
    · exact finish_piece ht
  · split
    · exact programOptionBytes_piece h payload
    · exact takeError_piece h nofun

theorem eraseListed_piece (h : Works s u) (indices : List Byte) : Piece ok s G (eraseListed indices u) :=
  (erasePages_piece h _).andThen fun _ => ackFinish_piece

end

end Sys2Proof.Machine
end

section
/-! PROOFS. The stages of every handler, from an event at a wait point to the next wait or to the end of the step, and the
registers there (spec/10_state.md R21 to R25). -/

namespace Sys2Proof.Machine

/-- The handler goes on at a wait point, with the registers of that point if `ok`. -/
def AtWait (ok : Prop) (s t : State) : Prop := Works s t ∧ (ok → t.coherent)

/-- The registers that hold a DATA or LIST frame hold a value (R89). -/
def State.hasFrame (s : State) : Prop := s.num.isSome = true ∧ s.buf ≠ [] ∧ s.cks.isSome = true

section
variable {ok : Prop} {G : State → Prop} {s u : State}

/-! ## Headers (R111 to R118) -/

/-- A register that holds a value, if `ok`, is read. -/
theorem reading_piece {α : Type} (h : Works s u) {r : Register} {v : Option α} {k : α → Flow} (hv : ok → v.isSome = true)
    (hk : ∀ x, v = some x → Piece ok s G (k x)) : Piece ok s G (reading r v u k) := by
  cases v with
  | some x => exact hk x rfl
  | none => exact raise_piece h.toExtends h.pin fun hok => absurd (hv hok) nofun

theorem acceptHeader_piece (h : Works s u) (c : Command) {k : State → Flow} (hk : Piece ok s G (k u)) :
    Piece ok s G (acceptHeader c k u) := by
  unfold acceptHeader
  split
  · exact takeError_piece h nofun
  · exact hk

/-- ACK, then the wait at `p`, on the registers as they are. -/
theorem ackWait_piece (h : Works s u) (p : ControlState) (hw : ok → ({ u with cs := p } : State).coherent) :
    Piece ok s (AtWait ok s) ((ack u).andThen (waitAt p)) := by
  obtain e | e := send_cases Const.ack u <;> rw [ack, e]
  · exact ⟨h.trans ((works_sent u _).keep rfl), hw⟩
  · exact fault_piece h _ rfl

theorem wuHandler_piece (h : Works s u) : Piece ok s G (wuHandler u) :=
  (ack_piece h).andThen fun t ht =>
    have hr : Works s (removeWriteProtection t) := ht.keep rfl
    ackReset_piece hr.toExtends hr.pin

theorem rpHandler_piece (h : Works s u) : Piece ok s G (rpHandler u) := by
  unfold rpHandler
  split
  · exact takeError_piece h nofun
  · refine (ack_piece h).andThen fun t ht => ?_
    have hr : Works s (enableReadoutProtection t) := ht.keep rfl
    exact ackReset_piece hr.toExtends hr.pin

theorem ruHandler_piece (h : Works s u) : Piece ok s G (ruHandler u) :=
  (ack_piece h).andThen fun t ht => (ack_piece (ht.trans (works_disableReadoutProtection t))).andThen fun v hv =>
    have hr := hv.trans (works_clearRam v)
    fcReset_piece hr.toExtends hr.pin

/-- The handler of every command, up to its first wait (R114): at `ADDR(0)` or at `F_N`, or the step is over. -/
theorem dispatch_piece (h : Works s u) (c : Command)
    (ha : ok → c ∈ [.rm, .go, .wm] → ({ u with cs := .addr 0 } : State).coherent)
    (hn : ok → c ∈ [.er, .wp] → ({ u with cs := .fN } : State).coherent) : Piece ok s (AtWait ok s) (dispatch c u) := by
  cases c with
  | get => exact acceptHeader_piece h _ (reply_piece h _)
  | gv => exact acceptHeader_piece h _ (reply_piece h fun t => [t.cfg.versionByte, 0x00, 0x00])
  | gid => exact acceptHeader_piece h _ (reply_piece h fun t => [t.cfg.idBytes.1, t.cfg.idBytes.2.1, t.cfg.idBytes.2.2])
  | rm | go | wm => exact acceptHeader_piece h _ (ackWait_piece h _ fun hok => ha hok (by decide))
  | er | wp => exact acceptHeader_piece h _ (ackWait_piece h _ fun hok => hn hok (by decide))
  | ee => exact acceptHeader_piece h _ (takeError_piece h nofun)
  | wu => exact acceptHeader_piece h _ (wuHandler_piece h)
  | rp => exact acceptHeader_piece h _ (rpHandler_piece h)
  | ru => exact acceptHeader_piece h _ (ruHandler_piece h)

/-! ## Frames in the registers (R87 to R89) -/

theorem checkedAddr_piece (h : Works s u) (hr : ok → u.addr.isSome = true ∧ u.acks.isSome = true) {k : Addr → Bool → Flow}
    (hk : ∀ a v, Piece ok s G (k a v)) : Piece ok s G (checkedAddr u k) :=
  reading_piece h (fun hok => (hr hok).1) fun _ _ => reading_piece h (fun hok => (hr hok).2) fun _ _ => hk _ _

theorem checkedCount_piece (h : Works s u) (hr : ok → u.num.isSome = true ∧ u.ncks.isSome = true) {k : Byte → Bool → Flow}
    (hk : ∀ n v, Piece ok s G (k n v)) : Piece ok s G (checkedCount u k) :=
  reading_piece h (fun hok => (hr hok).1) fun _ _ => reading_piece h (fun hok => (hr hok).2) fun _ _ => hk _ _

theorem checkedFrame_piece (h : Works s u) (hr : ok → u.hasFrame) {k : List Byte → Bool → Flow}
    (hk : ∀ p v, Piece ok s G (k p v)) : Piece ok s G (checkedFrame u k) := by
  refine reading_piece h (fun hok => (hr hok).1) fun _ _ => reading_piece h (fun hok => ?_) fun _ _ =>
    reading_piece h (fun hok => (hr hok).2.2) fun _ _ => hk _ _
  obtain ⟨-, hbuf, -⟩ := hr hok
  simp [bufValue, hbuf]

/-! ## Stages after a frame (R123 to R130) -/

theorem rmAddrStage_piece (h : Works s u) (hr : ok → u.addr.isSome = true ∧ u.acks.isSome = true)
    (hw : ok → ({ u with cs := .rmN } : State).coherent) : Piece ok s (AtWait ok s) (rmAddrStage u) := by
  refine checkedAddr_piece h hr fun a v => ?_
  split
  · split
    · exact ackWait_piece h _ hw
    · exact takeError_piece h nofun
  · exact takeError_piece h nofun

theorem goAddrStage_piece (h : Works s u) (hr : ok → u.addr.isSome = true ∧ u.acks.isSome = true) :
    Piece ok s G (goAddrStage u) := by
  refine checkedAddr_piece h hr fun a v => ?_
  split
  · split
    · exact (ack_piece h).andThen fun _ ht => handoff_piece ht a
    · exact takeError_piece h nofun
  · exact takeError_piece h nofun

theorem wmAddrStage_piece (h : Works s u) (hr : ok → u.addr.isSome = true ∧ u.acks.isSome = true)
    (hw : ok → ({ u with cs := .fN } : State).coherent) : Piece ok s (AtWait ok s) (wmAddrStage u) := by
  refine checkedAddr_piece h hr fun a v => ?_
  split
  · exact ackWait_piece h _ hw
  · exact takeError_piece h nofun

theorem rmCountStage_piece (h : Works s u)
    (hr : ok → u.addr.isSome = true ∧ u.num.isSome = true ∧ u.ncks.isSome = true) : Piece ok s G (rmCountStage u) := by
  refine checkedCount_piece h (fun hok => (hr hok).2) fun n v => reading_piece h (fun hok => (hr hok).1) fun a _ => ?_
  split
  · exact (ack_piece h).andThen fun _ ht => (streamMemory_piece ht a n).andThen fun _ => finish_piece
  · exact takeError_piece h nofun

theorem startBody_piece (h : Works s u) (hw : ok → ({ u with i := some 0, cs := .fD 0 } : State).coherent) :
    Piece ok s (AtWait ok s) (startBody u) := ⟨h.keep rfl, hw⟩

theorem erNumberStage_piece (h : Works s u) (hr : ok → u.num.isSome = true)
    (hw : ok → ({ u with i := some 0, cs := .fD 0 } : State).coherent) : Piece ok s (AtWait ok s) (erNumberStage u) := by
  refine reading_piece h hr fun n _ => ?_
  split
  · exact (erasePages_piece h _).andThen fun _ => ackFinish_piece
  · exact startBody_piece h hw

theorem wmFrameStage_piece (h : Works s u) (hr : ok → u.hasFrame) (ha : ok → u.addr.isSome = true) :
    Piece ok s G (wmFrameStage u) := by
  refine checkedFrame_piece h hr fun p v => reading_piece h ha fun a _ => ?_
  split
  · exact arbitrateWrite_piece h a p
  · exact takeError_piece h nofun

theorem erFrameStage_piece (h : Works s u) (hr : ok → u.hasFrame) : Piece ok s G (erFrameStage u) := by
  refine checkedFrame_piece h hr fun p v => ?_
  split
  · exact eraseListed_piece h p
  · split
    · exact takeError_piece h nofun
    · exact (send_piece h _).andThen fun _ ht => eraseListed_piece ht p

theorem wpFrameStage_piece (h : Works s u) (hr : ok → u.hasFrame) : Piece ok s G (wpFrameStage u) := by
  refine checkedFrame_piece h hr fun p v => ?_
  split
  · exact (protectSectors_piece h _).andThen fun _ ht => ackReset_piece ht.toExtends ht.pin
  · exact takeError_piece h nofun

/-! ## The running handler (R21) -/

/-- `CMD` names the running handler, one of the listed if `ok`. -/
theorem running_piece (h : Works s u) {cs : List Command} (hc : ok → u.runsOneOf cs) {k : Option Command → Flow}
    (hnone : ¬ ok → Piece ok s G (k none)) (hk : ∀ c, (ok → c ∈ cs ∧ u.runsOneOf [c]) → Piece ok s G (k (some c))) :
    Piece ok s G (running u k) := by
  refine reading_piece h (fun hok => ?_) fun op hop => ?_
  · obtain ⟨c, -, hcmd, -⟩ := hc hok
    rw [hcmd]
    rfl
  · cases hf : Command.ofOpcode op with
    | none =>
      refine hnone fun hok => ?_
      obtain ⟨c, -, hcmd, -⟩ := hc hok
      rw [hop] at hcmd
      cases hcmd
      rw [Command.ofOpcode_opcode] at hf
      cases hf
    | some d =>
      obtain rfl := Command.opcode_of_ofOpcode hf
      refine hk d fun hok => ?_
      obtain ⟨c, hmem, hcmd, hcmp⟩ := hc hok
      obtain rfl : d = c := Command.opcode_injective (Option.some.inj (hop.symm.trans hcmd))
      exact ⟨hmem, d, by simp, hcmd, hcmp⟩

theorem stray_piece (h : Works s u) (hok : ¬ ok) : Piece ok s G (raise .strayWaitPoint u) :=
  raise_piece h.toExtends h.pin fun h' => absurd h' hok

end

/-! ## The registers at a wait point (R23, R24) -/

/-- A listed register holds a value. -/
theorem State.holdsExactly.holds {s : State} {rs : List Register} (h : s.holdsExactly rs) (r : Register)
    (hr : rs.contains r = true) : s.holds r = true := (h r).trans hr

/-- Values put into the registers `new`, some of which may have held one. -/
theorem State.holdsExactly.filled {s t : State} {rs rs' : List Register} (h : s.holdsExactly rs) (new : List Register)
    (ht : ∀ r, t.holds r = (s.holds r || new.contains r)) (hrs : ∀ r, rs'.contains r = (rs.contains r || new.contains r)) :
    t.holdsExactly rs' := fun r => by rw [ht, h r, hrs]

theorem State.holdsExactly.added {s t : State} {rs : List Register} (h : s.holdsExactly rs) (new : List Register)
    (ht : ∀ r, t.holds r = (s.holds r || new.contains r)) : t.holdsExactly (rs ++ new) :=
  h.filled new ht fun r => by simp

theorem State.runsOneOf.mono {s : State} {cs ds : List Command} (h : s.runsOneOf cs) (hsub : ∀ c ∈ cs, c ∈ ds) :
    s.runsOneOf ds := by
  obtain ⟨c, hc, hcmd⟩ := h
  exact ⟨c, hsub c hc, hcmd⟩

/-- write-memory comes to its DATA frame with an address (R124). -/
theorem frameRegisters_wm {s : State} (h : s.runsOneOf [.wm]) : s.frameRegisters = [.cmd, .cmp, .addr, .acks] := by
  obtain ⟨c, hc, hcmd, -⟩ := h
  obtain rfl := List.mem_singleton.1 hc
  rw [State.frameRegisters, if_pos hcmd]

/-- erase and write-protect come to their LIST frame with the header only (R127, R130). -/
theorem frameRegisters_list {s : State} {c : Command} (hc : c ∈ [Command.er, .wp]) (h : s.cmd = some c.opcode) :
    s.frameRegisters = [.cmd, .cmp] := by
  rw [State.frameRegisters, if_neg]
  intro h'
  rw [h] at h'
  obtain rfl := Command.opcode_injective (Option.some.inj h')
  simp at hc

/-- The registers of a wait at `F_N`, written out for the command at hand. -/
theorem State.holdsExactly.frame {s : State} {rs : List Register} (h : s.holdsExactly rs) (e : s.frameRegisters = rs) :
    s.holdsExactly s.frameRegisters := by rwa [e]

section
variable {ok : Prop} {s : State}

/-- The registers after the header (R111, R114). -/
theorem headerStage_piece (b : Byte) (hr : ok → s.holdsExactly [.cmd]) :
    Piece ok s (AtWait ok s) (headerStage { s with cmp := some b }) := by
  have h : Works s { s with cmp := some b } := .of_shared rfl
  refine reading_piece h (fun hok => (hr hok).holds .cmd rfl) fun op hop => reading_piece h (fun _ => rfl) fun cp hcp => ?_
  split
  · rename_i hcomp
    have hfill : ok → ({ s with cmp := some b } : State).holdsExactly [.cmd, .cmp] := fun hok =>
      (hr hok).added [.cmp] fun r => by cases r <;> simp [State.holds]
    split
    · rename_i c hc
      obtain rfl := Command.opcode_of_ofOpcode hc
      have hcmp : some b = some (complement c.opcode) := by rw [← hcomp, ← hcp]
      refine dispatch_piece h c (fun hok hmem => ⟨⟨c, hmem, hop, hcmp⟩, hfill hok⟩) fun hok hmem => ?_
      exact ⟨⟨c, List.mem_cons_of_mem _ hmem, hop, hcmp⟩, (hfill hok).frame (frameRegisters_list hmem hop)⟩
    · exact takeError_piece h nofun
  · exact takeError_piece h nofun

theorem addrStage_piece (b : Byte) (hr : ok → s.runsOneOf [.rm, .go, .wm] ∧ s.holdsExactly [.cmd, .cmp, .addr]) :
    Piece ok s (AtWait ok s) (addrStage { s with acks := some b }) := by
  have h : Works s { s with acks := some b } := .of_shared rfl
  have hread : ok → s.addr.isSome = true ∧ (some b).isSome = true := fun hok => ⟨(hr hok).2.holds .addr rfl, rfl⟩
  have hfill : ok → ({ s with acks := some b } : State).holdsExactly [.cmd, .cmp, .addr, .acks] := fun hok =>
    (hr hok).2.added [.acks] fun r => by cases r <;> simp [State.holds]
  refine running_piece h (fun hok => (hr hok).1) (stray_piece h) fun c hc => ?_
  cases c
  case rm => exact rmAddrStage_piece h hread fun hok => ⟨(hc hok).2, hfill hok⟩
  case go => exact goAddrStage_piece h hread
  case wm =>
    exact wmAddrStage_piece h hread fun hok =>
      ⟨(hc hok).2.mono (by decide), (hfill hok).frame (frameRegisters_wm (hc hok).2)⟩
  all_goals exact stray_piece h fun hok => absurd (hc hok).1 (by decide)

theorem countStage_piece (b : Byte) (hr : ok → s.runsOneOf [.rm] ∧ s.holdsExactly [.cmd, .cmp, .addr, .acks, .num]) :
    Piece ok s (AtWait ok s) (countStage { s with ncks := some b }) := by
  have h : Works s { s with ncks := some b } := .of_shared rfl
  refine running_piece h (fun hok => (hr hok).1) (stray_piece h) fun c hc => ?_
  cases c
  case rm => exact rmCountStage_piece h fun hok => ⟨(hr hok).2.holds .addr rfl, (hr hok).2.holds .num rfl, rfl⟩
  all_goals exact stray_piece h fun hok => absurd (hc hok).1 (by decide)

theorem numberStage_piece (b : Byte) (hr : ok → s.runsOneOf [.wm, .er, .wp] ∧ s.holdsExactly s.frameRegisters) :
    Piece ok s (AtWait ok s) (numberStage { s with num := some b }) := by
  have h : Works s { s with num := some b } := .of_shared rfl
  have hw : ok → ({ s with num := some b, i := some 0, cs := .fD 0 } : State).coherent := fun hok => by
    obtain ⟨hruns, hregs⟩ := hr hok
    have hbuf : s.buf = [] := by
      have := hregs .buf
      unfold State.frameRegisters at this
      split at this <;> simpa [State.holds] using this
    refine ⟨hruns, ?_, rfl, by simp [hbuf], fun n _ => n.toNat.zero_le⟩
    exact hregs.added [.num, .i] fun r => by cases r <;> simp [State.holds]
  refine running_piece h (fun hok => (hr hok).1) (stray_piece h) fun c hc => ?_
  cases c
  case er => exact erNumberStage_piece h (fun _ => rfl) hw
  case wm | wp => exact startBody_piece h hw
  all_goals exact stray_piece h fun hok => absurd (hc hok).1 (by decide)

theorem frameStage_piece (b : Byte)
    (hr : ok → s.runsOneOf [.wm, .er, .wp] ∧ s.holdsExactly (s.frameRegisters ++ [.num, .i, .buf])) :
    Piece ok s (AtWait ok s) (frameStage { s with cks := some b }) := by
  have h : Works s { s with cks := some b } := .of_shared rfl
  have hframe : ok → ({ s with cks := some b } : State).hasFrame := fun hok => by
    obtain ⟨-, hregs⟩ := hr hok
    have hbuf := hregs.holds .buf (by simp)
    exact ⟨hregs.holds .num (by simp), by simpa [State.holds] using hbuf, rfl⟩
  refine running_piece h (fun hok => (hr hok).1) (stray_piece h) fun c hc => ?_
  cases c
  case wm =>
    refine wmFrameStage_piece h hframe fun hok => ?_
    have hregs := (hr hok).2
    rw [frameRegisters_wm (s := s) (hc hok).2] at hregs
    exact hregs.holds .addr rfl
  case er => exact erFrameStage_piece h hframe
  case wp => exact wpFrameStage_piece h hframe
  all_goals exact stray_piece h fun hok => absurd (hc hok).1 (by decide)

end

end Sys2Proof.Machine
end

section
/-! PROOFS. The invariant, and the frame of every step: one event at a time (spec/10_state.md R22, R24, R30, R34 to R36). -/

namespace Sys2Proof.Machine

/-! ## One event (R22, R85) -/

section
variable {ok : Prop} {s : State}

theorem receiveAddrByte_piece (k : Fin 4) (b : Byte) (hcs : s.cs = .addr k) (hr : ok → s.coherent) :
    Piece ok s (AtWait ok s) (receiveAddrByte k b s) := by
  simp only [State.coherent, hcs] at hr
  have hw : ok → ∀ a, ({ s with cs := if h : k.val + 1 < 4 then .addr ⟨k.val + 1, h⟩ else .addrCks, addr := some a } :
      State).coherent := by
    intro hok a
    obtain ⟨hruns, hregs⟩ := hr hok
    have hfill : ({ s with addr := some a } : State).holdsExactly [.cmd, .cmp, .addr] := by
      refine hregs.filled [.addr] (fun r => by cases r <;> simp [State.holds]) fun r => ?_
      split <;> cases r <;> rfl
    split <;> exact ⟨hruns, hfill⟩
  by_cases hk : k.val = 0
  · simp only [receiveAddrByte, if_pos hk]
    exact ⟨.of_shared rfl, fun hok => hw hok _⟩
  · simp only [receiveAddrByte, if_neg hk]
    refine reading_piece (.refl s) (fun hok => ?_) fun a _ => ⟨.of_shared rfl, fun hok => hw hok _⟩
    have hregs := (hr hok).2
    rw [if_neg hk] at hregs
    exact hregs.holds .addr rfl

theorem receivePayloadByte_piece (j : Nat) (b : Byte) (hcs : s.cs = .fD j) (hr : ok → s.coherent) :
    Piece ok s (AtWait ok s) (receivePayloadByte j b s) := by
  simp only [State.coherent, hcs] at hr
  have hfill : ok → ∀ bs : List Byte, bs ≠ [] → ∀ m, ({ s with buf := bs, i := some m } : State).holdsExactly
      (s.frameRegisters ++ [.num, .i, .buf]) := by
    intro hok bs hbs m
    obtain ⟨-, hregs, -⟩ := hr hok
    refine hregs.filled [.i, .buf] (fun r => by cases r <;> simp [State.holds, hbs]) fun r => ?_
    split <;> cases r <;> simp
  have htake : ok → (s.buf.take j ++ [b]).length = j + 1 := by
    intro hok
    obtain ⟨-, -, -, hlen, -⟩ := hr hok
    simp [hlen]
  refine reading_piece (.refl s) (fun hok => ?_) fun n hn => ?_
  · exact (hr hok).2.1.holds .num (by split <;> simp)
  · split
    · rename_i hj
      refine ⟨.of_shared rfl, fun hok => ?_⟩
      refine ⟨(hr hok).1, hfill hok _ (by simp) _, rfl, htake hok, fun n' hn' => ?_⟩
      obtain rfl : n = n' := Option.some.inj (hn.symm.trans hn')
      exact hj
    · rename_i hj
      refine ⟨.of_shared rfl, fun hok => ?_⟩
      obtain ⟨hruns, -, -, -, hle⟩ := hr hok
      refine ⟨hruns, hfill hok _ (by simp) _, fun n' hn' => ?_⟩
      obtain rfl : n = n' := Option.some.inj (hn.symm.trans hn')
      obtain rfl : j = n.toNat := Nat.le_antisymm (hle n hn) (not_lt.1 hj)
      exact ⟨rfl, by simpa using htake hok, by simp⟩

/-- The handshake fails with the registers as they are: none has held a value yet (R110). -/
theorem initFailed_piece (hr : ok → s.holdsExactly []) : Piece ok s (AtWait ok s) (takeError .initFailed s) :=
  stop_piece (.refl s) rfl hr

/-- The block does not wait, and the event is dropped (log 1). -/
theorem dropped_piece (hr : ok → s.coherent) : Piece ok s (AtWait ok s) (.stop s) := stop_piece (.refl s) rfl hr

/-- What a byte does at each control state (R85). -/
theorem receiveByte_piece (b : Byte) (hr : ok → s.coherent) : Piece ok s (AtWait ok s) (receiveByte b s) := by
  have hr' := hr
  unfold State.coherent at hr
  unfold receiveByte
  split <;> rename_i hcs <;> simp only [hcs] at hr
  case h_1 =>
    split
    · exact ackFinish_piece (.refl s)
    · exact initFailed_piece hr
  case h_2 =>
    exact ⟨.of_shared rfl, fun hok => (hr hok).added [.cmd] fun r => by cases r <;> simp [State.holds]⟩
  case h_3 => exact headerStage_piece b hr
  case h_4 k => exact receiveAddrByte_piece k b hcs hr'
  case h_5 => exact addrStage_piece b hr
  case h_6 =>
    exact ⟨.of_shared rfl, fun hok =>
      ⟨(hr hok).1, (hr hok).2.added [.num] fun r => by cases r <;> simp [State.holds]⟩⟩
  case h_7 => exact countStage_piece b hr
  case h_8 => exact numberStage_piece b hr
  case h_9 j => exact receivePayloadByte_piece j b hcs hr'
  case h_10 => exact frameStage_piece b fun hok => ⟨(hr hok).1, (hr hok).2.1⟩
  all_goals exact dropped_piece hr'

theorem receiveTimeout_piece (hr : ok → s.coherent) : Piece ok s (AtWait ok s) (receiveTimeout s) := by
  unfold receiveTimeout
  split
  case h_1 hcs => exact initFailed_piece fun hok => by simpa only [State.coherent, hcs] using hr hok
  case h_11 | h_12 | h_13 | h_14 => exact dropped_piece hr
  all_goals exact takeError_piece (.refl s) nofun

theorem receive_piece (ev : RxEvent) (hr : ok → s.coherent) : Piece ok s (AtWait ok s) (receive ev s) := by
  cases ev with
  | byte b => exact receiveByte_piece b hr
  | timeout => exact receiveTimeout_piece hr

end

/-! ## Steps -/

/-- What a piece of a handler comes to, at its next wait or at its end. -/
theorem Piece.state {ok : Prop} {s : State} {f : Flow} (h : Piece ok s (AtWait ok s) f) :
    Extends s f.state ∧ pinMovesAtReset s f.state ∧ (ok → s.obWritten = false → f.state.Settled) := by
  cases f with
  | stop t => exact h
  | go t =>
    obtain ⟨hworks, hcoh⟩ := h
    refine ⟨hworks.toExtends, .inl hworks.pin, fun hok hob => ⟨hcoh hok, fun hob' => ?_⟩⟩
    rw [Flow.state_go, hworks.obWritten, hob] at hob'
    cases hob'

theorem Piece.inv {s : State} {f : Flow} (h : Piece s.coherent s (AtWait s.coherent s) f) (hs : s.Inv)
    (hob : s.obWritten = false) : f.state.Inv := by
  obtain ⟨hext, -, hend⟩ := h.state
  obtain ⟨hwf, hmap⟩ := hext.stored ⟨hs.memWf, hs.memInMap⟩
  obtain ⟨hcoh, hob'⟩ := hend hs.registers hob
  exact ⟨hwf, hmap, hcoh, hob'⟩

/-- The reset sequence reads and clears `SWRF`, then waits for INIT or hands off (R150, R152). -/
theorem bootSequence_piece {ok : Prop} {s : State} (hcs : s.cs = .boot) (hr : ok → s.coherent) :
    Piece ok s (AtWait ok s) (bootSequence s) := by
  simp only [State.coherent, hcs] at hr
  unfold bootSequence
  dsimp only
  split
  · exact stop_piece (.refl s) rfl hr
  · exact handoff_piece (s := s) (u := { s with swrf := false }) (.of_shared rfl) _

/-- What a step does: the reset sequence, a run of deliveries, nothing, or the answer of the fault (R25, R35, R149). -/
theorem step_cases (s : State) :
    (s.cs = .boot ∧ step s = .next (bootSequence s).state) ∨
    (∃ n, (∀ k, k < n → (deliverMany k s).cs.waits = true) ∧ step s = .next (deliverMany n s)) ∨
    (∃ r, s.cs = .fault r ∧ step s = .fault r) := by
  cases hw : s.cs.waits with
  | true =>
    obtain ⟨n, -, -, hk, h⟩ := everyStepIsARunOfSingleEvents s hw
    exact .inr (.inl ⟨n, hk, h⟩)
  | false =>
    unfold step stepWith
    split <;> rename_i hcs
    case h_1 => exact .inl ⟨hcs, rfl⟩
    case h_14 r => exact .inr (.inr ⟨r, hcs, rfl⟩)
    case h_12 | h_13 => exact .inr (.inl ⟨0, by simp, rfl⟩)
    all_goals
      rw [hcs] at hw
      cases hw

/-- What every delivery at a wait point keeps, a run of deliveries keeps. -/
theorem deliverMany_keeps {P : State → Prop} (hP : ∀ s, s.cs.waits = true → P s → P (deliver s)) {n : Nat} {s : State}
    (hk : ∀ k, k < n → (deliverMany k s).cs.waits = true) (hs : P s) : P (deliverMany n s) := by
  induction n generalizing s with
  | zero => exact hs
  | succ n ih => exact ih (fun k hlt => hk (k + 1) (by omega)) (hP s (hk 0 (by omega)) hs)

/-! ## The invariant -/

/-- `OB_WRITTEN` is set in a fault state only. -/
theorem State.Inv.obWritten_eq_false {s : State} (hs : s.Inv) (hcs : ∀ r, s.cs ≠ .fault r) : s.obWritten = false := by
  rw [Bool.eq_false_iff]
  intro hob
  obtain ⟨r, hr⟩ := hs.obWritten hob
  exact hcs r hr

theorem deliver_inv {s : State} (hw : s.cs.waits = true) (hs : s.Inv) : (deliver s).Inv := by
  have hob := hs.obWritten_eq_false fun r hr => by rw [hr] at hw; cases hw
  cases hrx : s.rx with
  | nil => rwa [deliver_nil hrx]
  | cons ev rest =>
    rw [deliver_cons hrx]
    exact (receive_piece ev id).inv (s := { s with rx := rest }) ⟨hs.memWf, hs.memInMap, hs.registers, hs.obWritten⟩ hob

/-- Settles O53: the reset sequence keeps the invariant, and so does every delivery of a run. -/
theorem everyStepKeepsTheInvariant : Obligations.EveryStepKeepsTheInvariant := by
  unfold Obligations.EveryStepKeepsTheInvariant
  intro s t hs h
  obtain ⟨hcs, e⟩ | ⟨n, hk, e⟩ | ⟨r, -, e⟩ := step_cases s <;> rw [e] at h <;> cases h
  · exact (bootSequence_piece hcs id).inv hs (hs.obWritten_eq_false fun r hr => by rw [hcs] at hr; cases hr)
  · exact deliverMany_keeps (fun _ => deliver_inv) hk hs

/-- Settles O55: a step answers a next state but in a fault state, whose reason the invariant bounds. -/
theorem onlyAFaultStateFaults : Obligations.OnlyAFaultStateFaults := by
  unfold Obligations.OnlyAFaultStateFaults
  intro s hs
  obtain ⟨-, e⟩ | ⟨n, -, e⟩ | ⟨r, hr, e⟩ := step_cases s
  · exact .inl ⟨_, e, everyStepKeepsTheInvariant _ _ hs e⟩
  · exact .inl ⟨_, e, everyStepKeepsTheInvariant _ _ hs e⟩
  · have hcoh := hs.registers
    simp only [State.coherent, hr] at hcoh
    exact .inr ⟨r, hr, hcoh, e⟩

/-- Settles O54: no register holds a value and no byte is listed. -/
theorem resetMeetsTheInvariant : Obligations.ResetMeetsTheInvariant := by
  unfold Obligations.ResetMeetsTheInvariant
  exact ⟨rfl, rfl, fun r => by cases r <;> rfl, nofun⟩

/-! ## The frame of every step -/

/-- `TX` has grown, the events left are an end part, the parameters are the same, the pin moves at a reset only. -/
def StepFrame (s t : State) : Prop :=
  (∃ d, t.tx = s.tx ++ d) ∧ (∃ u, s.rx = u ++ t.rx) ∧ t.cfg = s.cfg ∧ pinMovesAtReset s t

theorem StepFrame.refl (s : State) : StepFrame s s := ⟨⟨[], by simp⟩, ⟨[], rfl⟩, rfl, .inl ⟨rfl, rfl⟩⟩

/-- A delivery at a wait point, which is no reset, extends the frame of what came before. -/
theorem StepFrame.deliver {s t : State} (hw : t.cs.waits = true) (h : StepFrame s t) : StepFrame s (deliver t) := by
  cases hrx : t.rx with
  | nil => rwa [deliver_nil hrx]
  | cons ev rest =>
    rw [deliver_cons hrx]
    obtain ⟨⟨⟨d', hd'⟩, hrx', hcfg', -⟩, hpin', -⟩ :=
      (receive_piece (ok := False) (s := { t with rx := rest }) ev nofun).state
    obtain ⟨⟨d, hd⟩, ⟨u, hu⟩, hcfg, hpin | ⟨hboot, -⟩⟩ := h
    · obtain ⟨hp, hps⟩ := hpin
      refine ⟨⟨d ++ d', ?_⟩, ⟨u ++ [ev], ?_⟩, hcfg'.trans hcfg, ?_⟩
      · rw [hd', hd, List.append_assoc]
      · simp [hu, hrx, hrx']
      · unfold pinMovesAtReset samePin
        rw [← hp, ← hps]
        exact hpin'
    · rw [hboot] at hw
      cases hw

/-- Settles O56: the reset sequence moves nothing of the frame, and a run of deliveries adds up. -/
theorem transmitOnlyGrowsAndEventsKeepTheirOrder : Obligations.TransmitOnlyGrowsAndEventsKeepTheirOrder := by
  unfold Obligations.TransmitOnlyGrowsAndEventsKeepTheirOrder
  intro s t h
  change StepFrame s t
  obtain ⟨hcs, e⟩ | ⟨n, hk, e⟩ | ⟨r, -, e⟩ := step_cases s <;> rw [e] at h <;> cases h
  · obtain ⟨⟨htx, hrx, hcfg, -⟩, hpin, -⟩ := (bootSequence_piece (ok := False) hcs nofun).state
    exact ⟨htx, ⟨[], hrx.symm⟩, hcfg, hpin⟩
  · exact deliverMany_keeps (fun _ => StepFrame.deliver) hk (.refl s)

/-- Settles O11: no piece of a handler takes or puts back an event, and a run of no deliveries changes nothing. -/
theorem aWaitPointConsumesOneEvent : Obligations.AWaitPointConsumesOneEvent := by
  unfold Obligations.AWaitPointConsumesOneEvent
  refine ⟨fun s ev rest hrx => ?_, fun s hw hrx => ?_⟩
  · rw [deliver_cons hrx]
    exact (receive_piece (ok := False) (s := { s with rx := rest }) ev nofun).state.1.rx
  · obtain ⟨n, hn, -, -, h⟩ := everyStepIsARunOfSingleEvents s hw
    obtain rfl : n = 0 := by simpa [hrx] using hn
    exact h

/-- Settles O57: `stepWith` at each terminal state. -/
theorem terminalStatesAreFinal : Obligations.TerminalStatesAreFinal := by
  unfold Obligations.TerminalStatesAreFinal
  refine fun s => ⟨fun a sp entry h => ?_, fun h => ?_, fun r h => ?_⟩ <;> simp only [step, stepWith, h]

/-! ## Resets (R36) -/

/-- Settles O48: `FC.reset()` leaves `State.restarted` but for the protection status that an option-byte write leaves open. -/
theorem softwareResetKeepsNonVolatileState : Obligations.SoftwareResetKeepsNonVolatileState := by
  unfold Obligations.SoftwareResetKeepsNonVolatileState
  intro s
  obtain ⟨r, w, d, e, hkeep⟩ := softwareReset_eq s
  rw [fcReset_eq, e]
  exact ⟨_, rfl, rfl, rfl, restarted_holdsExactly s, rfl, rfl, rfl, rfl, rfl, rfl, rfl, hkeep⟩

/-- Power-on puts the given bytes into class `Ram` and keeps every other byte (R36, D27). -/
theorem powerOn_read {s : State} (hm : s.mem.wf = true) (pin : Bool) {ram : List Byte} (hlen : ram.length = 0x4E01) (z : Nat) :
    (powerOn pin ram s).mem.read z =
      if 0x20000200 ≤ z ∧ z ≤ 0x20005000 then ram.getD (z - 0x20000200) 0x00 else s.mem.read z := by
  have htake : ram.take Const.ramSize = ram := List.take_of_length_le hlen.le
  rw [powerOn, htake, Memory.read_writeBytes (Memory.wf_forget hm _ _), Memory.read_forget, hlen]
  simp only [Const.ramBase, Const.ramSize]
  by_cases hz : 0x20000200 ≤ z ∧ z ≤ 0x20005000
  · rw [if_pos (by omega), if_pos hz]
  · rw [if_neg (by omega), if_neg (by omega), if_neg hz]

/-- Settles O50: the registers and flags as power-on writes them, and memory byte by byte. -/
theorem powerOnKeepsNonVolatileState : Obligations.PowerOnKeepsNonVolatileState := by
  unfold Obligations.PowerOnKeepsNonVolatileState
  intro pin ram s hm hlen
  exact ⟨_, rfl, rfl, fun r => by cases r <;> rfl, rfl, rfl, rfl, rfl, rfl, rfl, powerOn_read hm pin hlen⟩

end Sys2Proof.Machine
end

section
/-! PROOFS. Which commands change memory (spec/20_memory.md R49): every operation but the writes of memory and protection leaves
the storage as it is. One rule per shared operation, for any predicate on the storage; the commands are put together from them. -/

namespace Sys2Proof.Machine

/-! ## Predicates on the storage -/

/-- Memory and the protection status (R27, R28, R39). -/
def State.storage (s : State) : Memory × Bool × BitVec 26 := (s.mem, s.rop, s.wrp)

/-- `P` speaks of the storage only. -/
def OfStorage (P : State → Prop) : Prop := ∀ ⦃s t : State⦄, P s → t.storage = s.storage → P t

/-- The state in which this piece of a handler goes on or ends meets `P`. -/
def Flow.meets (P : State → Prop) (f : Flow) : Prop := P f.state

/-- Memory is `m`. -/
def State.memIs (m : Memory) (s : State) : Prop := s.mem = m

theorem ofStorage_memIs (m : Memory) : OfStorage (State.memIs m) := fun _ _ h e => (congrArg Prod.fst e).trans h

theorem Flow.meets_andThen {P : State → Prop} {f : Flow} {k : State → Flow} (hf : f.meets P) (hk : ∀ t, P t → (k t).meets P) :
    (f.andThen k).meets P := by
  cases f with
  | go t => exact hk t hf
  | stop t => exact hf

/-! ## Operations that leave the storage as it is -/

section
variable {P : State → Prop} (hP : OfStorage P) {s : State} (h : P s)
include hP h

theorem raise_meets (r : Fault) : (raise r s).meets P := hP h rfl

theorem finish_meets : (finish s).meets P := hP h rfl

theorem waitAt_meets (p : ControlState) : (waitAt p s).meets P := hP h rfl

theorem issue_meets (c : Command) (ops : List Byte) : P (issue c ops s) := hP h rfl

theorem reading_meets {α : Type} {r : Register} {v : Option α} {k : α → Flow} (hk : ∀ x, (k x).meets P) :
    (reading r v s k).meets P := by
  cases v with
  | some x => exact hk x
  | none => exact raise_meets hP h _

theorem send_meets (b : Byte) : (send b s).meets P := by
  obtain e | e := send_cases b s <;> rw [e]
  · exact hP h rfl
  · exact raise_meets hP h _

theorem ack_meets : (ack s).meets P := send_meets hP h _

theorem sendAll_meets (bs : List Byte) : (sendAll bs s).meets P := by
  induction bs generalizing s with
  | nil => exact h
  | cons b bs ih => exact Flow.meets_andThen (send_meets hP h b) fun _ ht => ih ht

theorem ackFinish_meets : ((ack s).andThen finish).meets P :=
  Flow.meets_andThen (ack_meets hP h) fun _ ht => finish_meets hP ht

theorem ackWait_meets (p : ControlState) : ((ack s).andThen (waitAt p)).meets P :=
  Flow.meets_andThen (ack_meets hP h) fun _ ht => waitAt_meets hP ht p

/-- ACK, bytes, ACK: the information commands (R120 to R122). -/
theorem reply_meets (bs : State → List Byte) :
    ((ack s).andThen fun t => (sendAll (bs t) t).andThen fun t => (ack t).andThen finish).meets P :=
  Flow.meets_andThen (ack_meets hP h) fun _ ht =>
    Flow.meets_andThen (sendAll_meets hP ht _) fun _ hu => ackFinish_meets hP hu

theorem takeError_meets (e : ProtocolError) : (takeError e s).meets P := by
  refine Flow.meets_andThen (sendAll_meets hP h _) fun t ht => ?_
  split
  · exact hP ht (by cases e <;> rfl)
  · exact finish_meets hP ht

theorem acceptHeader_meets (c : Command) {k : State → Flow} (hk : (k s).meets P) : (acceptHeader c k s).meets P := by
  unfold acceptHeader
  split
  · exact takeError_meets hP h _
  · exact hk

theorem memRead_meets {a : Addr} {n : Nat} {k : Addr → Flow} (hk : ∀ v, (k v).meets P) : (memRead a n s k).meets P := by
  unfold memRead
  split
  · exact hk _
  · exact raise_meets hP h _

theorem handoff_meets (a : Addr) : (handoff a s).meets P :=
  memRead_meets hP h fun _ => memRead_meets hP h fun _ => hP h rfl

theorem streamBytes_meets (n : Nat) (a : Addr) : (streamBytes n a s).meets P := by
  induction n generalizing a s with
  | zero => exact h
  | succ n ih => exact memRead_meets hP h fun _ => Flow.meets_andThen (send_meets hP h _) fun _ ht => ih ht _

theorem streamWords_meets (n : Nat) (a : Addr) : (streamWords n a s).meets P := by
  induction n generalizing a s with
  | zero => exact h
  | succ n ih => exact memRead_meets hP h fun _ => Flow.meets_andThen (sendAll_meets hP h _) fun _ ht => ih ht _

theorem streamMemory_meets (a : Addr) (n : Byte) : (streamMemory a n s).meets P := by
  unfold streamMemory
  split
  · exact streamBytes_meets hP h _ _
  · exact streamWords_meets hP h _ _

/-! ## Frames and stages that leave the storage as it is -/

theorem checkedAddr_meets {k : Addr → Bool → Flow} (hk : ∀ a ok, (k a ok).meets P) : (checkedAddr s k).meets P :=
  reading_meets hP h fun _ => reading_meets hP h fun _ => hk _ _

theorem checkedCount_meets {k : Byte → Bool → Flow} (hk : ∀ n ok, (k n ok).meets P) : (checkedCount s k).meets P :=
  reading_meets hP h fun _ => reading_meets hP h fun _ => hk _ _

theorem checkedFrame_meets {k : List Byte → Bool → Flow} (hk : ∀ p ok, (k p ok).meets P) : (checkedFrame s k).meets P :=
  reading_meets hP h fun _ => reading_meets hP h fun _ => reading_meets hP h fun _ => hk _ _

theorem rmAddrStage_meets : (rmAddrStage s).meets P := by
  refine checkedAddr_meets hP h fun a ok => ?_
  split
  · split
    · exact ackWait_meets hP h _
    · exact takeError_meets hP h _
  · exact takeError_meets hP h _

theorem rmCountStage_meets : (rmCountStage s).meets P := by
  refine checkedCount_meets hP h fun n ok => reading_meets hP h fun a => ?_
  split
  · exact Flow.meets_andThen (ack_meets hP h) fun _ ht =>
      Flow.meets_andThen (streamMemory_meets hP ht a n) fun _ hu => finish_meets hP hu
  · exact takeError_meets hP h _

theorem goAddrStage_meets : (goAddrStage s).meets P := by
  refine checkedAddr_meets hP h fun a ok => ?_
  split
  · split
    · exact Flow.meets_andThen (ack_meets hP h) fun _ ht => handoff_meets hP ht a
    · exact takeError_meets hP h _
  · exact takeError_meets hP h _

/-! ## Commands that leave the storage as it is -/

/-- INIT and the information commands only send; extended-erase only refuses; read-memory and go only read (R109, R120 to R123,
R125, R128). -/
theorem exec_meets_of_not_storing {i : Instr} {t : State} (hwm : ∀ a x ps y, i ≠ .wm a x ps y) (her : ∀ l, i ≠ .er l)
    (hwp : ∀ ix x, i ≠ .wp ix x) (hi : i ∉ [.wu, .rp, .ru]) (e : exec i s = .next t) : P t := by
  have hs := issue_meets hP h
  cases i with
  | init => cases e; exact ackFinish_meets hP h
  | get => cases e; exact acceptHeader_meets hP (hs _ _) _ (reply_meets hP (hs _ _) _)
  | gv =>
    cases e
    exact acceptHeader_meets hP (hs _ _) _ (reply_meets hP (hs _ _) fun t => [t.cfg.versionByte, 0x00, 0x00])
  | gid =>
    cases e
    exact acceptHeader_meets hP (hs _ _) _
      (reply_meets hP (hs _ _) fun t => [t.cfg.idBytes.1, t.cfg.idBytes.2.1, t.cfg.idBytes.2.2])
  | rm a x n y =>
    cases e
    refine Flow.meets_andThen (acceptHeader_meets hP (hs _ _) _ (ackWait_meets hP (hs _ _) _)) fun u hu => ?_
    exact Flow.meets_andThen (rmAddrStage_meets hP (s := receiveAddr a x u) (hP hu rfl)) fun v hv =>
      rmCountStage_meets hP (s := receiveCount n y v) (hP hv rfl)
  | go a x =>
    cases e
    exact Flow.meets_andThen (acceptHeader_meets hP (hs _ _) _ (ackWait_meets hP (hs _ _) _)) fun u hu =>
      goAddrStage_meets hP (s := receiveAddr a x u) (hP hu rfl)
  | ee => cases e; exact acceptHeader_meets hP (hs _ _) _ (takeError_meets hP (hs _ _) _)
  | wm a x ps y => exact absurd rfl (hwm a x ps y)
  | er l => exact absurd rfl (her l)
  | wp ix x => exact absurd rfl (hwp ix x)
  | wu | rp | ru => exact absurd (by simp) hi

end

/-! ## Protection commands leave memory as it is (R130 to R132) -/

section
variable {m : Memory} {s : State} (h : s.memIs m)
include h

/-- A reset keeps memory (R36, R105). -/
theorem fcReset_meets_memIs : (fcReset s).meets (State.memIs m) := by
  obtain ⟨r, w, d, e, -⟩ := softwareReset_eq s
  rw [fcReset_eq, e]
  exact h

theorem ackReset_meets_memIs : ((ack s).andThen fcReset).meets (State.memIs m) :=
  Flow.meets_andThen (ack_meets (ofStorage_memIs m) h) fun _ => fcReset_meets_memIs

theorem protectSectors_meets_memIs (as : List Addr) : (protectSectors as s).meets (State.memIs m) := by
  induction as generalizing s with
  | nil => exact h
  | cons a as ih =>
    refine Flow.meets_andThen ?_ fun _ ht => ih ht
    unfold enableWriteProtection
    split <;> exact h

theorem wpFrameStage_meets_memIs : (wpFrameStage s).meets (State.memIs m) := by
  refine checkedFrame_meets (ofStorage_memIs m) h fun indices ok => ?_
  split
  · exact Flow.meets_andThen (protectSectors_meets_memIs h _) fun _ => ackReset_meets_memIs
  · exact takeError_meets (ofStorage_memIs m) h _

theorem execWp_memIs {indices : List Byte} {y : Byte} {t : State} (e : execWp indices y s = .next t) : t.memIs m := by
  have hs := issue_meets (ofStorage_memIs m) h .wp (operandBytes (.wp indices y))
  cases e
  exact Flow.meets_andThen (acceptHeader_meets (ofStorage_memIs m) hs _ (ackWait_meets (ofStorage_memIs m) hs _)) fun u hu =>
    wpFrameStage_meets_memIs (s := receiveBody indices y { receiveNumber (numberOf indices) u with cs := .fD 0, i := some 0 }) hu

theorem execWu_memIs {t : State} (e : execWu s = .next t) : t.memIs m := by
  have hs := issue_meets (ofStorage_memIs m) h .wu []
  cases e
  exact acceptHeader_meets (ofStorage_memIs m) hs _ (Flow.meets_andThen (ack_meets (ofStorage_memIs m) hs) fun u hu =>
    ackReset_meets_memIs (s := removeWriteProtection u) hu)

theorem execRp_memIs {t : State} (e : execRp s = .next t) : t.memIs m := by
  have hs := issue_meets (ofStorage_memIs m) h .rp []
  cases e
  refine acceptHeader_meets (ofStorage_memIs m) hs _ ?_
  unfold rpHandler
  split
  · exact takeError_meets (ofStorage_memIs m) hs _
  · exact Flow.meets_andThen (ack_meets (ofStorage_memIs m) hs) fun u hu =>
      ackReset_meets_memIs (s := enableReadoutProtection u) hu

end

/-- Settles O60: the protection commands write only protection, and the others leave the whole storage as it is. -/
theorem otherCommandsKeepMemory : Obligations.OtherCommandsKeepMemory := by
  unfold Obligations.OtherCommandsKeepMemory
  intro i s t hwm her hru e
  cases i with
  | wp ix x => exact execWp_memIs rfl e
  | wu => exact execWu_memIs rfl e
  | rp => exact execRp_memIs rfl e
  | ru => exact absurd rfl hru
  | _ => exact exec_meets_of_not_storing (ofStorage_memIs s.mem) rfl hwm her (by simp) (by simp) e

end Sys2Proof.Machine
end

section
/-! PROOFS. Decoding and encoding are inverse to each other (spec/30_encoding.md R60 to R66, R77, R79), and the addresses that
page and sector indices name (R71). -/

namespace Sys2Proof

/-! ## An encoding decodes to its instruction -/

/-- The operand frames of a well-formed instruction decode to it, and the bytes after them are left (R63 to R66, R77). -/
theorem decodeOperands_operandBytes {i : Instr} {c : Command} (hc : i.command = some c) (hwf : WellFormed i)
    (rest : List Byte) : decodeOperands c (operandBytes i ++ rest) = .ok (i, rest) := by
  cases i with
  | init => cases hc
  | rm a x n y | go a x =>
    cases hc
    simp [decodeOperands, operandBytes, addrFrame, wireBytes]
  | wm a x payload y =>
    cases hc
    obtain ⟨h1, h2⟩ := payloadOk_iff.mp hwf
    simp [decodeOperands, operandBytes, addrFrame, wireBytes, dataFrame, decodeBody_append h1 h2]
  | wp indices y =>
    cases hc
    obtain ⟨h1, h2⟩ := payloadOk_iff.mp hwf
    simp [decodeOperands, operandBytes, dataFrame, decodeBody_append h1 h2]
  | er list =>
    cases hc
    cases list with
    | none => rfl
    | some l =>
      obtain ⟨h1, h2⟩ : 1 ≤ l.1.length ∧ l.1.length ≤ 255 := by simpa [WellFormed, Instr.wellFormed] using hwf
      have h256 : l.1.length ≤ 256 := by omega
      have hne : numberOf l.1 ≠ 0xFF := (numberOf_ne_iff (payloadOk_iff.mpr ⟨h1, h256⟩)).mpr h2
      simp only [decodeOperands, operandBytes, dataFrame, List.cons_append, if_neg hne]
      simp [decodeBody_append h1 h256]
  | get | gv | gid | ee | wu | rp | ru =>
    cases hc
    rfl

/-- At its accept point a well-formed instruction is decoded from its encoding, whatever bytes follow (R60 to R62, R79). -/
theorem decode_encode {i : Instr} (hwf : WellFormed i) (rest : List Byte) :
    decode i.acceptPoint (encode i ++ rest) = .ok (i, rest) := by
  cases hc : i.command with
  | none => cases i <;> cases hc; rfl
  | some c => simp [Instr.acceptPoint, encode, hc, decode, decodeCommand, headerBytes, decodeOperands_operandBytes hc hwf]

/-- Settles O2: the header selects the command, whose operand frames decode to the operands. -/
theorem decodeOfEncodeIsTheInstruction : Obligations.DecodeOfEncodeIsTheInstruction :=
  fun _ rest hwf => decode_encode hwf rest

/-- Settles O3: each frame that decodes is rebuilt from its operands. -/
theorem encodeOfDecodeIsTheBytes : Obligations.EncodeOfDecodeIsTheBytes :=
  fun _ _ _ _ h => encode_of_decode h

/-- Settles O1: the decoder evaluated at each of the written words. -/
theorem writtenWordsDecode : Obligations.WrittenWordsDecode :=
  ⟨rfl, rfl, rfl, rfl, rfl, rfl, rfl, rfl⟩

end Sys2Proof

namespace Sys2Proof.Machine

/-! ## Page and sector indices (R71) -/

/-- The page of an index, index 0 one page below `FLASH_BASE` (R71). -/
theorem pageAddr_toNat (p : Byte) : (pageAddr p).toNat = 0x08005C00 + p.toNat * 0x400 := by
  simp only [pageAddr, Const.pageSize, Const.flashBase]
  bv_omega

/-- The sector of an index, index 0 one sector below `FLASH_BASE` (R71). -/
theorem sectorAddr_toNat (p : Byte) : (sectorAddr p).toNat = 0x08005000 + p.toNat * 0x1000 := by
  simp only [sectorAddr, Const.sectorSize, Const.flashBase]
  bv_omega

/-- The window of class `Flash`, both ends inclusive (R92). -/
theorem classify_eq_flash_iff (a : Addr) : classify a = .flash ↔ 0x08006000 ≤ a.toNat ∧ a.toNat ≤ 0x0801FFFF :=
  ⟨inFlash_of_classify, fun h => by simp [classify, (inFlash_iff _).mpr h]⟩

/-- Settles O4: each clause is linear arithmetic on the address of the index. -/
theorem indicesNamePagesAndSectors : Obligations.IndicesNamePagesAndSectors := by
  unfold Obligations.IndicesNamePagesAndSectors
  simp only [classify_eq_flash_iff, pageAddr_toNat, sectorAddr_toNat]
  refine ⟨fun p hp => ?_, fun p hp => ?_, rfl, rfl, fun p => ⟨?_, ?_⟩, fun p => ?_, fun p => ?_⟩ <;> omega

end Sys2Proof.Machine
end

section
/-! PROOFS. What a step makes of the next bytes at the head of the command loop: the command that they encode, or a header that it
refuses (spec/42_dispatcher.md R109 to R115). -/

namespace Sys2Proof.Machine

/-- At an accept point a step runs the command that arrives whole, or else delivers one event (R25, R111; log 2). -/
theorem step_eq_stepAccept {s : State} {p : AcceptPoint} (hcs : s.cs = acceptState p) : step s = stepAccept p exec s := by
  cases p <;> simp [step, stepWith, hcs, acceptState]

/-! ## A command that arrives whole (R60) -/

/-- The command fetched is the one whose encoding the next events are. -/
theorem fetch_encode {i : Instr} {s : State} {rest : List RxEvent} (hwf : WellFormed i)
    (hrx : s.rx = (encode i).map RxEvent.byte ++ rest) : fetch i.acceptPoint s = some i := by
  simp [fetch, hrx, decode_encode hwf]

/-- The bytes taken for a command are its encoding (R77). -/
theorem consume_encode {i : Instr} {s : State} {rest : List RxEvent} (hrx : s.rx = (encode i).map RxEvent.byte ++ rest) :
    consume i s = { s with rx := rest } := by
  simp [consume, hrx, ← encode_length]

/-- Settles O51: the command is fetched, and its bytes are taken. -/
theorem aStepRunsTheDecodedInstruction : Obligations.AStepRunsTheDecodedInstruction := by
  unfold Obligations.AStepRunsTheDecodedInstruction
  intro i s rest hwf hcs hrx
  rw [step_eq_stepAccept hcs, stepAccept, fetch_encode hwf hrx, ← consume_encode hrx]

/-! ## A header that is refused (R74, R75) -/

/-- A header that the decoder refuses is received byte by byte, and the dispatcher answers it with the error `e` (R113, R115). -/
theorem step_step_of_refused {s : State} {op cp : Byte} {rest : List RxEvent} {d : DecodeError} {e : ProtocolError}
    (hcs : s.cs = .cmdOp) (hrx : s.rx = .byte op :: .byte cp :: rest)
    (hd : decode .commandLoop (op :: cp :: leadingBytes rest) = .error d)
    (hh : ∀ t : State, t.cmd = some op → t.cmp = some cp → headerStage t = takeError e t)
    (he : ∀ t : State, endsSession t e = false) (hsend : s.canSend (errorReply s.cfg e).length = true) :
    ∃ u, step s = .next u ∧ u = { s with cs := .cmdCp, cmd := some op, rx := .byte cp :: rest } ∧
      step u = .next { endCommand (s.sent (errorReply s.cfg e)) with rx := rest } := by
  have hfetch : fetch .commandLoop s = none := by simp [fetch, hrx, leadingBytes, hd]
  refine ⟨_, ?_, rfl, ?_⟩
  · rw [step_eq_stepAccept (p := .commandLoop) hcs, stepAccept, hfetch]
    simp [deliver_cons hrx, receive, receiveByte, hcs]
  · change Host.Outcome.next (headerStage { s with cs := .cmdCp, cmd := some op, cmp := some cp, rx := rest }).state = _
    rw [hh _ rfl rfl, takeError_eq (by exact hsend), he]
    rfl

/-- Settles O16: the decoder refuses the complement byte, and so does the dispatcher. -/
theorem headerMismatchRunsNoHandler : Obligations.HeaderMismatchRunsNoHandler := by
  unfold Obligations.HeaderMismatchRunsNoHandler
  intro s op cp rest hcs hrx hcp hsend
  have hne : cp ≠ complement op := hcp
  have h := step_step_of_refused (d := .headerMismatch op cp) (e := .headerMismatch) hcs hrx
    (by simp [decode, decodeCommand, hne]) (fun t ho hc => by simp [headerStage, ho, hc, hne]) (fun _ => rfl)
    (State.canSend_mono hsend (errorReply_length _ _))
  cases hm : s.cfg.hdrMismatchNacks <;> simpa [errorReply, hm] using h

/-- Settles O17: the opcode map has no command for the byte, in the decoder and in the dispatcher. -/
theorem unknownOpcodeIsRefused : Obligations.UnknownOpcodeIsRefused := by
  unfold Obligations.UnknownOpcodeIsRefused
  intro s op rest hcs hrx hop hsend
  have hnone : Command.ofOpcode op = none :=
    Command.ofOpcode_eq_none fun c hc => hop (by cases c <;> simp [← hc, Command.opcode])
  exact step_step_of_refused (d := .unknownOpcode op) (e := .unknownOpcode) hcs hrx
    (by simp [decode, decodeCommand, complement, hnone]) (fun t ho hc => by simp [headerStage, ho, hc, complement, hnone])
    (fun _ => rfl) hsend

/-! ## An address that arrives byte by byte (R69) -/

/-- Settles O8: the four deliveries leave the wire word of the bytes, which gives each byte back. -/
theorem addressBytesAssembleMostSignificantFirst : Obligations.AddressBytesAssembleMostSignificantFirst := by
  unfold Obligations.AddressBytesAssembleMostSignificantFirst
  intro s b0 b1 b2 b3 rest hcs hrx
  obtain ⟨-, hrun⟩ := deliveries_addrBytes hcs b0 b1 b2 b3 hrx
  exact ⟨wireWord b0 b1 b2 b3, hrun, byteOf_wireWord b0 b1 b2 b3⟩

end Sys2Proof.Machine
end

section
/-! PROOFS. The checksum validator (spec/40_checksum_frames.md R80 to R82, R91): the fold is a sum in the group of bytes under
XOR. -/

namespace Sys2Proof.Machine

/-- The fold does not see the order of its bytes (R82). -/
theorem xorfold_perm {xs ys : List Byte} (h : xs.Perm ys) : xorfold xs = xorfold ys :=
  h.foldl_op_eq

/-- One more byte is added to the fold (R80). -/
@[simp] theorem xorfold_concat (xs : List Byte) (c : Byte) : xorfold (xs ++ [c]) = xorfold xs ^^^ c := by
  simp [xorfold]

/-- Any one covered byte can be counted last (R82). -/
theorem xorfold_middle (pre post : List Byte) (a : Byte) : xorfold (pre ++ a :: post) = xorfold (pre ++ post) ^^^ a := by
  rw [← xorfold_concat]
  exact xorfold_perm (List.perm_middle.trans (List.perm_append_singleton a (pre ++ post)).symm)

/-- Settles O5: XOR is commutative and associative, and a byte is its own inverse. -/
theorem checksumIgnoresOrder : Obligations.ChecksumIgnoresOrder := by
  unfold Obligations.ChecksumIgnoresOrder
  refine ⟨fun _ _ => xorfold_perm, fun xs c => ?_, fun xs ys c h => ?_⟩
  · rw [verify_iff, xorfold_concat]
    exact eq_comm.trans BitVec.xor_eq_zero_iff.symm
  · rw [verify, verify, xorfold_perm h]

/-- Settles O6: XOR with a byte is injective, and `verify` sees the fold only. -/
theorem checksumDetectsOneChangedByte : Obligations.ChecksumDetectsOneChangedByte := by
  unfold Obligations.ChecksumDetectsOneChangedByte
  simp only [Bool.eq_false_iff, ne_eq, verify_iff]
  refine ⟨fun pre post a b c hab ha hb => ?_, fun xs c c' hne hc hc' => ?_, fun xs ys c h hc => hc.trans h⟩
  · rw [xorfold_middle] at ha hb
    exact hab ((BitVec.xor_right_inj _).1 (ha.symm.trans hb))
  · exact hne (hc.trans hc'.symm)

end Sys2Proof.Machine
end

section
/-! PROOFS. Words on the wire, the body of a frame, and the wait that no byte ends (spec/40_checksum_frames.md R84, R85, R89). -/

namespace Sys2Proof.Machine

/-- Settles O9: the bytes sent are those of memory order, and a wire word gives its bytes back. -/
theorem sendWordReversesAReceivedWord : Obligations.SendWordReversesAReceivedWord := by
  unfold Obligations.SendWordReversesAReceivedWord
  have hsend (s : State) (w : Addr) (h : s.canSend 4 = true) : sendWord w s = .go (s.sent (leBytes w)) := sendAll_eq h
  refine ⟨hsend, fun s b0 b1 b2 b3 h => ?_⟩
  obtain ⟨h3, h2, h1, h0⟩ := byteOf_wireWord b0 b1 b2 b3
  rw [hsend s _ h, leBytes, h0, h1, h2, h3]

/-- Settles O10: the rest of the payload is received after no byte of it. -/
theorem frameBodyIsCollectedInOrder : Obligations.FrameBodyIsCollectedInOrder := by
  unfold Obligations.FrameBodyIsCollectedInOrder
  intro s n payload rest hcs hnum hlen hrx
  have hne : payload ≠ [] := by
    rintro rfl
    cases hlen
  obtain ⟨-, hrun⟩ := deliveries_payload [] payload hcs hnum rfl (by simpa using hlen) hne hrx
  rw [← hlen, hrun, hlen]
  rfl

/-! ## Timeouts -/

/-- Where no byte comes next, no command is fetched (R60). -/
theorem fetch_eq_none {s : State} (h : leadingBytes s.rx = []) (p : AcceptPoint) : fetch p s = none := by
  cases p <;> simp [fetch, h, decode, decodeInit, decodeCommand]

/-- A step at a wait point where no byte comes next is one delivery (R25). -/
theorem step_eq_deliver {s : State} (hw : s.cs.waits = true) (h : leadingBytes s.rx = []) : step s = .next (deliver s) := by
  unfold step stepWith stepAccept
  simp only [fetch_eq_none h]
  split
  case h_1 hcs | h_12 hcs | h_13 hcs | h_14 hcs =>
    rw [hcs] at hw
    cases hw
  all_goals rfl

/-- A timeout at a wait point fails the handshake or is the error E1 (R85, R110). -/
theorem receiveTimeout_eq {s : State} (hw : s.cs.waits = true) :
    receiveTimeout s = takeError (if s.cs = .awaitInit then .initFailed else .timeout) s := by
  unfold receiveTimeout
  split
  case h_11 hcs | h_12 hcs | h_13 hcs | h_14 hcs =>
    rw [hcs] at hw
    cases hw
  all_goals simp [*]

/-- An error without a reply ends the command or the session at once (R134). -/
theorem takeError_silent {s : State} {e : ProtocolError} (h : errorReply s.cfg e = []) :
    takeError e s = .stop (if endsSession s e then endSession e s else endCommand s) := by
  rw [takeError_eq (by rw [h]; exact s.canSend_zero), h, State.sent_nil]

/-- Where a timeout ends the session (R111, R151). -/
theorem endsSession_timeout_iff (s : State) :
    endsSession s .timeout = true ↔ (s.cs = .cmdOp ∨ s.cs = .cmdCp) ∧ s.cfg.cmdTimeoutMode = .finish := by
  simp [endsSession, atHeader]

/-- Settles O12: the one delivery takes E8 or E1, and neither has a reply. -/
theorem timeoutEndsTheCommandSilently : Obligations.TimeoutEndsTheCommandSilently := by
  unfold Obligations.TimeoutEndsTheCommandSilently
  intro s rest hw hrx
  have hrecv := receiveTimeout_eq (s := { s with rx := rest }) hw
  rw [step_eq_deliver hw (by rw [hrx]; rfl), deliver_cons hrx, receive, hrecv]
  by_cases hinit : s.cs = .awaitInit
  · rw [if_pos hinit, if_pos hinit]
    rfl
  · rw [if_neg hinit, if_neg hinit, takeError_silent rfl, endSession_timeout]
    simp only [endsSession_timeout_iff, Flow.state_stop]

end Sys2Proof.Machine
end

section
/-! PROOFS. A channel that fails in the middle of a handler (spec/40_checksum_frames.md R86): every operation is the same on it as
on a channel without `TxError`, up to the send that faults. One rule per shared operation, each about the operation on both
channels at once. -/

namespace Sys2Proof.Machine

/-! ## Two channels side by side -/

/-- The same state on a channel that fails once `TX` holds `L` bytes. -/
def State.cutAt (L : Nat) (s : State) : State := { s with txErrorIn := some (L - s.tx.length) }

@[simp] theorem State.cutAt_cs (L : Nat) (s : State) : (s.cutAt L).cs = s.cs := rfl
@[simp] theorem State.cutAt_obWritten (L : Nat) (s : State) : (s.cutAt L).obWritten = s.obWritten := rfl
@[simp] theorem State.cutAt_cfg (L : Nat) (s : State) : (s.cutAt L).cfg = s.cfg := rfl

/-- The same flow on that channel. -/
def Flow.cutAt (L : Nat) : Flow → Flow
  | .go s => .go (s.cutAt L)
  | .stop s => .stop (s.cutAt L)

/-- A piece of a handler, begun with the bytes `tx` sent: `f` on a channel without `TxError`, `g` on the one that fails once `TX`
holds `L` bytes. Up to `L` bytes both do the same; with more to send, `g` ends in the fault of the channel after `L` of them. -/
structure CutShort (L : Nat) (f g : Flow) (tx : List Byte) : Prop where
  healthy : f.state.txErrorIn = none
  grows : tx <+: f.state.tx
  same : tx.length ≤ L → f.state.tx.length ≤ L → g = f.cutAt L
  faults : tx.length ≤ L → L < f.state.tx.length →
    ∃ u, g = .stop u ∧ u.cs = .fault .txIoError ∧ u.tx = f.state.tx.take L

/-- A piece that sends nothing is the same on both channels. -/
theorem CutShort.quiet {L : Nat} {f : Flow} {tx : List Byte} (h : f.state.txErrorIn = none) (htx : f.state.tx = tx) :
    CutShort L f (f.cutAt L) tx :=
  ⟨h, by rw [htx], fun _ _ => rfl, fun h0 h1 => absurd (htx ▸ h1) (not_lt.2 h0)⟩

/-- A fault of the first piece is the fault of the whole: what follows on the other channel only adds to `TX`. -/
theorem CutShort.andThen {L : Nat} {f g : Flow} {k k' : State → Flow} {tx : List Byte} (hf : CutShort L f g tx)
    (hk : ∀ t, t.txErrorIn = none → CutShort L (k t) (k' (t.cutAt L)) t.tx) :
    CutShort L (f.andThen k) (g.andThen k') tx := by
  obtain ⟨hnone, hgrow, hsame, hfault⟩ := hf
  cases f with
  | stop t =>
    refine ⟨hnone, hgrow, fun h0 h1 => by rw [hsame h0 h1]; rfl, fun h0 h1 => ?_⟩
    obtain ⟨u, rfl, hu⟩ := hfault h0 h1
    exact ⟨u, rfl, hu⟩
  | go t =>
    obtain ⟨hnone', hgrow', hsame', hfault'⟩ := hk t hnone
    have hle := hgrow'.length_le
    refine ⟨hnone', hgrow.trans hgrow', fun h0 h1 => ?_, fun h0 h1 => ?_⟩
    · rw [hsame h0 (hle.trans h1)]
      exact hsame' (hle.trans h1) h1
    · by_cases ht : t.tx.length ≤ L
      · rw [hsame h0 ht]
        exact hfault' ht h1
      · obtain ⟨u, rfl, hcs, hu⟩ := hfault h0 (not_le.1 ht)
        refine ⟨u, rfl, hcs, ?_⟩
        obtain ⟨d, hd⟩ := hgrow'
        rw [hu, Flow.andThen_go, ← hd, List.take_append_of_le_length (not_le.1 ht).le]
        rfl

section
variable {L : Nat} {s : State} {tx : List Byte}

theorem ite_cutShort {c : Prop} [Decidable c] {f f' g g' : Flow} (hf : CutShort L f f' tx) (hg : CutShort L g g' tx) :
    CutShort L (if c then f else g) (if c then f' else g') tx := by
  by_cases h : c
  · rwa [if_pos h, if_pos h]
  · rwa [if_neg h, if_neg h]

theorem reading_cutShort {α : Type} {r : Register} {v : Option α} {k k' : α → Flow} (h : s.txErrorIn = none)
    (hk : ∀ x, CutShort L (k x) (k' x) s.tx) : CutShort L (reading r v s k) (reading r v (s.cutAt L) k') s.tx := by
  cases v with
  | some x => exact hk x
  | none => exact .quiet h rfl

/-! ## Sending (R34, R86) -/

/-- The channel fails at the first send for which `TX` holds `L` bytes. -/
theorem send_cutShort (h : s.txErrorIn = none) (b : Byte) : CutShort L (send b s) (send b (s.cutAt L)) s.tx := by
  rw [send_eq (by simp [State.canSend, h])]
  refine ⟨by simp [h], ⟨[b], rfl⟩, fun h0 h1 => ?_, fun h0 h1 => ?_⟩
  all_goals simp only [Flow.state_go, State.sent_fields, List.length_append, List.length_singleton] at h1
  · have hsend : (s.cutAt L).canSend 1 = true := by
      simp only [State.canSend, State.cutAt, decide_eq_true_eq]
      omega
    rw [send_eq hsend]
    simp [State.cutAt, Flow.cutAt, State.sent, Nat.sub_sub]
  · obtain rfl : L = s.tx.length := by omega
    exact ⟨_, send_txError (by simp [State.cutAt]) b, rfl, by simp [State.cutAt]⟩

theorem ack_cutShort (h : s.txErrorIn = none) : CutShort L (ack s) (ack (s.cutAt L)) s.tx := send_cutShort h _

theorem sendAll_cutShort (h : s.txErrorIn = none) (bs : List Byte) :
    CutShort L (sendAll bs s) (sendAll bs (s.cutAt L)) s.tx := by
  induction bs generalizing s with
  | nil => exact .quiet h rfl
  | cons b bs ih => exact (send_cutShort h b).andThen fun _ ht => ih ht

theorem ackFinish_cutShort (h : s.txErrorIn = none) :
    CutShort L ((ack s).andThen finish) ((ack (s.cutAt L)).andThen finish) s.tx :=
  (ack_cutShort h).andThen fun _ ht => .quiet ht rfl

/-- ACK, then the wait at `p`. -/
theorem ackWait_cutShort (h : s.txErrorIn = none) (p : ControlState) :
    CutShort L ((ack s).andThen (waitAt p)) ((ack (s.cutAt L)).andThen (waitAt p)) s.tx :=
  (ack_cutShort h).andThen fun _ ht => .quiet ht rfl

/-- ACK, bytes, ACK: the information commands (R120 to R122). -/
theorem reply_cutShort (h : s.txErrorIn = none) (bs : State → List Byte) (hbs : ∀ t, bs (t.cutAt L) = bs t) :
    CutShort L ((ack s).andThen fun t => (sendAll (bs t) t).andThen fun t => (ack t).andThen finish)
      ((ack (s.cutAt L)).andThen fun t => (sendAll (bs t) t).andThen fun t => (ack t).andThen finish) s.tx :=
  (ack_cutShort h).andThen fun t ht => by
    simp only [hbs]
    exact (sendAll_cutShort ht _).andThen fun _ hu => ackFinish_cutShort hu

/-- The reply of an error may be cut short; what follows it sends nothing (R134, R140). -/
theorem takeError_cutShort (h : s.txErrorIn = none) (e : ProtocolError) :
    CutShort L (takeError e s) (takeError e (s.cutAt L)) s.tx := by
  have hend : endsSession (s.cutAt L) e = endsSession s e := rfl
  rw [takeError, takeError, hend, State.cutAt_cfg]
  refine (sendAll_cutShort h _).andThen fun t ht => ?_
  split
  · cases e <;> exact .quiet ht rfl
  · exact .quiet ht rfl

theorem acceptHeader_cutShort (h : s.txErrorIn = none) (c : Command) {k : State → Flow}
    (hk : CutShort L (k s) (k (s.cutAt L)) s.tx) : CutShort L (acceptHeader c k s) (acceptHeader c k (s.cutAt L)) s.tx :=
  ite_cutShort (takeError_cutShort h _) hk

/-! ## Resets and reads (R46, R105, R126) -/

theorem fcReset_cutShort (h : s.txErrorIn = none) : CutShort L (fcReset s) (fcReset (s.cutAt L)) s.tx := by
  unfold fcReset softwareReset applyOptionBytes
  rw [State.cutAt_obWritten]
  split <;> exact .quiet h rfl

theorem ackReset_cutShort (h : s.txErrorIn = none) :
    CutShort L ((ack s).andThen fcReset) ((ack (s.cutAt L)).andThen fcReset) s.tx :=
  (ack_cutShort h).andThen fun _ => fcReset_cutShort

/-- A read does not see the channel (R46). -/
theorem readBytes_cutAt (s : State) (n : Nat) (a : Addr) : readBytes (s.cutAt L) n a = readBytes s n a := by
  induction n generalizing a with
  | zero => rfl
  | succ n ih =>
    simp only [readBytes, ih]
    rfl

theorem memRead_cutShort (h : s.txErrorIn = none) {a : Addr} {n : Nat} {k k' : Addr → Flow}
    (hk : ∀ v, CutShort L (k v) (k' v) s.tx) : CutShort L (memRead a n s k) (memRead a n (s.cutAt L) k') s.tx := by
  unfold memRead
  rw [readBytes_cutAt]
  cases readBytes s n a with
  | ok bs => exact hk _
  | error x => exact .quiet h rfl

theorem handoff_cutShort (h : s.txErrorIn = none) (a : Addr) : CutShort L (handoff a s) (handoff a (s.cutAt L)) s.tx :=
  memRead_cutShort h fun _ => memRead_cutShort h fun _ => .quiet h rfl

theorem streamBytes_cutShort (h : s.txErrorIn = none) (n : Nat) (a : Addr) :
    CutShort L (streamBytes n a s) (streamBytes n a (s.cutAt L)) s.tx := by
  induction n generalizing a s with
  | zero => exact .quiet h rfl
  | succ n ih => exact memRead_cutShort h fun _ => (send_cutShort h _).andThen fun _ ht => ih ht _

theorem streamWords_cutShort (h : s.txErrorIn = none) (n : Nat) (a : Addr) :
    CutShort L (streamWords n a s) (streamWords n a (s.cutAt L)) s.tx := by
  induction n generalizing a s with
  | zero => exact .quiet h rfl
  | succ n ih => exact memRead_cutShort h fun _ => (sendAll_cutShort h _).andThen fun _ ht => ih ht _

theorem streamMemory_cutShort (h : s.txErrorIn = none) (a : Addr) (n : Byte) :
    CutShort L (streamMemory a n s) (streamMemory a n (s.cutAt L)) s.tx := by
  unfold streamMemory
  rw [State.cutAt_cfg]
  cases s.cfg.readLengthMode with
  | exact => exact streamBytes_cutShort h _ _
  | words => exact streamWords_cutShort h _ _

/-! ## Writing memory and protection (R47, R95 to R103) -/

/-- A draw of free bytes. -/
theorem drawBytes_cutShort (h : s.txErrorIn = none) (lo n : Nat) :
    CutShort L (.go (drawBytes lo n s)) (.go (drawBytes lo n (s.cutAt L))) s.tx :=
  .quiet h rfl

theorem programWord_cutShort (h : s.txErrorIn = none) (a w : Addr) :
    CutShort L (programWord a w s) (programWord a w (s.cutAt L)) s.tx :=
  ite_cutShort (.quiet h rfl)
    (ite_cutShort (.quiet h rfl) (ite_cutShort (drawBytes_cutShort h _ _) (.quiet h rfl)))

theorem programWords_cutShort (h : s.txErrorIn = none) (ws : List Addr) (a : Addr) :
    CutShort L (programWords ws a s) (programWords ws a (s.cutAt L)) s.tx := by
  induction ws generalizing a s with
  | nil => exact .quiet h rfl
  | cons w ws ih => exact (programWord_cutShort h a w).andThen fun _ ht => ih ht _

theorem memWriteByte_cutShort (h : s.txErrorIn = none) (a : Addr) (v : Byte) :
    CutShort L (memWriteByte a v s) (memWriteByte a v (s.cutAt L)) s.tx :=
  ite_cutShort (.quiet h rfl) (.quiet h rfl)

theorem storeBytes_cutShort (h : s.txErrorIn = none) (bs : List Byte) (a : Addr) :
    CutShort L (storeBytes bs a s) (storeBytes bs a (s.cutAt L)) s.tx := by
  induction bs generalizing a s with
  | nil => exact .quiet h rfl
  | cons b bs ih => exact (memWriteByte_cutShort h a b).andThen fun _ ht => ih ht _

theorem erasePage_cutShort (h : s.txErrorIn = none) (p : Addr) :
    CutShort L (erasePage p s) (erasePage p (s.cutAt L)) s.tx :=
  ite_cutShort (.quiet h rfl) (ite_cutShort (drawBytes_cutShort h _ _) (.quiet h rfl))

theorem erasePages_cutShort (h : s.txErrorIn = none) (ps : List Addr) :
    CutShort L (erasePages ps s) (erasePages ps (s.cutAt L)) s.tx := by
  induction ps generalizing s with
  | nil => exact .quiet h rfl
  | cons p ps ih => exact (erasePage_cutShort h p).andThen fun _ ht => ih ht

theorem enableWriteProtection_cutShort (h : s.txErrorIn = none) (a : Addr) :
    CutShort L (enableWriteProtection a s) (enableWriteProtection a (s.cutAt L)) s.tx :=
  ite_cutShort (.quiet h rfl) (.quiet h rfl)

theorem protectSectors_cutShort (h : s.txErrorIn = none) (as : List Addr) :
    CutShort L (protectSectors as s) (protectSectors as (s.cutAt L)) s.tx := by
  induction as generalizing s with
  | nil => exact .quiet h rfl
  | cons a as ih => exact (enableWriteProtection_cutShort h a).andThen fun _ ht => ih ht

theorem programOptionBytes_cutShort (h : s.txErrorIn = none) (xs : List Byte) :
    CutShort L (programOptionBytes xs s) (programOptionBytes xs (s.cutAt L)) s.tx :=
  ite_cutShort (.quiet h rfl) (.quiet h rfl)

theorem arbitrateWrite_cutShort (h : s.txErrorIn = none) (a : Addr) (payload : List Byte) :
    CutShort L (arbitrateWrite a payload s) (arbitrateWrite a payload (s.cutAt L)) s.tx := by
  unfold arbitrateWrite
  cases classify a with
  | flash => exact (programWords_cutShort h _ _).andThen fun _ => ackFinish_cutShort
  | ram =>
    exact (storeBytes_cutShort h _ _).andThen fun _ ht => ite_cutShort (ackFinish_cutShort ht) (.quiet ht rfl)
  | other =>
    refine ite_cutShort ?_ (takeError_cutShort h _)
    exact (programOptionBytes_cutShort h _).andThen fun _ => ackReset_cutShort

theorem eraseListed_cutShort (h : s.txErrorIn = none) (indices : List Byte) :
    CutShort L (eraseListed indices s) (eraseListed indices (s.cutAt L)) s.tx :=
  (erasePages_cutShort h _).andThen fun _ => ackFinish_cutShort

/-! ## Stages of the handlers -/

theorem checkedAddr_cutShort (h : s.txErrorIn = none) {k k' : Addr → Bool → Flow}
    (hk : ∀ a ok, CutShort L (k a ok) (k' a ok) s.tx) : CutShort L (checkedAddr s k) (checkedAddr (s.cutAt L) k') s.tx :=
  reading_cutShort h fun _ => reading_cutShort h fun _ => hk _ _

theorem checkedFrame_cutShort (h : s.txErrorIn = none) {k k' : List Byte → Bool → Flow}
    (hk : ∀ p ok, CutShort L (k p ok) (k' p ok) s.tx) : CutShort L (checkedFrame s k) (checkedFrame (s.cutAt L) k') s.tx :=
  reading_cutShort h fun _ => reading_cutShort h fun _ => reading_cutShort h fun _ => hk _ _

theorem rmAddrStage_cutShort (h : s.txErrorIn = none) : CutShort L (rmAddrStage s) (rmAddrStage (s.cutAt L)) s.tx :=
  checkedAddr_cutShort h fun _ _ =>
    ite_cutShort (ite_cutShort (ackWait_cutShort h _) (takeError_cutShort h _)) (takeError_cutShort h _)

theorem goAddrStage_cutShort (h : s.txErrorIn = none) : CutShort L (goAddrStage s) (goAddrStage (s.cutAt L)) s.tx :=
  checkedAddr_cutShort h fun _ _ =>
    ite_cutShort
      (ite_cutShort ((ack_cutShort h).andThen fun _ ht => handoff_cutShort ht _) (takeError_cutShort h _))
      (takeError_cutShort h _)

theorem wmAddrStage_cutShort (h : s.txErrorIn = none) : CutShort L (wmAddrStage s) (wmAddrStage (s.cutAt L)) s.tx :=
  checkedAddr_cutShort h fun _ _ => ite_cutShort (ackWait_cutShort h _) (takeError_cutShort h _)

theorem rmCountStage_cutShort (h : s.txErrorIn = none) : CutShort L (rmCountStage s) (rmCountStage (s.cutAt L)) s.tx :=
  reading_cutShort h fun n => reading_cutShort h fun _ => reading_cutShort h fun a =>
    ite_cutShort
      ((ack_cutShort h).andThen fun _ ht => (streamMemory_cutShort ht a n).andThen fun _ hu => .quiet hu rfl)
      (takeError_cutShort h _)

theorem erNumberStage_cutShort (h : s.txErrorIn = none) : CutShort L (erNumberStage s) (erNumberStage (s.cutAt L)) s.tx :=
  reading_cutShort h fun _ =>
    ite_cutShort ((erasePages_cutShort h _).andThen fun _ => ackFinish_cutShort) (.quiet h rfl)

theorem wmFrameStage_cutShort (h : s.txErrorIn = none) : CutShort L (wmFrameStage s) (wmFrameStage (s.cutAt L)) s.tx :=
  checkedFrame_cutShort h fun _ _ => reading_cutShort h fun _ =>
    ite_cutShort (arbitrateWrite_cutShort h _ _) (takeError_cutShort h _)

theorem wpFrameStage_cutShort (h : s.txErrorIn = none) : CutShort L (wpFrameStage s) (wpFrameStage (s.cutAt L)) s.tx :=
  checkedFrame_cutShort h fun _ _ =>
    ite_cutShort ((protectSectors_cutShort h _).andThen fun _ => ackReset_cutShort) (takeError_cutShort h _)

theorem erFrameStage_cutShort (h : s.txErrorIn = none) : CutShort L (erFrameStage s) (erFrameStage (s.cutAt L)) s.tx := by
  refine checkedFrame_cutShort h fun indices _ => ite_cutShort (eraseListed_cutShort h _) ?_
  rw [State.cutAt_cfg]
  cases s.cfg.eraseCksFailMode with
  | abort => exact takeError_cutShort h _
  | proceed => exact (send_cutShort h _).andThen fun _ ht => eraseListed_cutShort ht indices

/-- The handler of every command, up to its first wait (R114). -/
theorem dispatch_cutShort (h : s.txErrorIn = none) (c : Command) : CutShort L (dispatch c s) (dispatch c (s.cutAt L)) s.tx := by
  cases c with
  | get => exact acceptHeader_cutShort h _ (reply_cutShort h (fun _ => getCmdReply) fun _ => rfl)
  | gv => exact acceptHeader_cutShort h _ (reply_cutShort h (fun t => [t.cfg.versionByte, 0x00, 0x00]) fun _ => rfl)
  | gid =>
    exact acceptHeader_cutShort h _
      (reply_cutShort h (fun t => [t.cfg.idBytes.1, t.cfg.idBytes.2.1, t.cfg.idBytes.2.2]) fun _ => rfl)
  | rm | go | wm | er | wp => exact acceptHeader_cutShort h _ (ackWait_cutShort h _)
  | ee => exact acceptHeader_cutShort h _ (takeError_cutShort h _)
  | wu =>
    exact acceptHeader_cutShort h _ ((ack_cutShort h).andThen fun t ht => ackReset_cutShort (s := removeWriteProtection t) ht)
  | rp =>
    exact acceptHeader_cutShort h _ (ite_cutShort (takeError_cutShort h _)
      ((ack_cutShort h).andThen fun t ht => ackReset_cutShort (s := enableReadoutProtection t) ht))
  | ru =>
    exact acceptHeader_cutShort h _ ((ack_cutShort h).andThen fun t ht =>
      (ack_cutShort (s := disableReadoutProtection t) ht).andThen fun u hu => fcReset_cutShort (s := clearRam u) hu)

/-! ## One event (R22, R85) -/

theorem headerStage_cutShort (h : s.txErrorIn = none) : CutShort L (headerStage s) (headerStage (s.cutAt L)) s.tx := by
  refine reading_cutShort h fun op => reading_cutShort h fun cp => ite_cutShort ?_ (takeError_cutShort h _)
  cases Command.ofOpcode op with
  | some c => exact dispatch_cutShort h c
  | none => exact takeError_cutShort h _

theorem running_cutShort (h : s.txErrorIn = none) {k k' : Option Command → Flow}
    (hk : ∀ c, CutShort L (k (some c)) (k' (some c)) s.tx) (hnone : CutShort L (k none) (k' none) s.tx) :
    CutShort L (running s k) (running (s.cutAt L) k') s.tx :=
  reading_cutShort h fun op => by
    cases Command.ofOpcode op with
    | some c => exact hk c
    | none => exact hnone

theorem addrStage_cutShort (h : s.txErrorIn = none) : CutShort L (addrStage s) (addrStage (s.cutAt L)) s.tx := by
  refine running_cutShort h (fun c => ?_) (.quiet h rfl)
  cases c with
  | rm => exact rmAddrStage_cutShort h
  | go => exact goAddrStage_cutShort h
  | wm => exact wmAddrStage_cutShort h
  | _ => exact .quiet h rfl

theorem countStage_cutShort (h : s.txErrorIn = none) : CutShort L (countStage s) (countStage (s.cutAt L)) s.tx := by
  refine running_cutShort h (fun c => ?_) (.quiet h rfl)
  cases c with
  | rm => exact rmCountStage_cutShort h
  | _ => exact .quiet h rfl

theorem numberStage_cutShort (h : s.txErrorIn = none) : CutShort L (numberStage s) (numberStage (s.cutAt L)) s.tx := by
  refine running_cutShort h (fun c => ?_) (.quiet h rfl)
  cases c with
  | er => exact erNumberStage_cutShort h
  | _ => exact .quiet h rfl

theorem frameStage_cutShort (h : s.txErrorIn = none) : CutShort L (frameStage s) (frameStage (s.cutAt L)) s.tx := by
  refine running_cutShort h (fun c => ?_) (.quiet h rfl)
  cases c with
  | wm => exact wmFrameStage_cutShort h
  | er => exact erFrameStage_cutShort h
  | wp => exact wpFrameStage_cutShort h
  | _ => exact .quiet h rfl

theorem receiveByte_cutShort (h : s.txErrorIn = none) (b : Byte) :
    CutShort L (receiveByte b s) (receiveByte b (s.cutAt L)) s.tx := by
  unfold receiveByte
  rw [State.cutAt_cs]
  split
  case h_1 => exact ite_cutShort (ackFinish_cutShort h) (takeError_cutShort h _)
  case h_3 => exact headerStage_cutShort (s := { s with cmp := some b }) h
  case h_4 k _ => exact ite_cutShort (.quiet h rfl) (reading_cutShort h fun _ => .quiet h rfl)
  case h_5 => exact addrStage_cutShort (s := { s with acks := some b }) h
  case h_7 => exact countStage_cutShort (s := { s with ncks := some b }) h
  case h_8 => exact numberStage_cutShort (s := { s with num := some b }) h
  case h_9 j _ => exact reading_cutShort h fun _ => ite_cutShort (.quiet h rfl) (.quiet h rfl)
  case h_10 => exact frameStage_cutShort (s := { s with cks := some b }) h
  all_goals exact .quiet h rfl

theorem receiveTimeout_cutShort (h : s.txErrorIn = none) :
    CutShort L (receiveTimeout s) (receiveTimeout (s.cutAt L)) s.tx := by
  unfold receiveTimeout
  rw [State.cutAt_cs]
  cases s.cs with
  | boot | handedOff | initFailed | fault => exact .quiet h rfl
  | _ => exact takeError_cutShort h _

theorem receive_cutShort (h : s.txErrorIn = none) (ev : RxEvent) :
    CutShort L (receive ev s) (receive ev (s.cutAt L)) s.tx := by
  cases ev with
  | byte b => exact receiveByte_cutShort h b
  | timeout => exact receiveTimeout_cutShort h

end

end Sys2Proof.Machine
end

section
/-! PROOFS. The fault of the channel in an instruction, a step and a delivery (spec/40_checksum_frames.md R86). -/

namespace Sys2Proof.Machine

/-- The states `t` and `u` end the same piece, begun with `tx` sent, on the channel without `TxError` and on the one that fails once
`TX` holds `L` bytes. -/
def EndCutShort (L : Nat) (t u : State) (tx : List Byte) : Prop :=
  ∃ f g : Flow, t = f.state ∧ u = g.state ∧ CutShort L f g tx

/-- The same of two outcomes, where the first is a next state. -/
def OutcomeCutShort (L : Nat) (o o' : Host.Outcome State Fault Refusal) (tx : List Byte) : Prop :=
  ∀ t, o = .next t → ∃ u, o' = .next u ∧ EndCutShort L t u tx

section
variable {L : Nat} {s : State} {tx : List Byte}

theorem CutShort.next {f g : Flow} (h : CutShort L f g tx) : OutcomeCutShort L (.next f.state) (.next g.state) tx := by
  intro t ht
  cases ht
  exact ⟨_, rfl, f, g, rfl, rfl, h⟩

/-- With more than `k` bytes to send, the channel that fails after `k` of them leaves the fault (R86). -/
theorem EndCutShort.fault {t u : State} {k : Nat} {d : List Byte} (h : EndCutShort (tx.length + k) t u tx) (ht : t.tx = tx ++ d)
    (hk : k < d.length) : u.cs = .fault .txIoError ∧ u.tx = tx ++ d.take k := by
  obtain ⟨f, g, rfl, rfl, hfg⟩ := h
  obtain ⟨u, rfl, hcs, hu⟩ := hfg.faults (by omega) (by rw [ht, List.length_append]; omega)
  exact ⟨hcs, by rw [Flow.state_stop, hu, ht, List.take_length_add_append]⟩

/-! ## Every instruction -/

theorem exec_cutShort (h : s.txErrorIn = none) (i : Instr) : OutcomeCutShort L (exec i s) (exec i (s.cutAt L)) s.tx := by
  cases i with
  | init => exact (ackFinish_cutShort h).next
  | get => exact (dispatch_cutShort (s := issue .get [] s) h .get).next
  | gv => exact (dispatch_cutShort (s := issue .gv [] s) h .gv).next
  | gid => exact (dispatch_cutShort (s := issue .gid [] s) h .gid).next
  | rm a x n y =>
    refine CutShort.next ((dispatch_cutShort (s := issue .rm _ s) h .rm).andThen fun t ht => ?_)
    exact (rmAddrStage_cutShort (s := receiveAddr a x t) ht).andThen fun u hu =>
      rmCountStage_cutShort (s := receiveCount n y u) hu
  | go a x =>
    exact CutShort.next ((dispatch_cutShort (s := issue .go _ s) h .go).andThen fun t ht =>
      goAddrStage_cutShort (s := receiveAddr a x t) ht)
  | wm a x payload y =>
    refine CutShort.next ((dispatch_cutShort (s := issue .wm _ s) h .wm).andThen fun t ht => ?_)
    refine (wmAddrStage_cutShort (s := receiveAddr a x t) ht).andThen fun u hu => ?_
    exact wmFrameStage_cutShort
      (s := receiveBody payload y { receiveNumber (numberOf payload) u with cs := .fD 0, i := some 0 }) hu
  | er list =>
    refine CutShort.next ((dispatch_cutShort (s := issue .er _ s) h .er).andThen fun t ht => ?_)
    refine (erNumberStage_cutShort (s := receiveNumber (erNumber list) t) ht).andThen fun u hu => ?_
    cases list with
    | none => exact .quiet hu rfl
    | some l => exact erFrameStage_cutShort (s := receiveBody l.1 l.2 u) hu
  | ee => exact (dispatch_cutShort (s := issue .ee [] s) h .ee).next
  | wp indices y =>
    exact CutShort.next ((dispatch_cutShort (s := issue .wp _ s) h .wp).andThen fun t ht =>
      wpFrameStage_cutShort
        (s := receiveBody indices y { receiveNumber (numberOf indices) t with cs := .fD 0, i := some 0 }) ht)
  | wu => exact (dispatch_cutShort (s := issue .wu [] s) h .wu).next
  | rp => exact (dispatch_cutShort (s := issue .rp [] s) h .rp).next
  | ru => exact (dispatch_cutShort (s := issue .ru [] s) h .ru).next

/-! ## Every event and every step -/

theorem deliver_cutShort (h : s.txErrorIn = none) : EndCutShort L (deliver s) (deliver (s.cutAt L)) s.tx := by
  cases hrx : s.rx with
  | nil =>
    rw [deliver_nil hrx, deliver_nil (s := s.cutAt L) hrx]
    exact ⟨.go s, .go (s.cutAt L), rfl, rfl, .quiet h rfl⟩
  | cons ev rest =>
    exact ⟨_, _, deliver_cons hrx, deliver_cons (s := s.cutAt L) hrx, receive_cutShort (s := { s with rx := rest }) h ev⟩

/-- A step that is one delivery. -/
theorem nextDeliver_cutShort (h : s.txErrorIn = none) :
    OutcomeCutShort L (.next (deliver s)) (.next (deliver (s.cutAt L))) s.tx := by
  intro t ht
  cases ht
  exact ⟨_, rfl, deliver_cutShort h⟩

/-- What the next bytes encode does not depend on the channel (R60). -/
theorem stepAccept_cutShort (h : s.txErrorIn = none) (p : AcceptPoint) :
    OutcomeCutShort L (stepAccept p exec s) (stepAccept p exec (s.cutAt L)) s.tx := by
  have hfetch : fetch p (s.cutAt L) = fetch p s := rfl
  unfold stepAccept
  rw [hfetch]
  cases fetch p s with
  | some i => exact exec_cutShort (s := consume i s) h i
  | none => exact nextDeliver_cutShort h

theorem step_cutShort (h : s.txErrorIn = none) : OutcomeCutShort L (step s) (step (s.cutAt L)) s.tx := by
  unfold step stepWith
  rw [State.cutAt_cs]
  cases s.cs with
  | boot =>
    refine CutShort.next (ite_cutShort (.quiet h rfl) ?_)
    exact handoff_cutShort (s := { s with swrf := false }) h _
  | awaitInit | cmdOp => exact stepAccept_cutShort h _
  | handedOff | initFailed => exact CutShort.next (f := .go s) (g := .go (s.cutAt L)) (.quiet h rfl)
  | fault r => exact fun _ => nofun
  | _ => exact nextDeliver_cutShort h

end

/-- A channel that fails after `k` more sends fails once `TX` has grown by `k` bytes. -/
theorem failing_eq_cutAt (s : State) (k : Nat) : { s with txErrorIn := some k } = s.cutAt (s.tx.length + k) := by
  rw [State.cutAt, Nat.add_sub_cancel_left]

/-- Settles O13: on both channels side by side, an instruction, a step and a delivery are the same up to the send that faults. -/
theorem errorOfTheChannelFaultsAtItsSend : Obligations.ErrorOfTheChannelFaultsAtItsSend := by
  unfold Obligations.ErrorOfTheChannelFaultsAtItsSend
  simp only [failing_eq_cutAt]
  refine ⟨fun i s t k d h e ht hk => ?_, fun s t k d h e ht hk => ?_, fun s k d h ht hk => (deliver_cutShort h).fault ht hk⟩
  · obtain ⟨u, hu, hend⟩ := exec_cutShort h i t e
    exact ⟨u, hu, hend.fault ht hk⟩
  · obtain ⟨u, hu, hend⟩ := step_cutShort h t e
    exact ⟨u, hu, hend.fault ht hk⟩

end Sys2Proof.Machine
end

section
/-! PROOFS. The address classes, and the two FlashController primitives that write class `Flash`, by their cases
(spec/41_address_class_write_arbiter.md R92, R93, R96, R97). -/

namespace Sys2Proof.Machine

/-! ## Address classes (R92) -/

theorem classify_eq_ram_iff (a : Addr) : classify a = .ram ↔ 0x20000200 ≤ a.toNat ∧ a.toNat ≤ 0x20005000 :=
  ⟨fun h => (inRam_iff _).1 (inRam_of_classify h), fun h => by
    have hflash : inFlash a.toNat = false := by
      rw [Bool.eq_false_iff, ne_eq, inFlash_iff]
      omega
    simp [classify, hflash, (inRam_iff _).2 h]⟩

/-- `Other` is what neither window holds. -/
theorem classify_eq_other_iff (a : Addr) : classify a = .other ↔ ¬ classify a = .flash ∧ ¬ classify a = .ram := by
  cases classify a <;> decide

/-- Settles O7: each window is its class, what is left is `Other`, and the boundary addresses are evaluated. -/
theorem classesFollowTheWindows : Obligations.ClassesFollowTheWindows := by
  unfold Obligations.ClassesFollowTheWindows
  refine ⟨classify_eq_flash_iff, classify_eq_ram_iff, fun a => ?_, ?_⟩
  · rw [classify_eq_other_iff, classify_eq_flash_iff, classify_eq_ram_iff]
  · decide

/-! ## Memory outside and inside a write -/

theorem sameOutside_writeBytes {m : Memory} (hm : m.wf = true) {lo n : Nat} {bs : List Byte} (hn : bs.length = n) :
    sameOutside lo n m (m.writeBytes lo bs) := by
  intro x hx
  rw [Memory.read_writeBytes hm, if_neg (by omega)]

/-- A draw leaves open the bytes of its range and changes no other (log 10). -/
theorem drawBytes_go {s : State} (hm : s.mem.wf = true) (lo n : Nat) :
    ∃ m d, Flow.go (drawBytes lo n s) = .go { s with mem := m, draws := d } ∧ sameOutside lo n s.mem m :=
  ⟨_, _, rfl, sameOutside_writeBytes hm (freeBytes_length _ _)⟩

/-- A word stored least significant byte first reads back byte by byte (R42). -/
theorem read_writeBytes_leBytes {m : Memory} (hm : m.wf = true) (a : Nat) (w : Addr) {i : Nat} (hi : i < 4) :
    (m.writeBytes a (leBytes w)).read (a + i) = byteOf i w := by
  have hlen : (leBytes w).length = 4 := rfl
  rw [Memory.read_writeBytes hm, if_pos (by omega), Nat.add_sub_cancel_left]
  interval_cases i <;> rfl

theorem wordErased_iff (e : Byte) (m : Memory) (a : Nat) : wordErased e m a = true ↔ ∀ i, i < 4 → m.read (a + i) = e := by
  simp only [wordErased, List.all_eq_true, List.mem_range, beq_iff_eq]

/-! ## `FC.programWord` (R96) -/

section
variable {s : State} {a : Addr} (w : Addr)

theorem programWord_misaligned (h : a.toNat % 4 ≠ 0) :
    programWord a w s = .stop { s with cs := .fault (.flashProgramMisaligned a) } := if_pos h

theorem programWord_outOfRange (h : a.toNat % 4 = 0) (hc : classify a ≠ .flash) :
    programWord a w s = .stop { s with cs := .fault (.flashProgramOutOfRange a) } := by
  rw [programWord, if_neg (not_not.2 h), if_pos hc]
  rfl

/-- An aligned word of class `Flash` that is erased and unprotected takes its bytes. -/
theorem programWord_erased (h : a.toNat % 4 = 0) (hc : classify a = .flash) (hp : sectorProtected s a.toNat = false)
    (he : ∀ i, i < 4 → s.mem.read (a.toNat + i) = s.cfg.erasedByte) :
    programWord a w s = .go { s with mem := s.mem.writeBytes a.toNat (leBytes w) } := by
  have hp : s.wrp.getLsbD (sectorIndex a) = false := hp
  rw [programWord, if_neg (not_not.2 h), if_neg (not_not.2 hc), hp, (wordErased_iff _ _ _).2 he]
  rfl

/-- Any other aligned word of class `Flash` is drawn. -/
theorem programWord_open (h : a.toNat % 4 = 0) (hc : classify a = .flash)
    (hopen : sectorProtected s a.toNat = true ∨ ∃ i, i < 4 ∧ s.mem.read (a.toNat + i) ≠ s.cfg.erasedByte) :
    programWord a w s = .go (drawBytes a.toNat 4 s) := by
  have hcond : (s.wrp.getLsbD (sectorIndex a) || !wordErased s.cfg.erasedByte s.mem a.toNat) = true := by
    rw [Bool.or_eq_true, Bool.not_eq_true', Bool.eq_false_iff, ne_eq, wordErased_iff]
    exact hopen.imp id fun ⟨i, hi, hne⟩ he => hne (he i hi)
  rw [programWord, if_neg (not_not.2 h), if_neg (not_not.2 hc), if_pos hcond]

end

/-- Settles O45: two faults, and an aligned word of class `Flash` written or drawn. -/
theorem programWordByItsCases : Obligations.ProgramWordByItsCases := by
  unfold Obligations.ProgramWordByItsCases
  refine fun s a w hm => ⟨programWord_misaligned w, programWord_outOfRange w, fun h hc hp he => ?_, fun h hc hopen => ?_⟩
  · exact ⟨_, programWord_erased w h hc hp he, fun i hi => read_writeBytes_leBytes hm _ w hi, sameOutside_writeBytes hm rfl⟩
  · rw [programWord_open w h hc hopen]
    exact drawBytes_go hm _ _

/-! ## `FC.erasePage` (R97) -/

section
variable {s : State} {p : Addr}

theorem erasePage_invalid (h : classify p ≠ .flash ∨ (p.toNat - 0x08006000) % 0x400 ≠ 0) :
    erasePage p s = .stop { s with cs := .fault (.erasePageInvalid p) } := if_pos h

/-- A page of class `Flash` is drawn if it is protected, and filled with the erased byte otherwise. -/
theorem erasePage_page (hc : classify p = .flash) (h : (p.toNat - 0x08006000) % 0x400 = 0) :
    erasePage p s =
      if sectorProtected s p.toNat = true then .go (drawBytes p.toNat 0x400 s)
      else .go { s with mem := s.mem.fill p.toNat 0x400 s.cfg.erasedByte } :=
  if_neg (not_or.2 ⟨not_not.2 hc, not_not.2 h⟩)

/-- A page of class `Flash` lies in the window whole (R9). -/
theorem page_in_window (hc : classify p = .flash) (h : (p.toNat - 0x08006000) % 0x400 = 0) :
    0x08006000 ≤ p.toNat ∧ p.toNat + 0x400 ≤ 0x08020000 := by
  obtain ⟨h1, h2⟩ := inFlash_of_classify hc
  omega

end

/-- Settles O46: the fault, and a page filled or drawn; a page lies in one window, so that filling it makes every byte read as
erased. -/
theorem erasePageByItsCases : Obligations.ErasePageByItsCases := by
  unfold Obligations.ErasePageByItsCases
  refine fun s p hm => ⟨erasePage_invalid, fun hc h hp => ?_, fun hc h hp => ?_⟩
  · obtain ⟨h1, h2⟩ := page_in_window hc h
    have hread := Memory.read_fill (Memory.background_of_inFlash h1 h2) s.mem s.cfg.erasedByte
    rw [erasePage_page hc h, if_neg (by simp [hp])]
    exact ⟨_, rfl, fun i hi => by rw [hread, if_pos (by omega)], fun x hx => by rw [hread, if_neg (by omega)]⟩
  · rw [erasePage_page hc h, if_pos hp]
    exact drawBytes_go hm _ _

end Sys2Proof.Machine
end

section
/-! PROOFS. A change of the protection status takes the block out of the command loop (spec/41_address_class_write_arbiter.md
R107, spec/42_dispatcher.md R117, spec/46_protection_commands.md R129): every piece of a handler that leaves the loop going leaves
`ROP` and `WRP` as they are. -/

namespace Sys2Proof.Machine

/-! ## The protection status, in the command loop and out of it -/

/-- `ROP` and `WRP` are those of `p`. -/
def State.protectionIs (p : Bool × BitVec 26) (s : State) : Prop := (s.rop, s.wrp) = p

theorem ofStorage_protectionIs {p : Bool × BitVec 26} : OfStorage (State.protectionIs p) :=
  fun _ _ h e => (congrArg Prod.snd e).trans h

/-- The command loop does not go on: the block is at its reset or in a fault (R105, R135). -/
def State.outOfLoop (s : State) : Prop := s.cs = .boot ∨ ∃ r, s.cs = .fault r

/-- `ROP` and `WRP` are those of `p`, or the command loop does not go on. -/
def State.loopProtectionIs (p : Bool × BitVec 26) (s : State) : Prop := s.protectionIs p ∨ s.outOfLoop

theorem State.loopProtectionIs.of_waits {p : Bool × BitVec 26} {s : State} (h : s.loopProtectionIs p)
    (hw : s.cs.waits = true) : s.protectionIs p := by
  obtain h | hcs | ⟨r, hcs⟩ := h
  · exact h
  all_goals
    rw [hcs] at hw
    cases hw

/-! ## Pieces that take the block out of the loop (R105, R107) -/

/-- ACK and `FC.reset()`: the reset, or a fault of the channel on the way to it. -/
theorem ackReset_outOfLoop (s : State) : ((ack s).andThen fcReset).meets State.outOfLoop := by
  obtain e | e := send_cases Const.ack s <;> rw [ack, e]
  · exact .inl rfl
  · exact .inr ⟨_, rfl⟩

/-- write-protect sets its bits one by one, and whichever sector it stops at, it stops in a fault (R100, R130). -/
theorem protectSectorsReset_outOfLoop (as : List Addr) (s : State) :
    ((protectSectors as s).andThen fun t => (ack t).andThen fcReset).meets State.outOfLoop := by
  induction as generalizing s with
  | nil => exact ackReset_outOfLoop s
  | cons a as ih =>
    unfold protectSectors enableWriteProtection
    split
    · exact .inr ⟨_, rfl⟩
    · exact ih _

/-- Option bytes are written and the reset follows, or there are too many of them (R99). -/
theorem programOptionBytesReset_outOfLoop (xs : List Byte) (s : State) :
    ((programOptionBytes xs s).andThen fun t => (ack t).andThen fcReset).meets State.outOfLoop := by
  unfold programOptionBytes
  split
  · exact .inr ⟨_, rfl⟩
  · exact ackReset_outOfLoop _

/-! ## Sequencing (R17, R24) -/

/-- The running handler, whichever it is (R21). -/
theorem running_meets {P : State → Prop} (hP : OfStorage P) {s : State} (h : P s) {k : Option Command → Flow}
    (hk : ∀ c, (k c).meets P) : (running s k).meets P := reading_meets hP h fun _ => hk _

section
variable {p : Bool × BitVec 26} {s : State}

/-- A piece that keeps the protection status, before one that takes the block out of the loop. -/
theorem Flow.loopProtectionIs_andThen {f : Flow} {k : State → Flow} (hf : f.meets (State.protectionIs p))
    (hk : ∀ t, (k t).meets State.outOfLoop) : (f.andThen k).meets (State.loopProtectionIs p) := by
  cases f with
  | go t => exact .inr (hk t)
  | stop t => exact .inl hf

/-- A register is read, or the block is in a fault. -/
theorem reading_loopProtectionIs {α : Type} {r : Register} {v : Option α} {k : α → Flow}
    (hk : ∀ x, (k x).meets (State.loopProtectionIs p)) : (reading r v s k).meets (State.loopProtectionIs p) := by
  cases v with
  | some x => exact hk x
  | none => exact .inr (.inr ⟨_, rfl⟩)

theorem running_loopProtectionIs {k : Option Command → Flow} (hk : ∀ c, (k c).meets (State.loopProtectionIs p)) :
    (running s k).meets (State.loopProtectionIs p) := reading_loopProtectionIs fun _ => hk _

theorem checkedFrame_loopProtectionIs {k : List Byte → Bool → Flow}
    (hk : ∀ payload ok, (k payload ok).meets (State.loopProtectionIs p)) :
    (checkedFrame s k).meets (State.loopProtectionIs p) :=
  reading_loopProtectionIs fun _ => reading_loopProtectionIs fun _ => reading_loopProtectionIs fun _ => hk _ _

end

section
variable {p : Bool × BitVec 26} {s : State} (h : s.protectionIs p)
include h

/-! ## Writes of memory keep the protection status (R47, R95 to R98) -/

theorem State.protectionIs.withMem (m : Memory) (d : Nat) : ({ s with mem := m, draws := d } : State).protectionIs p := h

theorem programWord_protectionIs (a w : Addr) : (programWord a w s).meets (State.protectionIs p) := by
  unfold programWord
  split
  · exact raise_meets ofStorage_protectionIs h _
  · split
    · exact raise_meets ofStorage_protectionIs h _
    · split <;> exact h.withMem _ _

theorem programWords_protectionIs (ws : List Addr) (a : Addr) : (programWords ws a s).meets (State.protectionIs p) := by
  induction ws generalizing a s with
  | nil => exact h
  | cons w ws ih => exact Flow.meets_andThen (programWord_protectionIs h a w) fun _ ht => ih ht _

theorem memWriteByte_protectionIs (a : Addr) (v : Byte) : (memWriteByte a v s).meets (State.protectionIs p) := by
  unfold memWriteByte
  split
  · exact h.withMem _ _
  · exact raise_meets ofStorage_protectionIs h _

theorem storeBytes_protectionIs (bs : List Byte) (a : Addr) : (storeBytes bs a s).meets (State.protectionIs p) := by
  induction bs generalizing a s with
  | nil => exact h
  | cons b bs ih => exact Flow.meets_andThen (memWriteByte_protectionIs h a b) fun _ ht => ih ht _

theorem erasePage_protectionIs (q : Addr) : (erasePage q s).meets (State.protectionIs p) := by
  unfold erasePage
  split
  · exact raise_meets ofStorage_protectionIs h _
  · split <;> exact h.withMem _ _

theorem erasePages_protectionIs (ps : List Addr) : (erasePages ps s).meets (State.protectionIs p) := by
  induction ps generalizing s with
  | nil => exact h
  | cons q ps ih => exact Flow.meets_andThen (erasePage_protectionIs h q) fun _ ht => ih ht

theorem erasePagesAck_protectionIs (ps : List Addr) :
    ((erasePages ps s).andThen fun t => (ack t).andThen finish).meets (State.protectionIs p) :=
  Flow.meets_andThen (erasePages_protectionIs h ps) fun _ ht => ackFinish_meets ofStorage_protectionIs ht

/-! ## Stages that keep the protection status (R123 to R127) -/

theorem addrStage_protectionIs : (addrStage s).meets (State.protectionIs p) := by
  refine running_meets ofStorage_protectionIs h fun c => ?_
  split
  · exact rmAddrStage_meets ofStorage_protectionIs h
  · exact goAddrStage_meets ofStorage_protectionIs h
  · refine checkedAddr_meets ofStorage_protectionIs h fun a ok => ?_
    split
    · exact ackWait_meets ofStorage_protectionIs h _
    · exact takeError_meets ofStorage_protectionIs h _
  all_goals exact raise_meets ofStorage_protectionIs h _

theorem countStage_protectionIs : (countStage s).meets (State.protectionIs p) := by
  refine running_meets ofStorage_protectionIs h fun c => ?_
  split
  · exact rmCountStage_meets ofStorage_protectionIs h
  all_goals exact raise_meets ofStorage_protectionIs h _

theorem numberStage_protectionIs : (numberStage s).meets (State.protectionIs p) := by
  refine running_meets ofStorage_protectionIs h fun c => ?_
  split
  case h_2 =>
    refine reading_meets ofStorage_protectionIs h fun n => ?_
    split
    · exact erasePagesAck_protectionIs h _
    · exact h
  case h_1 | h_3 => exact h
  all_goals exact raise_meets ofStorage_protectionIs h _

theorem erFrameStage_protectionIs : (erFrameStage s).meets (State.protectionIs p) := by
  refine checkedFrame_meets ofStorage_protectionIs h fun indices ok => ?_
  split
  · exact erasePagesAck_protectionIs h _
  · split
    · exact takeError_meets ofStorage_protectionIs h _
    · exact Flow.meets_andThen (send_meets ofStorage_protectionIs h _) fun _ ht => erasePagesAck_protectionIs ht _

theorem receiveAddrByte_protectionIs (k : Fin 4) (b : Byte) : (receiveAddrByte k b s).meets (State.protectionIs p) := by
  by_cases hk : k.val = 0
  · simp only [receiveAddrByte, if_pos hk]
    exact h
  · simp only [receiveAddrByte, if_neg hk]
    exact reading_meets ofStorage_protectionIs h fun _ => h

theorem receivePayloadByte_protectionIs (j : Nat) (b : Byte) : (receivePayloadByte j b s).meets (State.protectionIs p) := by
  refine reading_meets ofStorage_protectionIs h fun n => ?_
  split <;> exact h

theorem receiveTimeout_protectionIs : (receiveTimeout s).meets (State.protectionIs p) := by
  unfold receiveTimeout
  split
  case h_11 | h_12 | h_13 | h_14 => exact h
  all_goals exact takeError_meets ofStorage_protectionIs h _

/-! ## Stages that may change it and leave the loop (R95, R107, R129 to R133) -/

theorem takeError_loopProtectionIs (e : ProtocolError) : (takeError e s).meets (State.loopProtectionIs p) :=
  .inl (takeError_meets ofStorage_protectionIs h e)

theorem wuHandler_loopProtectionIs : (wuHandler s).meets (State.loopProtectionIs p) :=
  Flow.loopProtectionIs_andThen (ack_meets ofStorage_protectionIs h) fun _ => ackReset_outOfLoop _

theorem rpHandler_loopProtectionIs : (rpHandler s).meets (State.loopProtectionIs p) := by
  unfold rpHandler
  split
  · exact takeError_loopProtectionIs h _
  · exact Flow.loopProtectionIs_andThen (ack_meets ofStorage_protectionIs h) fun _ => ackReset_outOfLoop _

theorem ruHandler_loopProtectionIs : (ruHandler s).meets (State.loopProtectionIs p) := by
  refine Flow.loopProtectionIs_andThen (ack_meets ofStorage_protectionIs h) fun t => ?_
  obtain e | e := send_cases Const.ack (disableReadoutProtection t) <;> rw [ack, e]
  · exact .inl rfl
  · exact .inr ⟨_, rfl⟩

theorem acceptHeader_loopProtectionIs (c : Command) {k : State → Flow} (hk : (k s).meets (State.loopProtectionIs p)) :
    (acceptHeader c k s).meets (State.loopProtectionIs p) := by
  unfold acceptHeader
  split
  · exact takeError_loopProtectionIs h _
  · exact hk

/-- Only the handlers of write-unprotect, readout-protect and readout-unprotect change it before their first wait (R129). -/
theorem dispatch_loopProtectionIs (c : Command) : (dispatch c s).meets (State.loopProtectionIs p) := by
  cases c with
  | wu => exact acceptHeader_loopProtectionIs h _ (wuHandler_loopProtectionIs h)
  | rp => exact acceptHeader_loopProtectionIs h _ (rpHandler_loopProtectionIs h)
  | ru => exact acceptHeader_loopProtectionIs h _ (ruHandler_loopProtectionIs h)
  | get => exact .inl (acceptHeader_meets ofStorage_protectionIs h _ (reply_meets ofStorage_protectionIs h _))
  | gv =>
    exact .inl (acceptHeader_meets ofStorage_protectionIs h _
      (reply_meets ofStorage_protectionIs h fun t => [t.cfg.versionByte, 0x00, 0x00]))
  | gid =>
    exact .inl (acceptHeader_meets ofStorage_protectionIs h _
      (reply_meets ofStorage_protectionIs h fun t => [t.cfg.idBytes.1, t.cfg.idBytes.2.1, t.cfg.idBytes.2.2]))
  | rm | go | wm | er | wp =>
    exact .inl (acceptHeader_meets ofStorage_protectionIs h _ (ackWait_meets ofStorage_protectionIs h _))
  | ee => exact .inl (acceptHeader_meets ofStorage_protectionIs h _ (takeError_meets ofStorage_protectionIs h _))

theorem headerStage_loopProtectionIs : (headerStage s).meets (State.loopProtectionIs p) := by
  refine reading_loopProtectionIs fun op => reading_loopProtectionIs fun cp => ?_
  split
  · split
    · exact dispatch_loopProtectionIs h _
    · exact takeError_loopProtectionIs h _
  · exact takeError_loopProtectionIs h _

/-- write-memory changes it by the option bytes only (R95, R99). -/
theorem arbitrateWrite_loopProtectionIs (a : Addr) (payload : List Byte) :
    (arbitrateWrite a payload s).meets (State.loopProtectionIs p) := by
  unfold arbitrateWrite
  split
  · exact .inl (Flow.meets_andThen (programWords_protectionIs h _ _) fun _ ht => ackFinish_meets ofStorage_protectionIs ht)
  · refine .inl (Flow.meets_andThen (storeBytes_protectionIs h _ _) fun t ht => ?_)
    split
    · exact ackFinish_meets ofStorage_protectionIs ht
    · exact finish_meets ofStorage_protectionIs ht
  · split
    · exact .inr (programOptionBytesReset_outOfLoop _ _)
    · exact takeError_loopProtectionIs h _

theorem wmFrameStage_loopProtectionIs : (wmFrameStage s).meets (State.loopProtectionIs p) := by
  refine checkedFrame_loopProtectionIs fun payload ok => reading_loopProtectionIs fun a => ?_
  split
  · exact arbitrateWrite_loopProtectionIs h _ _
  · exact takeError_loopProtectionIs h _

theorem wpFrameStage_loopProtectionIs : (wpFrameStage s).meets (State.loopProtectionIs p) := by
  refine checkedFrame_loopProtectionIs fun indices ok => ?_
  split
  · exact .inr (protectSectorsReset_outOfLoop _ _)
  · exact takeError_loopProtectionIs h _

theorem frameStage_loopProtectionIs : (frameStage s).meets (State.loopProtectionIs p) := by
  refine running_loopProtectionIs fun c => ?_
  split
  · exact wmFrameStage_loopProtectionIs h
  · exact .inl (erFrameStage_protectionIs h)
  · exact wpFrameStage_loopProtectionIs h
  all_goals exact .inr (.inr ⟨_, rfl⟩)

/-! ## Events and steps (R22, R25) -/

theorem receiveByte_loopProtectionIs (b : Byte) : (receiveByte b s).meets (State.loopProtectionIs p) := by
  unfold receiveByte
  split
  case h_1 =>
    split
    · exact .inl (ackFinish_meets ofStorage_protectionIs h)
    · exact takeError_loopProtectionIs h _
  case h_3 => exact headerStage_loopProtectionIs (s := { s with cmp := some b }) h
  case h_4 => exact .inl (receiveAddrByte_protectionIs h _ b)
  case h_5 => exact .inl (addrStage_protectionIs (s := { s with acks := some b }) h)
  case h_7 => exact .inl (countStage_protectionIs (s := { s with ncks := some b }) h)
  case h_8 => exact .inl (numberStage_protectionIs (s := { s with num := some b }) h)
  case h_9 => exact .inl (receivePayloadByte_protectionIs h _ b)
  case h_10 => exact frameStage_loopProtectionIs (s := { s with cks := some b }) h
  all_goals exact .inl h

end

/-- A delivery at a wait point. -/
theorem deliver_loopProtectionIs {p : Bool × BitVec 26} {s : State} (hw : s.cs.waits = true) (h : s.loopProtectionIs p) :
    (deliver s).loopProtectionIs p := by
  cases hrx : s.rx with
  | nil => rwa [deliver_nil hrx]
  | cons ev rest =>
    have ht : ({ s with rx := rest } : State).protectionIs p := h.of_waits hw
    rw [deliver_cons hrx]
    cases ev with
    | byte b => exact receiveByte_loopProtectionIs ht b
    | timeout => exact .inl (receiveTimeout_protectionIs ht)

/-- The reset sequence reads `SWRF` and the pin, and changes no protection (R150, R152). -/
theorem bootSequence_protectionIs {p : Bool × BitVec 26} {s : State} (h : s.protectionIs p) :
    (bootSequence s).meets (State.protectionIs p) := by
  unfold bootSequence
  dsimp only
  split
  · exact h
  · exact handoff_meets ofStorage_protectionIs (s := { s with swrf := false }) h _

/-- Settles O58: the reset sequence keeps the protection status, and a run of deliveries goes on only where each kept it. -/
theorem protectionChangesEndInTheReset : Obligations.ProtectionChangesEndInTheReset := by
  unfold Obligations.ProtectionChangesEndInTheReset
  intro s t h
  have hkept : t.loopProtectionIs (s.rop, s.wrp) := by
    obtain ⟨-, e⟩ | ⟨n, hk, e⟩ | ⟨r, -, e⟩ := step_cases s <;> rw [e] at h <;> cases h
    · exact .inl (bootSequence_protectionIs rfl)
    · exact deliverMany_keeps (fun _ => deliver_loopProtectionIs) hk (.inl rfl)
  exact hkept.imp_left Prod.mk.inj

end Sys2Proof.Machine
end

section
/-! PROOFS. The handshake at `AWAIT_INIT`, and INIT's byte inside the command loop (spec/42_dispatcher.md R109, R110, R119). -/

namespace Sys2Proof.Machine

/-! ## The handshake (R109, R110) -/

/-- The handler of INIT on a healthy channel (R109). -/
theorem initHandler_eq {s : State} (h : s.canSend 1 = true) : initHandler s = .stop (endCommand (s.sent [0x79])) := by
  rw [initHandler, ack_eq h, Flow.andThen_go, finish_eq]

/-- Settles O14: INIT is its handler, which ends normally after one ACK. -/
theorem initOpensTheCommandLoop : Obligations.InitOpensTheCommandLoop := by
  unfold Obligations.InitOpensTheCommandLoop
  intro s h
  change Host.Outcome.next (initHandler s).state = _
  rw [initHandler_eq h, Flow.state_stop]

/-- No command is fetched at `AWAIT_INIT` but by the INIT byte (R61). -/
theorem fetch_awaitInit_eq_none {s : State} {ev : RxEvent} {rest : List RxEvent} (hrx : s.rx = ev :: rest)
    (hev : ev ≠ .byte Const.initByte) : fetch .awaitInit s = none := by
  cases ev with
  | timeout => exact fetch_eq_none (by rw [hrx]; rfl) _
  | byte b =>
    have hb : b ≠ Const.initByte := fun e => hev (congrArg RxEvent.byte e)
    simp only [fetch, hrx, leadingBytes, decode, decodeInit, if_neg hb]

/-- Any event but the INIT byte is the error E8 there (R110). -/
theorem receive_awaitInit {s : State} {ev : RxEvent} (hcs : s.cs = .awaitInit) (hev : ev ≠ .byte Const.initByte) :
    receive ev s = takeError .initFailed s := by
  cases ev with
  | timeout => simp only [receive, receiveTimeout, hcs]
  | byte b =>
    have hb : b ≠ Const.initByte := fun e => hev (congrArg RxEvent.byte e)
    simp only [receive, receiveByte, hcs, if_neg hb]

/-- The error E8 has no reply and changes the control state only (R110, R134). -/
theorem takeError_initFailed (s : State) : takeError .initFailed s = .stop { s with cs := .initFailed } := takeError_silent rfl

/-- Settles O15: the step is the delivery that takes E8, and the state it leaves is final. -/
theorem anyOtherFirstEventFailsTheHandshake : Obligations.AnyOtherFirstEventFailsTheHandshake := by
  unfold Obligations.AnyOtherFirstEventFailsTheHandshake
  intro s ev rest hcs hrx hev
  have hstep : step s = .next { s with cs := .initFailed, rx := rest } := by
    rw [step_eq_stepAccept (p := .awaitInit) hcs, stepAccept, fetch_awaitInit_eq_none hrx hev, deliver_cons hrx,
      receive_awaitInit (s := { s with rx := rest }) hcs hev, takeError_initFailed, Flow.state_stop]
  obtain ⟨-, hfinal, -⟩ := terminalStatesAreFinal { s with cs := .initFailed, rx := rest }
  exact ⟨_, hstep, rfl, hfinal rfl⟩

/-! ## INIT's byte in the command loop (R119) -/

/-- A complement byte that is not `~op` is answered with one NACK, under `HDR_MISMATCH_NACKS = 1` (R74, R113). -/
theorem step_step_of_mismatch {s : State} {op cp : Byte} {rest : List RxEvent} (hcs : s.cs = .cmdOp)
    (hrx : s.rx = .byte op :: .byte cp :: rest) (hcp : cp ≠ complement op) (hsend : s.canSend 1 = true)
    (hone : s.cfg.hdrMismatchNacks = .one) :
    ∃ u, step s = .next u ∧ u = { s with cs := .cmdCp, cmd := some op, rx := .byte cp :: rest } ∧
      step u = .next { endCommand (s.sent [0x1F]) with rx := rest } := by
  have hreply : errorReply s.cfg .headerMismatch = [0x1F] := by simp only [errorReply, hone]
  rw [← hreply]
  exact step_step_of_refused (d := .headerMismatch op cp) hcs hrx (by simp [decode, decodeCommand, hcp])
    (fun t ho hc => by simp [headerStage, ho, hc, hcp]) (fun _ => rfl) (by rwa [hreply])

/-- Settles O18: 0x7F is none of the twelve opcodes, so its own complement is refused as any other byte is. -/
theorem initByteHasNoMeaningInTheLoop : Obligations.InitByteHasNoMeaningInTheLoop := by
  unfold Obligations.InitByteHasNoMeaningInTheLoop
  intro s b rest hcs hrx hsend hone
  have hrefused : ∃ u, step s = .next u ∧ u = { s with cs := .cmdCp, cmd := some 0x7F, rx := .byte b :: rest } ∧
      step u = .next { endCommand (s.sent [0x1F]) with rx := rest } := by
    by_cases hb : b = ~~~0x7F
    · subst hb
      exact unknownOpcodeIsRefused s 0x7F rest hcs hrx (by decide) hsend
    · exact step_step_of_mismatch hcs hrx hb hsend hone
  obtain ⟨u, hstep, rfl, hstep'⟩ := hrefused
  exact ⟨_, hstep, rfl, rfl, hstep'⟩

end Sys2Proof.Machine
end

section
/-! PROOFS. The guard and the first reply of a dispatched command (spec/42_dispatcher.md R114, R116, R118): every command is its
dispatch followed by the stages after its header, and those only add to `TX`. -/

namespace Sys2Proof.Machine

/-! ## A command after its header -/

/-- What a command does with its operand frames once its handler goes on; a command without operands has none (R77). -/
def afterHeader (i : Instr) (s : State) : Flow :=
  match i with
  | .init | .get | .gv | .gid | .ee | .wu | .rp | .ru => .go s
  | .rm addr acks count ncks =>
    (rmAddrStage (receiveAddr addr acks s)).andThen fun s => rmCountStage (receiveCount count ncks s)
  | .go addr acks => goAddrStage (receiveAddr addr acks s)
  | .wm addr acks payload cks =>
    (wmAddrStage (receiveAddr addr acks s)).andThen fun s =>
      (wmNumberStage (receiveNumber (numberOf payload) s)).andThen fun s => wmFrameStage (receiveBody payload cks s)
  | .er list => (erNumberStage (receiveNumber (erNumber list) s)).andThen (erBody list)
  | .wp indices cks =>
    (wpNumberStage (receiveNumber (numberOf indices) s)).andThen fun s => wpFrameStage (receiveBody indices cks s)

theorem Flow.andThen_id (f : Flow) : f.andThen .go = f := by
  cases f <;> rfl

/-- Every command is its dispatch, then the stages after its header (R114). -/
theorem exec_eq_dispatch {i : Instr} {c : Command} (hc : i.command = some c) (s : State) :
    exec i s = .next ((dispatch c (issue c (operandBytes i) s)).andThen (afterHeader i)).state := by
  cases i <;> cases hc
  case rm | go | wm | er | wp => rfl
  all_goals exact congrArg (fun f => Host.Outcome.next (Flow.state f)) (Flow.andThen_id _).symm

/-- Where the dispatch ends the step, nothing of the operand frames is received. -/
theorem exec_of_dispatch_stop {i : Instr} {c : Command} {s t : State} (hc : i.command = some c)
    (h : dispatch c (issue c (operandBytes i) s) = .stop t) : exec i s = .next t := by
  rw [exec_eq_dispatch hc, h, Flow.andThen_stop, Flow.state_stop]

/-! ## Headers that are refused (R104, R116, R128) -/

/-- The guard holds a command back (R116). -/
theorem guardOpen_eq_false_iff (s : State) (c : Command) :
    s.guardOpen c = false ↔ (c = .wp ∨ c.opcode ∈ s.cfg.ropGuarded) ∧ s.rop = true := by
  have hwp : c.opcode = Command.opcode .wp ↔ c = .wp := ⟨Command.opcode_injective, congrArg _⟩
  simp [State.guardOpen, ropGuards, hwp, or_iff_not_imp_left]

theorem acceptHeader_closed {s : State} {c : Command} (h : s.guardOpen c = false) (k : State → Flow) :
    acceptHeader c k s = takeError .protectionViolation s := by
  simp only [State.guardOpen, Bool.not_eq_false'] at h
  rw [acceptHeader, if_pos h]

theorem dispatch_closed {s : State} {c : Command} (h : s.guardOpen c = false) :
    dispatch c s = takeError .protectionViolation s := by
  cases c <;> exact acceptHeader_closed h _

/-- The three exceptions of R118: the stub, readout-protect under `ROP`, and the guard. -/
def State.refusesHeader (s : State) (c : Command) : Prop :=
  c = .ee ∨ (c = .rp ∧ s.rop = true) ∨ ((c = .wp ∨ c.opcode ∈ s.cfg.ropGuarded) ∧ s.rop = true)

/-- Each of them is one NACK and the end of the command (R104, R116, R128). -/
theorem dispatch_refused {s : State} {c : Command} (hr : s.refusesHeader c) (h : s.canSend 1 = true) :
    dispatch c s = .stop (endCommand (s.sent [0x1F])) := by
  cases hg : s.guardOpen c with
  | false => rw [dispatch_closed hg, takeError_nack rfl rfl h]
  | true =>
    obtain rfl | ⟨rfl, hrop⟩ | hguard := hr
    · exact (acceptHeader_open hg _).trans (takeError_nack rfl rfl h)
    · exact (acceptHeader_open hg _).trans ((if_pos hrop).trans (takeError_nack rfl rfl h))
    · rw [(guardOpen_eq_false_iff s c).2 hguard] at hg
      cases hg

/-- A refused command sends one NACK and leaves its operand bytes in the script (R157). -/
theorem exec_refused {i : Instr} {c : Command} {s : State} (hc : i.command = some c) (hr : s.refusesHeader c)
    (h : s.canSend 1 = true) :
    exec i s = .next { endCommand (s.sent [0x1F]) with rx := (operandBytes i).map RxEvent.byte ++ s.rx } :=
  exec_of_dispatch_stop hc (dispatch_refused (s := issue c _ s) hr h)

/-- Settles O19: the guard's is one of the refusals. -/
theorem guardRefusesUnderReadoutProtection : Obligations.GuardRefusesUnderReadoutProtection := by
  unfold Obligations.GuardRefusesUnderReadoutProtection
  intro i c s hc hguard hrop h
  exact exec_refused hc (.inr (.inr ⟨hguard, hrop⟩)) h

/-! ## Bytes that stay sent (R34) -/

/-- The bytes `tx` have been sent, and perhaps more. -/
def State.hasSent (tx : List Byte) (s : State) : Prop := tx <+: s.tx

/-- No piece of a handler takes a byte back. -/
theorem Piece.meets_hasSent {ok : Prop} {tx : List Byte} {s : State} {f : Flow} (hf : Piece ok s (AtWait ok s) f)
    (h : s.hasSent tx) : f.meets (State.hasSent tx) := by
  obtain ⟨d, hd⟩ := hf.state.1.tx
  exact h.trans ⟨d, hd.symm⟩

section
variable {tx : List Byte} {s : State} (h : s.hasSent tx)
include h

/-- Whatever the registers hold, the stages after a header only add to `TX`. -/
theorem afterHeader_meets_hasSent (i : Instr) : (afterHeader i s).meets (State.hasSent tx) := by
  cases i with
  | init | get | gv | gid | ee | wu | rp | ru => exact h
  | rm a x n y =>
    have haddr := rmAddrStage_piece (ok := False) (.refl (receiveAddr a x s)) nofun nofun
    exact Flow.meets_andThen (haddr.meets_hasSent h) fun t ht =>
      (rmCountStage_piece (ok := False) (.refl (receiveCount n y t)) nofun).meets_hasSent ht
  | go a x => exact (goAddrStage_piece (ok := False) (.refl (receiveAddr a x s)) nofun).meets_hasSent h
  | wm a x payload y =>
    have haddr := wmAddrStage_piece (ok := False) (.refl (receiveAddr a x s)) nofun nofun
    refine Flow.meets_andThen (haddr.meets_hasSent h) fun t ht => ?_
    have hnumber := startBody_piece (ok := False) (.refl (receiveNumber (numberOf payload) t)) nofun
    exact Flow.meets_andThen (hnumber.meets_hasSent ht) fun u hu =>
      (wmFrameStage_piece (ok := False) (.refl (receiveBody payload y u)) nofun nofun).meets_hasSent hu
  | er list =>
    have hnumber := erNumberStage_piece (ok := False) (.refl (receiveNumber (erNumber list) s)) nofun nofun
    refine Flow.meets_andThen (hnumber.meets_hasSent h) fun t ht => ?_
    cases list with
    | none => exact ht
    | some l => exact (erFrameStage_piece (ok := False) (.refl (receiveBody l.1 l.2 t)) nofun).meets_hasSent ht
  | wp indices y =>
    have hnumber := startBody_piece (ok := False) (.refl (receiveNumber (numberOf indices) s)) nofun
    exact Flow.meets_andThen (hnumber.meets_hasSent h) fun t ht =>
      (wpFrameStage_piece (ok := False) (.refl (receiveBody indices y t)) nofun).meets_hasSent ht

end

/-! ## Headers that are acknowledged (R118) -/

/-- A handler that begins with ACK, past its guard. -/
theorem acceptHeader_ack_meets {c : Command} {s : State} {k : State → Flow} (hg : s.guardOpen c = true)
    (h : s.canSend 1 = true) (hk : ∀ t, Piece False t (AtWait False t) (k t)) :
    (acceptHeader c (fun s => (ack s).andThen k) s).meets (State.hasSent (s.tx ++ [0x79])) := by
  rw [acceptHeader_open hg, ack_eq h]
  exact (hk _).meets_hasSent ⟨[], List.append_nil _⟩

/-- ACK is the first byte of every handler but the three exceptions (R118). -/
theorem dispatch_acknowledged {s : State} {c : Command} (hr : ¬ s.refusesHeader c) (h : s.canSend 1 = true) :
    (dispatch c s).meets (State.hasSent (s.tx ++ [0x79])) := by
  have hg : s.guardOpen c = true := by
    rw [← Bool.not_eq_false, guardOpen_eq_false_iff]
    exact fun hguard => hr (.inr (.inr hguard))
  have hreply : ∀ bs : State → List Byte, ∀ t,
      Piece False t (AtWait False t) ((sendAll (bs t) t).andThen fun u => (ack u).andThen finish) :=
    fun _ t => (sendAll_piece (.refl t) _).andThen fun _ => ackFinish_piece
  have hreset : ∀ t u, Works t u → Piece False t (AtWait False t) ((ack u).andThen fcReset) :=
    fun _ _ hu => ackReset_piece hu.toExtends hu.pin
  cases c with
  | get => exact acceptHeader_ack_meets hg h (hreply fun _ => getCmdReply)
  | gv => exact acceptHeader_ack_meets hg h (hreply fun t => [t.cfg.versionByte, 0x00, 0x00])
  | gid => exact acceptHeader_ack_meets hg h (hreply fun t => [t.cfg.idBytes.1, t.cfg.idBytes.2.1, t.cfg.idBytes.2.2])
  | rm | go | wm | er | wp => exact acceptHeader_ack_meets hg h fun _ => ⟨.of_shared rfl, nofun⟩
  | ee => exact absurd (.inl rfl) hr
  | wu => exact acceptHeader_ack_meets hg h fun t => hreset t (removeWriteProtection t) (.of_shared rfl)
  | rp =>
    have hrop : ¬ s.rop = true := fun hrop => hr (.inr (.inl ⟨rfl, hrop⟩))
    have hack : dispatch .rp s =
        acceptHeader .rp (fun s => (ack s).andThen fun t => (ack (enableReadoutProtection t)).andThen fcReset) s := by
      simp only [dispatch, acceptHeader_open hg, rpHandler, if_neg hrop]
    rw [hack]
    exact acceptHeader_ack_meets hg h fun t => hreset t (enableReadoutProtection t) (.of_shared rfl)
  | ru =>
    refine acceptHeader_ack_meets hg h fun t => (ack_piece (works_disableReadoutProtection t)).andThen fun u hu => ?_
    have hu' := hu.trans (works_clearRam u)
    exact fcReset_piece hu'.toExtends hu'.pin

/-- The first byte of a dispatched command stays sent to its end. -/
theorem exec_acknowledged {i : Instr} {c : Command} {s t : State} (hc : i.command = some c) (hr : ¬ s.refusesHeader c)
    (h : s.canSend 1 = true) (e : exec i s = .next t) : t.hasSent (s.tx ++ [0x79]) := by
  rw [exec_eq_dispatch hc] at e
  cases e
  exact Flow.meets_andThen (dispatch_acknowledged (s := issue c _ s) hr h) fun _ hu => afterHeader_meets_hasSent hu i

/-- Settles O20: the three exceptions are refused with NACK, and every other handler begins with ACK. -/
theorem firstReplyIsAckButForTheNotedThree : Obligations.FirstReplyIsAckButForTheNotedThree := by
  unfold Obligations.FirstReplyIsAckButForTheNotedThree
  intro i c s t hc h e
  split
  · rename_i hr
    rw [exec_refused hc hr h] at e
    cases e
    exact ⟨[], rfl⟩
  · rename_i hr
    obtain ⟨d, hd⟩ := exec_acknowledged hc hr h e
    exact ⟨d, by simp [← hd]⟩

end Sys2Proof.Machine
end

section
/-! PROOFS. The information commands (spec/43_info_commands.md R120 to R122): each is one reply between two ACKs, whose bytes the
parameters alone decide, so one rule gives the whole effect of all three. -/

namespace Sys2Proof.Machine

/-- The handler of an information command: ACK, the bytes of the reply, ACK (R120 to R122). -/
def replyHandler (reply : Config → List Byte) (s : State) : Flow :=
  (ack s).andThen fun t => (sendAll (reply t.cfg) t).andThen fun u => (ack u).andThen finish

theorem getHandler_eq : getHandler = replyHandler fun _ => getCmdReply := rfl
theorem gvHandler_eq : gvHandler = replyHandler fun cfg => [cfg.versionByte, 0x00, 0x00] := rfl
theorem gidHandler_eq :
    gidHandler = replyHandler fun cfg => [cfg.idBytes.1, cfg.idBytes.2.1, cfg.idBytes.2.2] := rfl

/-- On a healthy channel the whole reply is sent and the command ends. -/
theorem replyHandler_eq {reply : Config → List Byte} {s : State} (h : s.canSend ((reply s.cfg).length + 2) = true) :
    replyHandler reply s = .stop (endCommand (s.sent (0x79 :: reply s.cfg ++ [0x79]))) := by
  have hfirst : s.canSend 1 = true := State.canSend_mono h (by omega)
  have hrest : (s.sent [0x79]).canSend ((reply s.cfg).length + 1) = true :=
    State.canSend_sent (State.canSend_mono h (by rw [List.length_singleton]; omega))
  have hbytes : (s.sent [0x79]).canSend (reply s.cfg).length = true := State.canSend_mono hrest (by omega)
  have hlast : ((s.sent [0x79]).sent (reply s.cfg)).canSend 1 = true := State.canSend_sent hrest
  have hcfg : (s.sent [0x79]).cfg = s.cfg := rfl
  rw [replyHandler, ack_eq hfirst, Flow.andThen_go, hcfg, sendAll_eq hbytes, Flow.andThen_go, ack_eq hlast, Flow.andThen_go,
    finish_eq, State.sent_sent, State.sent_sent]
  rfl

/-- An information command past its guard changes nothing but `TX`, and ends (R117). -/
theorem exec_reply {i : Instr} {c : Command} {reply : Config → List Byte} (hc : i.command = some c) (hops : operandBytes i = [])
    (hd : dispatch c = acceptHeader c (replyHandler reply)) {s : State} (hg : s.guardOpen c = true)
    (h : s.canSend ((reply s.cfg).length + 2) = true) :
    exec i s = .next (endCommand (s.sent (0x79 :: reply s.cfg ++ [0x79]))) := by
  refine exec_of_dispatch_stop hc ?_
  rw [hops, hd, acceptHeader_open (s := issue c [] s) hg, replyHandler_eq (s := issue c [] s) h]
  rfl

/-- Settles O21: the reply is GETCMD, fourteen bytes whatever the parameters are. -/
theorem getCommandsReply : Obligations.GetCommandsReply := by
  unfold Obligations.GetCommandsReply
  exact ⟨rfl, fun _ hg h => exec_reply (c := .get) rfl rfl (congrArg (acceptHeader .get) getHandler_eq) hg h⟩

/-- Settles O22: the reply is the version byte and two reserved zero bytes. -/
theorem getVersionReply : Obligations.GetVersionReply := by
  unfold Obligations.GetVersionReply
  exact ⟨rfl, fun _ hg h => exec_reply (c := .gv) rfl rfl (congrArg (acceptHeader .gv) gvHandler_eq) hg h⟩

/-- Settles O23: the reply is the three bytes of `ID_BYTES`, of whatever value. -/
theorem getIdReply : Obligations.GetIdReply := by
  unfold Obligations.GetIdReply
  exact ⟨rfl, fun _ hg h => exec_reply (c := .gid) rfl rfl (congrArg (acceptHeader .gid) gidHandler_eq) hg h⟩

end Sys2Proof.Machine
end

section
/-! PROOFS. read-memory and go (spec/44_memory_commands.md R123, R125, R126). Both check address and target at one stage; the two
length modes of read-memory are one stream of chunks, of one byte or of four, each read whole before it is sent. -/

namespace Sys2Proof.Machine

/-! ## Stored bytes, in two parts (R46) -/

theorem memBytes_add (s : State) (a : Addr) (m n : Nat) :
    memBytes s a (m + n) = memBytes s a m ++ memBytes s (addrPlus a m) n := by
  simp [memBytes, List.range_add, addrPlus_addrPlus, Function.comp_def]

theorem storedFrom.mono {s : State} {a : Addr} {m n : Nat} (h : storedFrom s a n) (hmn : m ≤ n) : storedFrom s a m :=
  fun j hj => h j (by omega)

theorem storedFrom.shift {s : State} {a : Addr} {m n : Nat} (h : storedFrom s a (m + n)) : storedFrom s (addrPlus a m) n := by
  intro j hj
  rw [addrPlus_addrPlus]
  exact h (m + j) (by omega)

theorem memRead_stored {s : State} {a : Addr} {n : Nat} (h : storedFrom s a n) (k : Addr → Flow) :
    memRead a n s k = k (leValue (memBytes s a n)) := by
  rw [memRead, readBytes_stored h]

theorem memRead_unstored {s : State} {a : Addr} {k n : Nat} (hk : k < n) (h : storedFrom s a k)
    (hn : hasStorage s.cfg (addrPlus a k).toNat = false) (f : Addr → Flow) :
    memRead a n s f = .stop { s with cs := .fault (.readUnmapped (addrPlus a k)) } := by
  rw [memRead, readBytes_unstored hk h hn]
  rfl

/-- Four bytes of memory are the bytes of their little-endian value (R42). -/
theorem leBytes_leValue_memBytes (s : State) (a : Addr) : leBytes (leValue (memBytes s a 4)) = memBytes s a 4 :=
  leBytes_leValue _ _ _ _

/-! ## The MEMDATA reply (R67, R123) -/

/-- How many bytes read-memory reads at once (D11). -/
def chunkSize : ReadLengthMode → Nat
  | .exact => 1
  | .words => 4

/-- `n` chunks from `a` on, each read whole and then sent. -/
def streamChunks (mode : ReadLengthMode) : Nat → Addr → State → Flow
  | 0, _, s => .go s
  | n + 1, a, s =>
    memRead a (chunkSize mode) s fun v =>
      (sendAll ((leBytes v).take (chunkSize mode)) s).andThen (streamChunks mode n (addrPlus a (chunkSize mode)))

theorem chunkSize_pos (mode : ReadLengthMode) : 0 < chunkSize mode := by cases mode <;> decide

theorem byteOf_zero (w : Addr) : byteOf 0 w = w.setWidth 8 := (BitVec.setWidth_eq_extractLsb' (by decide)).symm

/-- What is sent of a chunk is what memory holds. -/
theorem leBytes_take_chunk (mode : ReadLengthMode) (s : State) (a : Addr) :
    (leBytes (leValue (memBytes s a (chunkSize mode)))).take (chunkSize mode) = memBytes s a (chunkSize mode) := by
  cases mode with
  | exact => simp [chunkSize, memBytes, leBytes, byteOf_zero]
  | words => exact leBytes_leValue_memBytes s a

theorem streamBytes_eq (n : Nat) (a : Addr) (s : State) : streamBytes n a s = streamChunks .exact n a s := by
  induction n generalizing a s with
  | zero => rfl
  | succ n ih =>
    have hrest : streamBytes n (addrPlus a 1) = streamChunks .exact n (addrPlus a 1) := funext (ih _)
    have hsend : ∀ v : Addr, sendAll ((leBytes v).take 1) s = send (v.setWidth 8) s := fun v => by
      rw [show (leBytes v).take 1 = [v.setWidth 8] by simp [leBytes, byteOf_zero]]
      exact Flow.andThen_id _
    simp only [streamBytes, streamChunks, chunkSize, hsend, hrest]

theorem streamWords_eq (n : Nat) (a : Addr) (s : State) : streamWords n a s = streamChunks .words n a s := by
  induction n generalizing a s with
  | zero => rfl
  | succ n ih =>
    have hrest : streamWords n (addrPlus a 4) = streamChunks .words n (addrPlus a 4) := funext (ih _)
    rw [streamWords, hrest]
    rfl

theorem streamMemory_eq (a : Addr) (num : Byte) (s : State) :
    streamMemory a num s =
      streamChunks s.cfg.readLengthMode (num.toNat / chunkSize s.cfg.readLengthMode + 1) a s := by
  unfold streamMemory
  cases s.cfg.readLengthMode with
  | exact => simpa [chunkSize] using streamBytes_eq _ a s
  | words => exact streamWords_eq _ a s

section
variable {mode : ReadLengthMode} {a : Addr} {s : State}

/-- A stored chunk is sent, and the stream goes on after it. -/
theorem streamChunks_succ (h : storedFrom s a (chunkSize mode)) (hs : s.canSend (chunkSize mode) = true) (n : Nat) :
    streamChunks mode (n + 1) a s =
      streamChunks mode n (addrPlus a (chunkSize mode)) (s.sent (memBytes s a (chunkSize mode))) := by
  rw [streamChunks, memRead_stored h, leBytes_take_chunk, sendAll_eq (by simpa using hs), Flow.andThen_go]

/-- Stored bytes are sent in ascending order. -/
theorem streamChunks_stored {n : Nat} (h : storedFrom s a (chunkSize mode * n)) (hs : s.canSend (chunkSize mode * n) = true) :
    streamChunks mode n a s = .go (s.sent (memBytes s a (chunkSize mode * n))) := by
  induction n generalizing a s with
  | zero => simp [streamChunks, memBytes]
  | succ n ih =>
    rw [Nat.mul_succ, Nat.add_comm (chunkSize mode * n)] at h hs ⊢
    have hrest : (s.sent (memBytes s a (chunkSize mode))).canSend (chunkSize mode * n) = true :=
      State.canSend_sent (by simpa using hs)
    rw [streamChunks_succ (h.mono (by omega)) (State.canSend_mono hs (by omega)), ih (s := s.sent _) h.shift hrest,
      State.sent_sent, memBytes_add]
    rfl

/-- The stream faults at the first byte without storage, and the bytes of the chunk that holds it are not sent. -/
theorem streamChunks_unstored {k n : Nat} (hk : k < chunkSize mode * n) (h : storedFrom s a k)
    (hn : hasStorage s.cfg (addrPlus a k).toNat = false) (hs : s.canSend k = true) :
    streamChunks mode n a s =
      .stop { s.sent (memBytes s a (chunkSize mode * (k / chunkSize mode))) with
        cs := .fault (.readUnmapped (addrPlus a k)) } := by
  induction n generalizing a k s with
  | zero => simp at hk
  | succ n ih =>
    by_cases hkw : k < chunkSize mode
    · rw [streamChunks, memRead_unstored hkw h hn, Nat.div_eq_of_lt hkw, Nat.mul_zero]
      exact congrArg (fun t : State => Flow.stop { t with cs := .fault (.readUnmapped (addrPlus a k)) }) (State.sent_nil s).symm
    · obtain ⟨j, rfl⟩ : ∃ j, k = chunkSize mode + j := ⟨k - chunkSize mode, by omega⟩
      rw [Nat.mul_succ] at hk
      have hrest : (s.sent (memBytes s a (chunkSize mode))).canSend j = true := State.canSend_sent (by simpa using hs)
      rw [← addrPlus_addrPlus] at hn ⊢
      rw [streamChunks_succ (h.mono (by omega)) (State.canSend_mono hs (by omega)),
        ih (s := s.sent _) (by omega) h.shift hn hrest, State.sent_sent, Nat.add_div_left j (chunkSize_pos mode), Nat.mul_succ,
        Nat.add_comm (chunkSize mode * _), memBytes_add]
      rfl

end

/-! ## Address and target, checked together (R123, R125, R138, R139) -/

/-- The stage after the ADDR frame of read-memory and go: what follows a good address, or one NACK. -/
def targetStage (k : Addr → State → Flow) (s : State) : Flow :=
  checkedAddr s fun a ok =>
    if ok then if validTarget a then (ack s).andThen (k a) else takeError .invalidAddress s
    else takeError .checksumMismatch s

theorem rmAddrStage_eq : rmAddrStage = targetStage fun _ => waitAt .rmN := rfl
theorem goAddrStage_eq : goAddrStage = targetStage handoff := rfl

section
variable {s : State} {p : ControlState} {c : Command} {a : Addr} {x : Byte} {n y : Option Byte} {b : List Byte}
  {z : Option Byte} {j : Option Nat} {r : List RxEvent}

theorem targetStage_valid (hx : x = addrXor a) (ha : classify a ≠ .other) (h : s.canSend 1 = true)
    (k : Addr → State → Flow) :
    targetStage k (s.busy p c (some a) (some x) n y b z j r) =
      k a ((s.sent [0x79]).busy p c (some a) (some x) n y b z j r) := by
  simp only [targetStage, checkedAddr, busy_addr, busy_acks, reading_some, (addressValid_iff a x).2 hx, (validTarget_iff a).2 ha,
    if_true, ack_eq (s := s.busy _ _ _ _ _ _ _ _ _ _) h, Flow.andThen_go, busy_sent]

theorem targetStage_refused (hbad : x ≠ addrXor a ∨ classify a = .other) (h : s.canSend 1 = true)
    (k : Addr → State → Flow) :
    targetStage k (s.busy p c (some a) (some x) n y b z j r) = .stop { endCommand (s.sent [0x1F]) with rx := r } := by
  simp only [targetStage, checkedAddr, busy_addr, busy_acks, reading_some]
  cases hok : addressValid a x with
  | false => exact takeError_busy (.inl rfl) h
  | true =>
    have hother : validTarget a = false := by
      rw [Bool.eq_false_iff, ne_eq, validTarget_iff, not_not]
      exact hbad.resolve_left (not_not.2 ((addressValid_iff a x).1 hok))
    simp only [hother, if_true]
    exact takeError_busy (.inr (.inl rfl)) h

end

/-! ## read-memory (R123) -/

section
variable {s : State} {a : Addr} {x count y : Byte}

/-- read-memory up to its address check. -/
theorem exec_rm (hg : s.guardOpen .rm = true) (h : s.canSend 1 = true) :
    exec (.rm a x count y) s =
      .next ((targetStage (fun _ => waitAt .rmN) ((s.sent [0x79]).busy .addrCks .rm (some a) (some x) s.num s.ncks s.buf s.cks s.i
        (.byte count :: .byte y :: s.rx))).andThen fun t => rmCountStage (receiveCount count y t)).state := by
  rw [← rmAddrStage_eq]
  exact congrArg (fun f => Host.Outcome.next (Flow.state f))
    (addrPhase hg h a x [count, y] fun t => (rmAddrStage t).andThen fun u => rmCountStage (receiveCount count y u))

/-- read-memory with a good address up to its count check. -/
theorem exec_rm_valid (hg : s.guardOpen .rm = true) (hx : x = addrXor a) (ha : classify a ≠ .other) (h : s.canSend 2 = true) :
    exec (.rm a x count y) s =
      .next (rmCountStage ((s.sent [0x79, 0x79]).busy .rmNcks .rm (some a) (some x) (some count) (some y) s.buf s.cks s.i
        s.rx)).state := by
  rw [exec_rm hg (State.canSend_mono h (by decide)), targetStage_valid hx ha (State.canSend_sent (bs := [0x79]) h), waitAt_busy,
    Flow.andThen_go, receiveCount_busy, State.sent_sent]
  rfl

section
variable {p : ControlState} {c : Command} {ac : Option Byte} {b : List Byte} {z : Option Byte} {j : Option Nat}
  {r : List RxEvent}

theorem rmCountStage_good (hy : y = readCountCks s.cfg.readCountCks count) (h : s.canSend 1 = true) :
    rmCountStage (s.busy p c (some a) ac (some count) (some y) b z j r) =
      (streamMemory a count ((s.sent [0x79]).busy p c (some a) ac (some count) (some y) b z j r)).andThen finish := by
  simp only [rmCountStage, checkedCount, busy_num, busy_ncks, busy_addr, busy_cfg, reading_some, beq_iff_eq, if_pos hy,
    ack_eq (s := s.busy _ _ _ _ _ _ _ _ _ _) h, Flow.andThen_go, busy_sent]

theorem rmCountStage_bad (hy : y ≠ readCountCks s.cfg.readCountCks count) (h : s.canSend 1 = true) :
    rmCountStage (s.busy p c (some a) ac (some count) (some y) b z j r) =
      .stop { endCommand (s.sent [0x1F]) with rx := r } := by
  simp only [rmCountStage, checkedCount, busy_num, busy_ncks, busy_addr, busy_cfg, reading_some, beq_iff_eq, if_neg hy]
  exact takeError_busy (.inl rfl) h

end

/-- read-memory with a good count is its stream (R67). -/
theorem exec_rm_stream (hg : s.guardOpen .rm = true) (hx : x = addrXor a) (ha : classify a ≠ .other)
    (hy : y = readCountCks s.cfg.readCountCks count) (h : s.canSend 3 = true) :
    exec (.rm a x count y) s =
      .next ((streamChunks s.cfg.readLengthMode (count.toNat / chunkSize s.cfg.readLengthMode + 1) a
        ((s.sent [0x79, 0x79, 0x79]).busy .rmNcks .rm (some a) (some x) (some count) (some y) s.buf s.cks s.i s.rx)).andThen
          finish).state := by
  rw [exec_rm_valid hg hx ha (State.canSend_mono h (by decide)),
    rmCountStage_good (s := s.sent _) hy (State.canSend_sent (bs := [0x79, 0x79]) h), State.sent_sent,
    streamMemory_eq]
  rfl

end

/-- The length of the reply, in whole chunks (D11). -/
theorem replyLength_eq (mode : ReadLengthMode) (count : Nat) :
    (match mode with | .exact => count + 1 | .words => 4 * (count / 4 + 1)) =
      chunkSize mode * (count / chunkSize mode + 1) := by
  cases mode <;> simp [chunkSize]

/-- How much of `k` bytes goes out before the chunk at the `k`-th. -/
theorem sentLength_eq (mode : ReadLengthMode) (k : Nat) :
    (match mode with | .exact => k | .words => 4 * (k / 4)) = chunkSize mode * (k / chunkSize mode) := by
  cases mode <;> simp [chunkSize]

/-- Settles O24: the reply is the stream of its chunks, all of them stored. -/
theorem readMemoryStreamsTheBytes : Obligations.ReadMemoryStreamsTheBytes := by
  unfold Obligations.ReadMemoryStreamsTheBytes
  intro s a x count y n hg hx ha hy hn hst h
  obtain rfl := hn.trans (replyLength_eq _ _)
  have hrest := State.canSend_sent (bs := [0x79, 0x79, 0x79]) h
  rw [exec_rm_stream hg hx ha hy (State.canSend_mono h (by omega)),
    streamChunks_stored (s := (s.sent _).busy _ _ _ _ _ _ _ _ _ _) hst hrest, Flow.andThen_go, finish_eq, busy_sent,
    State.sent_sent]
  rfl

/-- Settles O25: the two checks of the handler, each answered with one NACK. -/
theorem readMemoryRefusals : Obligations.ReadMemoryRefusals := by
  unfold Obligations.ReadMemoryRefusals
  intro s a x count y hg h
  have h1 : (s.sent [0x79]).canSend 1 = true := State.canSend_sent (State.canSend_mono h (by decide))
  have h2 : (s.sent [0x79, 0x79]).canSend 1 = true := State.canSend_sent h
  refine ⟨fun hbad => ?_, fun hx ha hy => ?_⟩
  · rw [exec_rm hg (State.canSend_mono h (by decide)), targetStage_refused hbad h1, State.sent_sent]
    rfl
  · rw [exec_rm_valid hg hx ha (State.canSend_mono h (by decide)), rmCountStage_bad (s := s.sent _) hy h2,
      State.sent_sent]
    rfl

/-- Settles O26: the stream stops at the chunk that holds the first byte without storage. -/
theorem readMemoryFaultsPastStorage : Obligations.ReadMemoryFaultsPastStorage := by
  unfold Obligations.ReadMemoryFaultsPastStorage
  intro s a x count y k n hg hx ha hy hn hk hst hmiss h
  obtain rfl := hn.trans (replyLength_eq _ _)
  have hrest := State.canSend_sent (bs := [0x79, 0x79, 0x79]) h
  rw [exec_rm_stream hg hx ha hy (State.canSend_mono h (by omega)),
    streamChunks_unstored (s := (s.sent _).busy _ _ _ _ _ _ _ _ _ _) hk hst hmiss hrest, Flow.andThen_stop, Flow.state_stop]
  refine ⟨_, rfl, rfl, ?_, rfl, rfl, rfl, rfl, rfl, rfl, rfl, rfl, rfl⟩
  exact congrArg (fun n => s.tx ++ [0x79, 0x79, 0x79] ++ memBytes s a n) (sentLength_eq _ k).symm

/-! ## go (R125, R126) -/

/-- The hand-off takes the two vectors at its target (R126). -/
theorem handoff_stored {s : State} {a : Addr} (h : storedFrom s a 8) :
    ∃ sp entry, handoff a s = .stop { s with cs := .handedOff a sp entry } ∧
      leBytes sp ++ leBytes entry = memBytes s a 8 := by
  refine ⟨leValue (memBytes s a 4), leValue (memBytes s (addrPlus a 4) 4), ?_, ?_⟩
  · rw [handoff, memRead_stored (h.mono (by decide)), memRead_stored (storedFrom.shift (m := 4) h)]
  · rw [leBytes_leValue_memBytes, leBytes_leValue_memBytes, ← memBytes_add]

/-- With a byte of them missing it faults at the lowest such byte (R46, log 20). -/
theorem handoff_unstored {s : State} {a : Addr} {k : Nat} (hk : k < 8) (h : storedFrom s a k)
    (hn : hasStorage s.cfg (addrPlus a k).toNat = false) :
    handoff a s = .stop { s with cs := .fault (.readUnmapped (addrPlus a k)) } := by
  by_cases hk4 : k < 4
  · exact memRead_unstored hk4 h hn _
  · obtain ⟨j, rfl⟩ : ∃ j, k = 4 + j := ⟨k - 4, by omega⟩
    rw [← addrPlus_addrPlus] at hn ⊢
    rw [handoff, memRead_stored (h.mono (by omega)), memRead_unstored (by omega) h.shift hn]

section
variable {s : State} {a : Addr} {x : Byte}

/-- go up to its address check. -/
theorem exec_go (hg : s.guardOpen .go = true) (h : s.canSend 1 = true) :
    exec (.go a x) s =
      .next (targetStage handoff
        ((s.sent [0x79]).busy .addrCks .go (some a) (some x) s.num s.ncks s.buf s.cks s.i s.rx)).state := by
  rw [← goAddrStage_eq]
  exact congrArg (fun f => Host.Outcome.next (Flow.state f)) (addrPhase hg h a x [] goAddrStage)

/-- go to a valid target is the hand-off. -/
theorem exec_go_valid (hg : s.guardOpen .go = true) (hx : x = addrXor a) (ha : classify a ≠ .other) (h : s.canSend 2 = true) :
    exec (.go a x) s =
      .next (handoff a
        ((s.sent [0x79, 0x79]).busy .addrCks .go (some a) (some x) s.num s.ncks s.buf s.cks s.i s.rx)).state := by
  rw [exec_go hg (State.canSend_mono h (by decide)), targetStage_valid hx ha (State.canSend_sent (bs := [0x79]) h),
    State.sent_sent]
  rfl

end

/-- Settles O34: a valid target is handed off to, with its two vectors or a fault, and any other is refused. -/
theorem goHandsOverOrRefuses : Obligations.GoHandsOverOrRefuses := by
  unfold Obligations.GoHandsOverOrRefuses
  intro s a x hg h
  refine ⟨fun hx ha hst => ?_, fun k hx ha hk hst hmiss => ?_, fun hbad => ?_⟩
  · rw [exec_go_valid hg hx ha h]
    obtain ⟨sp, entry, hoff, hvec⟩ := handoff_stored (s := (s.sent [0x79, 0x79]).busy .addrCks .go (some a) (some x) s.num
      s.ncks s.buf s.cks s.i s.rx) hst
    rw [hoff]
    exact ⟨_, sp, entry, rfl, rfl, hvec, rfl, rfl, rfl, rfl, rfl, rfl, rfl, rfl, rfl, rfl⟩
  · rw [exec_go_valid hg hx ha h, handoff_unstored (s := (s.sent _).busy _ _ _ _ _ _ _ _ _ _) hk hst hmiss]
    exact ⟨_, rfl, rfl, rfl, rfl, rfl, rfl, rfl, rfl, rfl, rfl, rfl, rfl⟩
  · rw [exec_go hg (State.canSend_mono h (by decide)), targetStage_refused hbad (State.canSend_sent (bs := [0x79]) h),
      State.sent_sent]
    rfl

end Sys2Proof.Machine
end

section
/-! PROOFS. What a run of words or bytes leaves in memory (spec/41_address_class_write_arbiter.md R95, R96, spec/20_memory.md
R47): the payload where it can be stored, and every byte outside as it was. -/

namespace Sys2Proof.Machine

/-! ## Words of a payload (R95) -/

/-- Byte `k` of a little-endian value of up to four bytes is its `k`-th byte (R42). -/
theorem byteOf_leValue (bs : List Byte) {k : Nat} (hk : k < 4) : byteOf k (leValue bs) = bs.getD k 0 := by
  induction bs generalizing k with
  | nil => simp [leValue, byteOf]
  | cons b bs ih =>
    have hcons : leValue (b :: bs) = leValue bs <<< 8 ||| b.setWidth 32 := rfl
    cases k with
    | zero =>
      ext i hi
      simp [hcons, byteOf_zero]
    | succ k =>
      rw [List.getD_cons_succ, ← ih (by omega), hcons]
      ext i hi
      simp [byteOf, show 8 * (k + 1) + i < 32 by omega, show ¬ 8 * (k + 1) + i < 8 by omega,
        show 8 * (k + 1) + i - 8 = 8 * k + i by omega, BitVec.getLsbD_of_ge b (8 * (k + 1) + i) (by omega)]
      exact (BitVec.getLsbD_eq_getElem (by omega)).symm

/-- What is no full chunk is shorter than one. -/
theorem length_lt_four {ps : List Byte} (h : ∀ b0 b1 b2 b3 rest, ps = b0 :: b1 :: b2 :: b3 :: rest → False) : ps.length < 4 :=
  match ps, h with
  | [], _ => by decide
  | [_], _ => by simp
  | [_, _], _ => by simp
  | [_, _, _], _ => by simp
  | b0 :: b1 :: b2 :: b3 :: rest, h => (h b0 b1 b2 b3 rest rfl).elim

theorem chunkWords_length (ps : List Byte) : (chunkWords ps).length = (ps.length + 3) / 4 := by
  induction ps using chunkWords.induct with
  | case1 b0 b1 b2 b3 rest ih => simp only [chunkWords, List.length_cons, ih]; omega
  | case2 => rfl
  | case3 short hfull hnil =>
    have := length_lt_four hfull
    have := List.length_pos_of_ne_nil hnil
    rw [chunkWords.eq_3 short hfull hnil, List.length_singleton]
    omega

/-- Byte `i` of the words is byte `i` of the payload, 0x00 past its end. -/
theorem byteOf_chunkWords (ps : List Byte) (i : Nat) :
    byteOf (i % 4) ((chunkWords ps).getD (i / 4) 0) = ps.getD i 0 := by
  have hzero : ∀ k, byteOf k 0 = 0 := fun k => by simp [byteOf]
  induction ps using chunkWords.induct generalizing i with
  | case1 b0 b1 b2 b3 rest ih =>
    rw [chunkWords]
    by_cases hi : i < 4
    · rw [Nat.mod_eq_of_lt hi, Nat.div_eq_of_lt hi, List.getD_cons_zero, byteOf_leValue _ hi]
      interval_cases i <;> rfl
    · obtain ⟨j, rfl⟩ : ∃ j, i = j + 4 := ⟨i - 4, by omega⟩
      rw [Nat.add_mod_right, Nat.add_div_right j (by decide), List.getD_cons_succ, ih]
      rfl
  | case2 => exact hzero _
  | case3 short hfull hnil =>
    rw [chunkWords.eq_3 short hfull hnil]
    by_cases hi : i < 4
    · rw [Nat.mod_eq_of_lt hi, Nat.div_eq_of_lt hi, List.getD_cons_zero, byteOf_leValue _ hi]
    · have := length_lt_four hfull
      rw [List.getD_eq_default _ _ (by rw [List.length_singleton]; omega), List.getD_eq_default _ _ (by omega), hzero]

/-! ## Words programmed (R96) -/

theorem programWords_append (ws ws' : List Addr) (a : Addr) (s : State) :
    programWords (ws ++ ws') a s =
      (programWords ws a s).andThen (programWords ws' (addrPlus a (4 * ws.length))) := by
  induction ws generalizing a s with
  | nil => simp [programWords]
  | cons w ws ih =>
    have hrest : programWords (ws ++ ws') (addrPlus a 4) =
        fun t => (programWords ws (addrPlus a 4) t).andThen (programWords ws' (addrPlus (addrPlus a 4) (4 * ws.length))) :=
      funext (ih _)
    rw [List.cons_append, programWords, hrest, programWords, Flow.andThen_assoc, addrPlus_addrPlus, List.length_cons,
      Nat.mul_succ, Nat.add_comm 4]

/-- Whether a word takes what is programmed is a matter of the word, not of the byte of it. -/
theorem programmable_add_iff {s : State} {a i : Nat} (hal : a % 4 = 0) (h1 : 0x08006000 ≤ a) (hi : i < 4) :
    programmable s (a + i) ↔ programmable s a := by
  have hword : a + i - (a + i) % 4 = a - a % 4 := by omega
  have hsector : sectorProtected s (a + i) = sectorProtected s a := by
    rw [sectorProtected, sectorProtected, show (a + i - 0x08006000) / 0x1000 = (a - 0x08006000) / 0x1000 by omega]
  rw [programmable, programmable, hword, hsector]

/-- At the word `z` and after it, what can be programmed is not changed by a write before it. -/
theorem programmable_of_sameOutside {s : State} {lo n : Nat} {m : Memory} {d : Nat} (h : sameOutside lo n s.mem m) {z : Nat}
    (hz : lo + n ≤ z - z % 4) : programmable { s with mem := m, draws := d } z ↔ programmable s z := by
  have hread : ∀ j, m.read (z - z % 4 + j) = s.mem.read (z - z % 4 + j) := fun j => h _ (.inr (by omega))
  simp only [programmable, hread]
  rfl

/-- Memory `m` and the draws `d` after the words `ws` have been programmed from `a` on. -/
structure Programmed (s : State) (a : Nat) (ws : List Addr) (m : Memory) (d : Nat) : Prop where
  wf : m.wf = true
  outside : sameOutside a (4 * ws.length) s.mem m
  takes : ∀ i, i < 4 * ws.length → programmable s (a + i) → m.read (a + i) = byteOf (i % 4) (ws.getD (i / 4) 0)
  undrawn : (∀ i, i < 4 * ws.length → programmable s (a + i)) → d = s.draws

/-- One word of class `Flash`: written or drawn. -/
theorem programWord_inside {s : State} {a : Addr} (w : Addr) (hm : s.mem.wf = true) (hal : a.toNat % 4 = 0)
    (hc : classify a = .flash) :
    ∃ m d, programWord a w s = .go { s with mem := m, draws := d } ∧ Programmed s a.toNat [w] m d := by
  have hbase := (inFlash_of_classify hc).1
  by_cases hp : programmable s a.toNat
  · obtain ⟨herased, hunprot⟩ := hp
    rw [hal, Nat.sub_zero] at herased
    refine ⟨_, _, programWord_erased w hal hc hunprot herased, Memory.wf_writeBytes hm _ _, sameOutside_writeBytes hm rfl,
      fun i hi _ => ?_, fun _ => rfl⟩
    have hi : i < 4 := hi
    rw [read_writeBytes_leBytes hm _ _ hi, Nat.mod_eq_of_lt hi, Nat.div_eq_of_lt hi]
    rfl
  · have hopen : sectorProtected s a.toNat = true ∨ ∃ i, i < 4 ∧ s.mem.read (a.toNat + i) ≠ s.cfg.erasedByte := by
      by_contra hno
      push Not at hno
      refine hp ⟨?_, by simpa using hno.1⟩
      rw [hal]
      exact hno.2
    refine ⟨_, _, programWord_open w hal hc hopen, Memory.wf_writeBytes hm _ _,
      sameOutside_writeBytes hm (freeBytes_length _ _), fun i hi hpi => ?_, fun hall => ?_⟩
    · exact absurd ((programmable_add_iff hal hbase hi).1 hpi) hp
    · exact absurd (hall 0 (by simp)) hp

/-- A word and then the words after it. -/
theorem Programmed.cons {s : State} {a : Nat} {w : Addr} {ws : List Addr} {m m' : Memory} {d d' : Nat} (hal : a % 4 = 0)
    (h : Programmed s a [w] m d) (h' : Programmed { s with mem := m, draws := d } (a + 4) ws m' d') :
    Programmed s a (w :: ws) m' d' := by
  have hsame : ∀ i, programmable { s with mem := m, draws := d } (a + 4 + i) ↔ programmable s (a + (i + 4)) := fun i => by
    rw [Nat.add_assoc, Nat.add_comm 4 i]
    exact programmable_of_sameOutside h.outside (by simp; omega)
  have hlen : 4 * (w :: ws).length = 4 * ws.length + 4 := by rw [List.length_cons, Nat.mul_succ]
  refine ⟨h'.wf, fun x hx => ?_, fun i hi hp => ?_, fun hall => ?_⟩
  · rw [hlen] at hx
    rw [h'.outside x (by omega)]
    exact h.outside x (by simp; omega)
  · by_cases hi4 : i < 4
    · rw [h'.outside _ (by omega)]
      have := h.takes i hi4 hp
      rwa [Nat.div_eq_of_lt hi4] at this ⊢
    · obtain ⟨j, rfl⟩ : ∃ j, i = j + 4 := ⟨i - 4, by omega⟩
      have := h'.takes j (by omega) ((hsame j).2 hp)
      rwa [Nat.add_assoc, Nat.add_comm 4 j, ← List.getD_cons_succ (x := w), ← Nat.add_div_right j (by decide),
        ← Nat.add_mod_right j 4] at this
  · have hd : d = s.draws := h.undrawn fun i hi => hall i (by simp at hi; omega)
    rw [h'.undrawn fun i hi => (hsame i).2 (hall (i + 4) (by omega))]
    exact hd

/-- Words inside class `Flash` are all programmed. -/
theorem programWords_inside {s : State} {ws : List Addr} {a : Addr} (hm : s.mem.wf = true) (hal : a.toNat % 4 = 0)
    (h1 : 0x08006000 ≤ a.toNat) (h2 : a.toNat + 4 * ws.length ≤ 0x08020000) :
    ∃ m d, programWords ws a s = .go { s with mem := m, draws := d } ∧ Programmed s a.toNat ws m d := by
  induction ws generalizing a s with
  | nil => exact ⟨_, _, rfl, hm, fun _ _ => rfl, nofun, fun _ => rfl⟩
  | cons w ws ih =>
    rw [List.length_cons, Nat.mul_succ] at h2
    have hnext : (addrPlus a 4).toNat = a.toNat + 4 := addrPlus_toNat (by omega)
    obtain ⟨m, d, hw, hword⟩ := programWord_inside w hm hal ((classify_eq_flash_iff a).2 (by omega))
    obtain ⟨m', d', hws, hrest⟩ := ih (s := { s with mem := m, draws := d }) (a := addrPlus a 4) hword.wf (by omega)
      (by omega) (by omega)
    rw [hnext] at hrest
    exact ⟨m', d', by rw [programWords, hw, Flow.andThen_go, hws], hword.cons hal hrest⟩

/-- Words that run past class `Flash` fault at its end, the words before it programmed. -/
theorem programWords_past {s : State} {ws : List Addr} {a : Addr} (hm : s.mem.wf = true) (hal : a.toNat % 4 = 0)
    (hc : classify a = .flash) (h2 : 0x08020000 < a.toNat + 4 * ws.length) :
    ∃ m d, programWords ws a s =
        .stop { s with mem := m, draws := d, cs := .fault (.flashProgramOutOfRange 0x08020000) } ∧
      Programmed s a.toNat (ws.take ((0x08020000 - a.toNat) / 4)) m d := by
  obtain ⟨hbase, htop⟩ := inFlash_of_classify hc
  generalize hk : (0x08020000 - a.toNat) / 4 = k
  have hlen : 4 * (ws.take k).length = 0x08020000 - a.toNat := by rw [List.length_take, Nat.min_eq_left (by omega)]; omega
  obtain ⟨w, ws', hdrop⟩ : ∃ w ws', ws.drop k = w :: ws' :=
    List.exists_cons_of_length_pos (by rw [List.length_drop]; omega)
  have hend : addrPlus a (4 * (ws.take k).length) = 0x08020000 := by
    apply BitVec.eq_of_toNat_eq
    rw [addrPlus_toNat (by omega), hlen]
    change _ = 0x08020000
    omega
  obtain ⟨m, d, hws, hp⟩ := programWords_inside (ws := ws.take k) hm hal hbase (by omega)
  refine ⟨m, d, ?_, hp⟩
  conv_lhs => rw [← List.take_append_drop k ws]
  rw [programWords_append, hws, Flow.andThen_go, hend, hdrop, programWords,
    programWord_outOfRange w (by decide) (by decide), Flow.andThen_stop]

/-- A misaligned first word faults (R96). -/
theorem programWords_misaligned {s : State} {ws : List Addr} {a : Addr} (hws : ws ≠ []) (hal : a.toNat % 4 ≠ 0) :
    programWords ws a s = .stop { s with cs := .fault (.flashProgramMisaligned a) } := by
  obtain ⟨w, ws, rfl⟩ := List.exists_cons_of_ne_nil hws
  rw [programWords, programWord_misaligned w hal, Flow.andThen_stop]

/-! ## Bytes stored (R47) -/

theorem storeBytes_append (bs bs' : List Byte) (a : Addr) (s : State) :
    storeBytes (bs ++ bs') a s = (storeBytes bs a s).andThen (storeBytes bs' (addrPlus a bs.length)) := by
  induction bs generalizing a s with
  | nil => simp [storeBytes]
  | cons b bs ih =>
    have hrest : storeBytes (bs ++ bs') (addrPlus a 1) =
        fun t => (storeBytes bs (addrPlus a 1) t).andThen (storeBytes bs' (addrPlus (addrPlus a 1) bs.length)) := funext (ih _)
    rw [List.cons_append, storeBytes, hrest, storeBytes, Flow.andThen_assoc, addrPlus_addrPlus, List.length_cons, Nat.add_comm 1]

/-- Bytes inside the `Ram` window are all stored. -/
theorem storeBytes_inside {s : State} {bs : List Byte} {a : Addr} (h1 : 0x20000200 ≤ a.toNat)
    (h2 : a.toNat + bs.length ≤ 0x20005001) :
    storeBytes bs a s = .go { s with mem := s.mem.writeBytes a.toNat bs } := by
  induction bs generalizing a s with
  | nil => rfl
  | cons b bs ih =>
    rw [List.length_cons] at h2
    have hnext : (addrPlus a 1).toNat = a.toNat + 1 := addrPlus_toNat (by omega)
    rw [storeBytes, memWriteByte, if_pos ((classify_eq_ram_iff a).2 (by omega)), Flow.andThen_go, ih (by omega) (by omega), hnext]
    rfl

/-- Bytes that run past the window fault at its end, the bytes before it stored. -/
theorem storeBytes_past {s : State} {bs : List Byte} {a : Addr} (hc : classify a = .ram) (h2 : 0x20005001 < a.toNat + bs.length) :
    storeBytes bs a s =
      .stop { s with
        mem := s.mem.writeBytes a.toNat (bs.take (0x20005001 - a.toNat)), cs := .fault (.ramWriteOutOfWindow 0x20005001) } := by
  obtain ⟨hbase, htop⟩ := (classify_eq_ram_iff a).1 hc
  generalize hk : 0x20005001 - a.toNat = k
  have hlen : (bs.take k).length = k := by rw [List.length_take, Nat.min_eq_left (by omega)]
  obtain ⟨b, bs', hdrop⟩ : ∃ b bs', bs.drop k = b :: bs' :=
    List.exists_cons_of_length_pos (by rw [List.length_drop]; omega)
  have hend : addrPlus a (bs.take k).length = 0x20005001 := by
    apply BitVec.eq_of_toNat_eq
    rw [addrPlus_toNat (by omega), hlen]
    change _ = 0x20005001
    omega
  conv_lhs => rw [← List.take_append_drop k bs]
  rw [storeBytes_append, storeBytes_inside hbase (by omega), Flow.andThen_go,
    hend, hdrop, storeBytes, memWriteByte, if_neg (by decide)]
  rfl

end Sys2Proof.Machine
end

section
/-! PROOFS. write-memory and its arbiter (spec/44_memory_commands.md R124, spec/41_address_class_write_arbiter.md R95): the way
to the arbiter once, then one use of the memory operations for each path. -/

namespace Sys2Proof.Machine

/-! ## The way to the arbiter (R124) -/

/-- Where write-memory's arbiter runs: both frames in the registers, two ACKs sent. -/
def State.atArbiter (s : State) (a : Addr) (x : Byte) (ps : List Byte) (y : Byte) : State :=
  (s.sent [0x79, 0x79]).busy .fCks .wm (some a) (some x) (some (numberOf ps)) s.ncks (ps ++ [numberOf ps]) (some y)
    (some ps.length) s.rx

section
variable {s : State} {a : Addr} {x y : Byte} {ps : List Byte}

/-- write-memory up to its address check. -/
theorem exec_wm (hg : s.guardOpen .wm = true) (h : s.canSend 1 = true) :
    exec (.wm a x ps y) s =
      .next ((wmAddrStage ((s.sent [0x79]).busy .addrCks .wm (some a) (some x) s.num s.ncks s.buf s.cks s.i
        ((dataFrame ps y).map RxEvent.byte ++ s.rx))).andThen fun t =>
          (wmNumberStage (receiveNumber (numberOf ps) t)).andThen fun u => wmFrameStage (receiveBody ps y u)).state :=
  congrArg (fun f => Host.Outcome.next (Flow.state f))
    (addrPhase hg h a x (dataFrame ps y) fun t => (wmAddrStage t).andThen fun u =>
      (wmNumberStage (receiveNumber (numberOf ps) u)).andThen fun v => wmFrameStage (receiveBody ps y v))

section
variable {p : ControlState} {c : Command} {n z : Option Byte} {b : List Byte} {w : Option Byte} {j : Option Nat}
  {r : List RxEvent}

theorem wmAddrStage_good (hx : x = addrXor a) (h : s.canSend 1 = true) :
    wmAddrStage (s.busy p c (some a) (some x) n z b w j r) =
      .go ((s.sent [0x79]).busy .fN c (some a) (some x) n z b w j r) := by
  simp only [wmAddrStage, checkedAddr, busy_addr, busy_acks, reading_some, (addressValid_iff a x).2 hx, if_true,
    askNumber_eq (s := s.busy _ _ _ _ _ _ _ _ _ _) h]
  rfl

theorem wmAddrStage_bad (hx : x ≠ addrXor a) (h : s.canSend 1 = true) :
    wmAddrStage (s.busy p c (some a) (some x) n z b w j r) = .stop { endCommand (s.sent [0x1F]) with rx := r } := by
  simp only [wmAddrStage, checkedAddr, busy_addr, busy_acks, reading_some, addressValid_eq_false hx]
  exact takeError_busy (.inl rfl) h

end

/-- write-memory with a good address up to its frame check. -/
theorem exec_wm_frame (hg : s.guardOpen .wm = true) (hx : x = addrXor a) (h1 : 1 ≤ ps.length) (h2 : ps.length ≤ 256)
    (h : s.canSend 2 = true) :
    exec (.wm a x ps y) s =
      .next (if verify (ps ++ [numberOf ps]) y then arbitrateWrite a ps (s.atArbiter a x ps y)
        else takeError .checksumMismatch (s.atArbiter a x ps y)).state := by
  have hbody : ((dataFrame ps y).map RxEvent.byte ++ s.rx).drop 1 = (ps ++ [y]).map RxEvent.byte ++ s.rx := rfl
  rw [exec_wm hg (State.canSend_mono h (by decide)), wmAddrStage_good hx (State.canSend_sent (bs := [0x79]) h), Flow.andThen_go,
    receiveNumber_busy, wmNumberStage, startBody_busy, Flow.andThen_go, receiveBody_busy, hbody, drop_frame, State.sent_sent,
    wmFrameStage, checkedFrame_busy h1 h2]
  rfl

/-! ## The ends of the paths (R95, R117, R135) -/

/-- The third ACK and the end of the command, whatever was done to memory. -/
theorem ackFinish_atArbiter (h : s.canSend 3 = true) (m : Memory) (d : Nat) :
    (ack { s.atArbiter a x ps y with mem := m, draws := d }).andThen finish =
      .stop { endCommand (s.sent [0x79, 0x79, 0x79]) with mem := m, draws := d } := by
  have hack : ({ s.atArbiter a x ps y with mem := m, draws := d } : State).canSend 1 = true :=
    State.canSend_sent (s := s) (bs := [0x79, 0x79]) h
  rw [ack_eq hack, Flow.andThen_go, finish_eq]
  exact congrArg (fun t : State => Flow.stop { endCommand t with mem := m, draws := d }) (State.sent_sent s [0x79, 0x79] [0x79])

/-- A refusal by the arbiter: one NACK. -/
theorem takeError_atArbiter {e : ProtocolError} (he : e = .checksumMismatch ∨ e = .invalidAddress) (h : s.canSend 3 = true) :
    takeError e (s.atArbiter a x ps y) = .stop (endCommand (s.sent [0x79, 0x79, 0x1F])) := by
  rw [State.atArbiter, takeError_busy (he.imp_right .inl) (State.canSend_sent (bs := [0x79, 0x79]) h), State.sent_sent]
  rfl

/-! ## The paths (R95) -/

theorem arbitrateWrite_flash (hc : classify a = .flash) :
    arbitrateWrite a ps s = (programWords (chunkWords ps) a s).andThen fun t => (ack t).andThen finish := by
  rw [arbitrateWrite, hc]

theorem arbitrateWrite_ram (hc : classify a = .ram) :
    arbitrateWrite a ps s =
      (storeBytes ps a s).andThen fun t => if t.cfg.ramWriteAck then (ack t).andThen finish else finish t := by
  rw [arbitrateWrite, hc]

theorem arbitrateWrite_optionBytes :
    arbitrateWrite 0x1FFFF800 ps s = (programOptionBytes ps s).andThen fun t => (ack t).andThen fcReset := rfl

theorem arbitrateWrite_other (hc : classify a = .other) (ha : a ≠ 0x1FFFF800) :
    arbitrateWrite a ps s = takeError .invalidAddress s := by
  have hne : ¬ a.toNat = Const.obBase := fun e => ha (BitVec.eq_of_toNat_eq e)
  rw [arbitrateWrite, hc]
  exact if_neg hne

/-! ## The words of the flash path (R95, R96) -/

/-- The words of a payload are as many as it needs (R95). -/
theorem four_mul_chunkWords_length (h1 : 1 ≤ ps.length) :
    4 * (chunkWords ps).length = 4 * ((ps.length - 1) / 4 + 1) := by
  rw [chunkWords_length]
  omega

/-- After words of a payload have been programmed, its bytes read back wherever the words took them. -/
theorem Programmed.payload {lo : Nat} {ws : List Addr} {m : Memory} {d : Nat} (h : Programmed s lo ws m d)
    (hws : ∃ rest, ws ++ rest = chunkWords ps) {z : Nat} (hz : lo ≤ z) (hz' : z < lo + 4 * ws.length)
    (hp : programmable s z) :
    m.read z = ps.getD (z - lo) 0 := by
  obtain ⟨i, rfl⟩ : ∃ i, z = lo + i := ⟨z - lo, by omega⟩
  obtain ⟨rest, hrest⟩ := hws
  rw [h.takes i (by omega) hp, Nat.add_sub_cancel_left, ← byteOf_chunkWords, ← hrest, List.getD_append _ _ _ _ (by omega)]

/-! ## A write with two good frames -/

section
variable (hg : s.guardOpen .wm = true) (hx : x = addrXor a) (h1 : 1 ≤ ps.length) (h2 : ps.length ≤ 256) (hy : y = frameXor ps)
include hg hx h1 h2 hy

/-- write-memory with two good frames is its arbiter. -/
theorem exec_wm_arbiter (h : s.canSend 2 = true) :
    exec (.wm a x ps y) s = .next (arbitrateWrite a ps (s.atArbiter a x ps y)).state := by
  rw [exec_wm_frame hg hx h1 h2 h, if_pos ((verify_iff _ _).2 hy)]

/-- A fault of the arbiter: two ACKs stay sent, and nothing but memory may have changed. -/
theorem exec_wm_fault (h : s.canSend 2 = true) {r : Fault} {m : Memory} {d : Nat}
    (hf : arbitrateWrite a ps (s.atArbiter a x ps y) = .stop { s.atArbiter a x ps y with mem := m, draws := d, cs := .fault r }) :
    ∃ t, exec (.wm a x ps y) s = .next t ∧ t.cs = .fault r ∧ t.tx = s.tx ++ [0x79, 0x79] ∧ t.mem = m ∧ t.rx = s.rx ∧
      sameStatus s t := by
  rw [exec_wm_arbiter hg hx h1 h2 hy h, hf]
  exact ⟨_, rfl, rfl, rfl, rfl, rfl, rfl, rfl, rfl, rfl, rfl, rfl, rfl⟩

/-- The flash path inside the window completes with three ACKs and its words programmed. -/
theorem exec_wm_flash (hm : s.mem.wf = true) (hlo : 0x08006000 ≤ a.toNat)
    (hhi : a.toNat + 4 * (chunkWords ps).length ≤ 0x08020000) (hal : a.toNat % 4 = 0) (h : s.canSend 3 = true) :
    ∃ m d, exec (.wm a x ps y) s = .next { endCommand (s.sent [0x79, 0x79, 0x79]) with mem := m, draws := d } ∧
      Programmed s a.toNat (chunkWords ps) m d := by
  have hlen := chunkWords_length ps
  have hc : classify a = .flash := (classify_eq_flash_iff a).2 (by omega)
  obtain ⟨m, d, hws, hwf, hout, htakes, hundrawn⟩ := programWords_inside (s := s.atArbiter a x ps y) hm hal hlo hhi
  refine ⟨m, d, ?_, hwf, hout, htakes, hundrawn⟩
  rw [exec_wm_arbiter hg hx h1 h2 hy (State.canSend_mono h (by decide)), arbitrateWrite_flash hc, hws, Flow.andThen_go,
    ackFinish_atArbiter h, Flow.state_stop]

end

end

/-! ## Flash (R96) -/

/-- Settles O28: the words are programmed one by one, each written or drawn. -/
theorem writeMemoryToFlashCompletesOnAnyContents : Obligations.WriteMemoryToFlashCompletesOnAnyContents := by
  unfold Obligations.WriteMemoryToFlashCompletesOnAnyContents
  intro s a x y ps n hm hg hx h1 h2 hy hn hlo hhi hal h
  rw [← four_mul_chunkWords_length h1] at hn
  subst hn
  obtain ⟨m, d, he, hp⟩ := exec_wm_flash hg hx h1 h2 hy hm hlo hhi hal h
  refine ⟨m, d, he, fun z hz hz' hpz => ?_, hp.outside⟩
  exact hp.payload ⟨[], List.append_nil _⟩ hz hz' hpz

/-- Settles O27: where every word is erased and unprotected, every word takes its bytes and nothing is drawn. -/
theorem writeMemoryProgramsFlash : Obligations.WriteMemoryProgramsFlash := by
  unfold Obligations.WriteMemoryProgramsFlash
  intro s a x y ps n hm hg hx h1 h2 hy hn hlo hhi hal hopen h
  rw [← four_mul_chunkWords_length h1] at hn
  subst hn
  have hprog : ∀ z, a.toNat ≤ z → z < a.toNat + 4 * (chunkWords ps).length → programmable s z := fun z hz hz' =>
    ⟨fun j hj => (hopen _ (by omega) (by omega)).1, (hopen z hz hz').2⟩
  obtain ⟨m, d, he, hp⟩ := exec_wm_flash hg hx h1 h2 hy hm hlo hhi hal h
  obtain rfl := hp.undrawn fun i hi => hprog _ (by omega) (by omega)
  refine ⟨m, he, fun z => ?_⟩
  split
  · rename_i hz
    exact hp.payload ⟨[], List.append_nil _⟩ hz.1 hz.2 (hprog z hz.1 hz.2)
  · exact hp.outside z (by omega)

/-- Settles O29: the first word faults, or the first word past the window does. -/
theorem writeMemoryFlashFaults : Obligations.WriteMemoryFlashFaults := by
  unfold Obligations.WriteMemoryFlashFaults
  intro s a x y ps hm hg hx h1 h2 hy hc h
  have hlen := chunkWords_length ps
  refine ⟨fun hal => ?_, fun hal hpast => ?_⟩
  · have hne : chunkWords ps ≠ [] := List.ne_nil_of_length_pos (by omega)
    exact exec_wm_fault hg hx h1 h2 hy h (m := s.mem) (d := s.draws)
      (by rw [arbitrateWrite_flash hc, programWords_misaligned hne hal]; rfl)
  · obtain ⟨hlo, htop⟩ := inFlash_of_classify hc
    obtain ⟨m, d, hws, hp⟩ := programWords_past (s := s.atArbiter a x ps y) (ws := chunkWords ps) hm hal hc (by omega)
    obtain ⟨t, he, hcs, htx, rfl, hrx, hst⟩ := exec_wm_fault hg hx h1 h2 hy h (by rw [arbitrateWrite_flash hc, hws]; rfl)
    have hn : 4 * ((chunkWords ps).take ((0x08020000 - a.toNat) / 4)).length = 0x08020000 - a.toNat := by
      rw [List.length_take]
      omega
    have hout := hp.outside
    rw [hn] at hout
    refine ⟨t, he, hcs, htx, hrx, hst, fun z hz hz' hpz => ?_, hout⟩
    exact hp.payload ⟨_, List.take_append_drop _ _⟩ hz (by omega) hpz

/-! ## RAM (R47) -/

/-- Settles O30: the bytes are stored one by one, and the parameter decides the third ACK. -/
theorem writeMemoryStoresRam : Obligations.WriteMemoryStoresRam := by
  unfold Obligations.WriteMemoryStoresRam
  intro s a x y ps hm hg hx h1 h2 hy hlo hhi h
  refine ⟨s.mem.writeBytes a.toNat ps, ?_, Memory.read_writeBytes hm a.toNat ps⟩
  have hc : classify a = .ram := (classify_eq_ram_iff a).2 (by omega)
  rw [exec_wm_arbiter hg hx h1 h2 hy (State.canSend_mono h (by decide)), arbitrateWrite_ram hc,
    storeBytes_inside hlo hhi, Flow.andThen_go]
  change Host.Outcome.next (Flow.state (if s.cfg.ramWriteAck then _ else _)) = _
  split
  · exact congrArg (fun f => Host.Outcome.next (Flow.state f)) (ackFinish_atArbiter h (s.mem.writeBytes a.toNat ps) s.draws)
  · rfl

/-- Settles O31: the bytes inside the window are stored, and the first one past it faults. -/
theorem writeMemoryRamFaultsPastTheWindow : Obligations.WriteMemoryRamFaultsPastTheWindow := by
  unfold Obligations.WriteMemoryRamFaultsPastTheWindow
  intro s a x y ps hm hg hx h2 hy hc hpast h
  obtain ⟨hlo, htop⟩ := (classify_eq_ram_iff a).1 hc
  have hread := Memory.read_writeBytes hm a.toNat (ps.take (0x20005001 - a.toNat))
  obtain ⟨t, he, hcs, htx, hmem, hrx, hst⟩ := exec_wm_fault hg hx (by omega) h2 hy h (d := s.draws)
    (m := s.mem.writeBytes a.toNat (ps.take (0x20005001 - a.toNat)))
    (by rw [arbitrateWrite_ram hc, storeBytes_past hc hpast]; rfl)
  refine ⟨t, he, hcs, htx, hrx, hst, fun z => ?_⟩
  rw [hmem, hread, List.length_take]
  by_cases hz : a.toNat ≤ z ∧ z ≤ 0x20005000
  · rw [if_pos (by omega), if_pos hz, ← List.getD_append _ (ps.drop (0x20005001 - a.toNat)) _ _
      (by rw [List.length_take]; omega), List.take_append_drop]
  · rw [if_neg (by omega), if_neg hz]

/-! ## Option bytes (R99, R105, R106) -/

/-- `FC.reset()` after an option-byte write: the protection status is drawn (R106). -/
theorem softwareReset_written {s : State} (h : s.obWritten = true) :
    softwareReset s =
      { s.restarted with
        obWritten := false, rop := Config.freeRop s.draws, wrp := Config.freeWrp s.draws, draws := s.draws + 1 } := by
  rw [softwareReset, applyOptionBytes, if_pos h]
  rfl

/-- The third ACK and the reset that consumes `OB_WRITTEN`. -/
theorem ackReset_atArbiter {s : State} {a : Addr} {x y : Byte} {ps : List Byte} (h : s.canSend 3 = true) (m : Memory) :
    (ack { s.atArbiter a x ps y with mem := m, obWritten := true }).andThen fcReset =
      .stop { (s.sent [0x79, 0x79, 0x79]).restarted with
        obWritten := false, rop := Config.freeRop s.draws, wrp := Config.freeWrp s.draws, mem := m, draws := s.draws + 1 } := by
  have hack : ({ s.atArbiter a x ps y with mem := m, obWritten := true } : State).canSend 1 = true :=
    State.canSend_sent (s := s) (bs := [0x79, 0x79]) h
  have hsent : (s.sent [0x79, 0x79]).sent [0x79] = s.sent [0x79, 0x79, 0x79] := State.sent_sent _ _ _
  rw [ack_eq hack, Flow.andThen_go, fcReset_eq, softwareReset_written rfl, ← hsent]
  rfl

/-- Settles O32: the bytes are stored, and the reset draws the protection status. -/
theorem writeMemoryProgramsOptionBytesAndResets : Obligations.WriteMemoryProgramsOptionBytesAndResets := by
  unfold Obligations.WriteMemoryProgramsOptionBytesAndResets
  intro s x y ps hm hg hx h1 h2 hy hsize h
  refine ⟨s.mem.writeBytes 0x1FFFF800 ps, Config.freeRop s.draws, Config.freeWrp s.draws, ?_, Memory.read_writeBytes hm _ ps⟩
  have hob : programOptionBytes ps (s.atArbiter 0x1FFFF800 x ps y) = .go _ := if_neg (Nat.not_lt.2 hsize)
  rw [exec_wm_arbiter hg hx h1 h2 hy (State.canSend_mono h (by decide)), arbitrateWrite_optionBytes, hob, Flow.andThen_go]
  exact congrArg (fun f => Host.Outcome.next (Flow.state f)) (ackReset_atArbiter h (s.mem.writeBytes 0x1FFFF800 ps))

/-! ## Refusals (R124, R138, R139, R157) -/

/-- Settles O33: each check of the command in turn, and the size of the option bytes. -/
theorem writeMemoryRefusals : Obligations.WriteMemoryRefusals := by
  unfold Obligations.WriteMemoryRefusals
  intro s a x y ps hg h h1 h2
  have hsend2 : s.canSend 2 = true := State.canSend_mono h (by decide)
  refine ⟨fun hx => ?_, fun hx hy => ?_, fun hx hy hc ha => ?_, fun hx hy ha hsize => ?_⟩
  · rw [exec_wm hg (State.canSend_mono h (by decide)), wmAddrStage_bad hx (State.canSend_sent (bs := [0x79]) hsend2),
      State.sent_sent]
    rfl
  · rw [exec_wm_frame hg hx h1 h2 hsend2, if_neg (by rwa [verify_iff]), takeError_atArbiter (.inl rfl) h, Flow.state_stop]
  · rw [exec_wm_arbiter hg hx h1 h2 hy hsend2, arbitrateWrite_other hc ha, takeError_atArbiter (.inr rfl) h, Flow.state_stop]
  · subst ha
    have hob : programOptionBytes ps (s.atArbiter 0x1FFFF800 x ps y) = raise (.obWriteOutOfRange ps.length) _ := if_pos hsize
    exact exec_wm_fault hg hx h1 h2 hy hsend2 (m := s.mem) (d := s.draws) (by rw [arbitrateWrite_optionBytes, hob]; rfl)

end Sys2Proof.Machine
end

section
/-! PROOFS. erase and extended-erase (spec/45_erase_commands.md R127, R128): what a run of page erases leaves in memory
(spec/41_address_class_write_arbiter.md R97, R98), then the way of both forms of erase to that run. -/

namespace Sys2Proof.Machine

/-! ## Pages (R9, R71) -/

/-- A page of class `Flash` starts at the address: `FC.erasePage` takes it (R97). -/
def isPage (p : Addr) : Prop := classify p = .flash ∧ (p.toNat - 0x08006000) % 0x400 = 0

/-- Some page of the list holds the byte. -/
def inPages (ps : List Addr) (z : Nat) : Prop := ∃ p ∈ ps, p.toNat ≤ z ∧ z < p.toNat + 0x400

/-- Pages do not overlap. -/
theorem isPage.eq_of_holds {p q : Addr} (hp : isPage p) (hq : isPage q) {z : Nat} (hpz : p.toNat ≤ z ∧ z < p.toNat + 0x400)
    (hqz : q.toNat ≤ z ∧ z < q.toNat + 0x400) : p = q := by
  obtain ⟨hpc, hpa⟩ := hp
  obtain ⟨hqc, hqa⟩ := hq
  have := page_in_window hpc hpa
  have := page_in_window hqc hqa
  exact BitVec.eq_of_toNat_eq (by omega)

/-- The indices that name a page (R71, R97). -/
theorem isPage_pageAddr_iff (p : Byte) : isPage (pageAddr p) ↔ 1 ≤ p.toNat ∧ p.toNat ≤ 104 := by
  rw [isPage, classify_eq_flash_iff, pageAddr_toNat]
  omega

theorem isPage_of_mem_map_pageAddr {ps : List Byte} (h : ∀ p ∈ ps, 1 ≤ p.toNat ∧ p.toNat ≤ 104) :
    ∀ a ∈ ps.map pageAddr, isPage a := by
  rw [List.forall_mem_map]
  exact fun p hp => (isPage_pageAddr_iff p).2 (h p hp)

theorem inPages_map_pageAddr (ps : List Byte) (z : Nat) : inPages (ps.map pageAddr) z ↔ inListedPage ps z := by
  simp only [inPages, inListedPage, List.mem_map, exists_exists_and_eq_and]

theorem isPage_of_mem_flashPageList {p : Addr} (h : p ∈ flashPageList) : isPage p := by
  obtain ⟨k, hk, rfl⟩ := List.mem_map.1 h
  have hk : k < 104 := List.mem_range.1 hk
  rw [isPage, classify_eq_flash_iff, BitVec.toNat_ofNat, Const.flashBase, Const.pageSize]
  omega

/-! ## Pages erased (R97, R98) -/

/-- Memory `m` after the pages `ps` have been erased: their unprotected bytes read as erased, every byte outside as before. -/
structure ErasedPages (s : State) (ps : List Addr) (m : Memory) : Prop where
  wf : m.wf = true
  erased : ∀ z, inPages ps z → sectorProtected s z = false → m.read z = s.cfg.erasedByte
  outside : ∀ z, ¬ inPages ps z → m.read z = s.mem.read z

/-- One page: filled, or drawn where its sector is protected; a page lies in one sector. -/
theorem erasePage_of_isPage {s : State} {p : Addr} (hm : s.mem.wf = true) (hp : isPage p) :
    ∃ m d, erasePage p s = .go { s with mem := m, draws := d } ∧ ErasedPages s [p] m := by
  obtain ⟨hc, ha⟩ := hp
  obtain ⟨h1, h2⟩ := page_in_window hc ha
  have hbg := Memory.background_of_inFlash h1 h2
  have hin : ∀ z, inPages [p] z ↔ p.toNat ≤ z ∧ z < p.toNat + 0x400 := fun z => by simp [inPages]
  rw [erasePage_page hc ha]
  by_cases hprot : sectorProtected s p.toNat = true
  · refine ⟨_, _, if_pos hprot, Memory.wf_writeBytes hm _ _, fun z hz hopen => ?_, fun z hz => ?_⟩
    · rw [hin] at hz
      have hsector : (z - 0x08006000) / 0x1000 = (p.toNat - 0x08006000) / 0x1000 := by omega
      rw [sectorProtected, hsector] at hopen
      rw [sectorProtected, hopen] at hprot
      cases hprot
    · rw [hin] at hz
      exact sameOutside_writeBytes hm (freeBytes_length _ _) z (by omega)
  · refine ⟨_, _, if_neg hprot, Memory.wf_fill hbg hm _, fun z hz _ => ?_, fun z hz => ?_⟩
    · rw [Memory.read_fill hbg, if_pos ((hin z).1 hz)]
    · rw [Memory.read_fill hbg, if_neg (mt (hin z).2 hz)]

/-- A page and then the pages after it. A page listed again stays erased. -/
theorem ErasedPages.cons {s : State} {p : Addr} {ps : List Addr} {m m' : Memory} {d : Nat} (h : ErasedPages s [p] m)
    (h' : ErasedPages { s with mem := m, draws := d } ps m') : ErasedPages s (p :: ps) m' := by
  have hin : ∀ z, inPages (p :: ps) z ↔ inPages [p] z ∨ inPages ps z := fun z => by simp [inPages]
  refine ⟨h'.wf, fun z hz hopen => ?_, fun z hz => ?_⟩
  · by_cases hrest : inPages ps z
    · exact h'.erased z hrest hopen
    · rw [h'.outside z hrest]
      exact h.erased z (((hin z).1 hz).resolve_right hrest) hopen
  · rw [hin, not_or] at hz
    rw [h'.outside z hz.2]
    exact h.outside z hz.1

/-- A list of pages is erased whole. -/
theorem erasePages_of_isPage {s : State} {ps : List Addr} (hm : s.mem.wf = true) (hp : ∀ p ∈ ps, isPage p) :
    ∃ m d, erasePages ps s = .go { s with mem := m, draws := d } ∧ ErasedPages s ps m := by
  induction ps generalizing s with
  | nil => exact ⟨_, _, rfl, hm, fun _ ⟨_, hq, _⟩ => absurd hq List.not_mem_nil, fun _ _ => rfl⟩
  | cons p ps ih =>
    obtain ⟨hpage, hpages⟩ := List.forall_mem_cons.1 hp
    obtain ⟨m, d, he, hone⟩ := erasePage_of_isPage hm hpage
    obtain ⟨m', d', hes, hrest⟩ := ih (s := { s with mem := m, draws := d }) hone.wf hpages
    exact ⟨m', d', by rw [erasePages, he, Flow.andThen_go, hes], hone.cons hrest⟩

theorem erasePages_append (ps qs : List Addr) (s : State) :
    erasePages (ps ++ qs) s = (erasePages ps s).andThen (erasePages qs) := by
  induction ps generalizing s with
  | nil => rfl
  | cons p ps ih =>
    rw [List.cons_append, erasePages, erasePages, Flow.andThen_assoc]
    exact congrArg _ (funext ih)

/-- Where no page starts, a list of pages faults with the pages before it erased. -/
theorem erasePages_invalid {s : State} {pre : List Addr} {p : Addr} (hm : s.mem.wf = true) (hpre : ∀ q ∈ pre, isPage q)
    (hp : ¬ isPage p) (post : List Addr) :
    ∃ m d, erasePages (pre ++ p :: post) s = .stop { s with mem := m, draws := d, cs := .fault (.erasePageInvalid p) } ∧
      ErasedPages s pre m := by
  obtain ⟨m, d, he, hpages⟩ := erasePages_of_isPage hm hpre
  refine ⟨m, d, ?_, hpages⟩
  rw [erasePages_append, he, Flow.andThen_go, erasePages, erasePage_invalid (not_and_or.1 hp), Flow.andThen_stop]

/-- Pages erased, then the last ACK and the end of the command (R127). -/
theorem erasePagesAck_of_isPage {s : State} {ps : List Addr} (hm : s.mem.wf = true) (hp : ∀ p ∈ ps, isPage p)
    (h : s.canSend 1 = true) :
    ∃ m d, ((erasePages ps s).andThen fun t => (ack t).andThen finish) =
        .stop { endCommand (s.sent [0x79]) with mem := m, draws := d } ∧ ErasedPages s ps m := by
  obtain ⟨m, d, he, hpages⟩ := erasePages_of_isPage hm hp
  refine ⟨m, d, ?_, hpages⟩
  rw [he, Flow.andThen_go, ack_eq (s := { s with mem := m, draws := d }) h]
  rfl

/-! ## The way to the pages (R127) -/

/-- erase with its header acknowledged, at a wait point whose frame has left these registers. -/
def State.erasing (s : State) (p : ControlState) (n : Byte) (b : List Byte) (z : Option Byte) (j : Option Nat) : State :=
  (s.sent [0x79]).busy p .er s.addr s.acks (some n) s.ncks b z j s.rx

/-- erase with its LIST frame in the registers. -/
def State.eraseFrame (s : State) (ps : List Byte) (x : Byte) : State :=
  s.erasing .fCks (numberOf ps) (ps ++ [numberOf ps]) (some x) (some ps.length)

theorem endCommand_erasing (s : State) (p : ControlState) (n : Byte) (b : List Byte) (z : Option Byte) (j : Option Nat)
    (bs : List Byte) : endCommand ((s.erasing p n b z j).sent bs) = endCommand (s.sent (0x79 :: bs)) := by
  rw [State.erasing, busy_sent, State.sent_sent]
  rfl

/-- The ACK of the header counts towards the budget of sends. -/
theorem canSend_erasing {s : State} {n : Nat} (h : s.canSend (1 + n) = true) (p : ControlState) (m : Byte) (b : List Byte)
    (z : Option Byte) (j : Option Nat) : (s.erasing p m b z j).canSend n = true :=
  State.canSend_sent (bs := [0x79]) h

/-- Erase-all goes from its `number` byte straight to the pages. -/
theorem exec_er_all {s : State} (hg : s.guardOpen .er = true) (h : s.canSend 1 = true) :
    exec (.er none) s =
      .next ((erasePages (flashPageList.filter fun p => !overlapsBootloader s.cfg p)
        (s.erasing .fN 0xFF s.buf s.cks s.i)).andThen fun t => (ack t).andThen finish).state := by
  rw [← Flow.andThen_id (Flow.andThen _ _)]
  exact congrArg (fun f => Host.Outcome.next (Flow.state f))
    (numberPhase hg h 0xFF [] fun t => (erNumberStage t).andThen (erBody none))

section
variable {s : State} {ps : List Byte} {x : Byte}

/-- Erase of a list up to its frame check. -/
theorem exec_er_list (hg : s.guardOpen .er = true) (h1 : 1 ≤ ps.length) (h2 : ps.length ≤ 255) (h : s.canSend 1 = true) :
    exec (.er (some (ps, x))) s = .next (erFrameStage (s.eraseFrame ps x)).state := by
  have hne : numberOf ps ≠ 0xFF := (numberOf_ne_iff (payloadOk_iff.mpr ⟨h1, by omega⟩)).mpr h2
  have hphase := numberPhase hg h (numberOf ps) (ps ++ [x]) fun t => (erNumberStage t).andThen (erBody (some (ps, x)))
  rw [erNumberStage, busy_num, reading_some, if_neg hne, startBody_busy, Flow.andThen_go, erBody, receiveBody_busy,
    drop_frame] at hphase
  exact congrArg (fun f => Host.Outcome.next (Flow.state f)) hphase

section
variable (h1 : 1 ≤ ps.length) (h2 : ps.length ≤ 255)
include h1 h2

theorem checkedFrame_eraseFrame (k : List Byte → Bool → Flow) :
    checkedFrame (s.eraseFrame ps x) k = k ps (verify (ps ++ [numberOf ps]) x) :=
  checkedFrame_busy h1 (by omega) k

theorem erFrameStage_good (hx : x = frameXor ps) :
    erFrameStage (s.eraseFrame ps x) = eraseListed ps ((s.eraseFrame ps x).sent []) := by
  rw [erFrameStage, checkedFrame_eraseFrame h1 h2, if_pos ((verify_iff _ _).2 hx), State.sent_nil]

theorem erFrameStage_abort (hx : x ≠ frameXor ps) (hmode : s.cfg.eraseCksFailMode = .abort) (h : s.canSend 2 = true) :
    erFrameStage (s.eraseFrame ps x) = .stop (endCommand (s.sent [0x79, 0x1F])) := by
  rw [erFrameStage, checkedFrame_eraseFrame h1 h2, if_neg (by rwa [verify_iff]),
    show (s.eraseFrame ps x).cfg.eraseCksFailMode = .abort from hmode]
  exact (takeError_nack (e := .checksumMismatch) rfl rfl (canSend_erasing h _ _ _ _ _)).trans
    (congrArg Flow.stop (endCommand_erasing s _ _ _ _ _ [0x1F]))

theorem erFrameStage_proceed (hx : x ≠ frameXor ps) (hmode : s.cfg.eraseCksFailMode = .proceed) (h : s.canSend 2 = true) :
    erFrameStage (s.eraseFrame ps x) = eraseListed ps ((s.eraseFrame ps x).sent [0x1F]) := by
  rw [erFrameStage, checkedFrame_eraseFrame h1 h2, if_neg (by rwa [verify_iff]),
    show (s.eraseFrame ps x).cfg.eraseCksFailMode = .proceed from hmode]
  exact congrArg (Flow.andThen · (eraseListed ps)) (nack_eq (s := s.eraseFrame ps x) (canSend_erasing h _ _ _ _ _))

end

/-! ## The listed pages, after the replies to the frame

`bs` is what has been sent of the frame: nothing, or under `continue` the NACK of a bad checksum. -/

section
variable {bs : List Byte} (hm : s.mem.wf = true)
  (he : exec (.er (some (ps, x))) s = .next (eraseListed ps ((s.eraseFrame ps x).sent bs)).state)
include hm he

/-- Valid indices: the pages erased, the last ACK, the end of the command. -/
theorem exec_er_listed (hps : ∀ p ∈ ps, 1 ≤ p.toNat ∧ p.toNat ≤ 104) (h : s.canSend (bs.length + 2) = true) :
    ∃ m d, exec (.er (some (ps, x))) s = .next { endCommand (s.sent (0x79 :: bs ++ [0x79])) with mem := m, draws := d } ∧
      (∀ z, inListedPage ps z → sectorProtected s z = false → m.read z = s.cfg.erasedByte) ∧
      (∀ z, ¬ inListedPage ps z → m.read z = s.mem.read z) := by
  have hsend : ((s.eraseFrame ps x).sent bs).canSend 1 = true :=
    State.canSend_sent (canSend_erasing (by rwa [Nat.add_left_comm]) _ _ _ _ _)
  obtain ⟨m, d, hpages, -, herased, hout⟩ :=
    erasePagesAck_of_isPage (s := (s.eraseFrame ps x).sent bs) hm (isPage_of_mem_map_pageAddr hps) hsend
  simp only [inPages_map_pageAddr] at herased hout
  refine ⟨m, d, ?_, herased, hout⟩
  rw [he, eraseListed, hpages, State.sent_sent, State.eraseFrame, endCommand_erasing]
  rfl

/-- A first invalid index: the fault, with the pages before it erased and no further byte sent. -/
theorem exec_er_invalid {pre post : List Byte} {p : Byte} (hps : ps = pre ++ p :: post)
    (hpre : ∀ q ∈ pre, 1 ≤ q.toNat ∧ q.toNat ≤ 104) (hp : p.toNat = 0 ∨ 104 < p.toNat) :
    ∃ t, exec (.er (some (ps, x))) s = .next t ∧ t.cs = .fault (.erasePageInvalid (pageAddr p)) ∧
      t.tx = s.tx ++ 0x79 :: bs ∧ t.rx = s.rx ∧ sameStatus s t ∧
      (∀ z, inListedPage pre z → sectorProtected s z = false → t.mem.read z = s.cfg.erasedByte) ∧
      (∀ z, ¬ inListedPage pre z → t.mem.read z = s.mem.read z) := by
  have hinvalid : ¬ isPage (pageAddr p) := by
    rw [isPage_pageAddr_iff]
    omega
  obtain ⟨m, d, hpages, -, herased, hout⟩ :=
    erasePages_invalid (s := (s.eraseFrame ps x).sent bs) hm (isPage_of_mem_map_pageAddr hpre) hinvalid (post.map pageAddr)
  simp only [inPages_map_pageAddr] at herased hout
  rw [← List.map_cons, ← List.map_append, ← hps] at hpages
  rw [he, eraseListed, hpages]
  exact ⟨_, rfl, rfl, List.append_assoc _ _ _, rfl, ⟨rfl, rfl, rfl, rfl, rfl, rfl, rfl⟩, herased, hout⟩

end

end

/-! ## The statements -/

/-- Settles O39: extended-erase is one of the refusals of a header, and has no operand bytes to leave behind. -/
theorem extendedEraseAlwaysNacks : Obligations.ExtendedEraseAlwaysNacks :=
  ⟨rfl, fun _ h => exec_refused (i := .ee) rfl (.inl rfl) h⟩

/-- Settles O35: the pages erased are those that do not overlap the bootloader, and no byte lies in two pages. -/
theorem eraseAllErasesFlash : Obligations.EraseAllErasesFlash := by
  unfold Obligations.EraseAllErasesFlash
  intro s hm hg h
  have hmem : ∀ p, p ∈ flashPageList.filter (fun p => !overlapsBootloader s.cfg p) ↔
      p ∈ flashPageList ∧ overlapsBootloader s.cfg p = false := fun p => by rw [List.mem_filter, Bool.not_eq_true']
  obtain ⟨m, d, hpages, -, herased, hout⟩ :=
    erasePagesAck_of_isPage (s := s.erasing .fN 0xFF s.buf s.cks s.i) hm
      (fun p hp => isPage_of_mem_flashPageList ((hmem p).1 hp).1) (canSend_erasing h _ _ _ _ _)
  refine ⟨m, d, ?_, fun z hz => hout z ?_, fun p hp z hz hz' => ⟨fun hboot => hout z ?_, fun hfree => herased z ?_⟩⟩
  · rw [exec_er_all hg (State.canSend_mono h (by decide)), hpages, endCommand_erasing]
    rfl
  · rintro ⟨q, hq, hqz⟩
    obtain ⟨hc, ha⟩ := isPage_of_mem_flashPageList ((hmem q).1 hq).1
    have := page_in_window hc ha
    omega
  · rintro ⟨q, hq, hqz⟩
    obtain ⟨hqmem, hqfree⟩ := (hmem q).1 hq
    obtain rfl := (isPage_of_mem_flashPageList hp).eq_of_holds (isPage_of_mem_flashPageList hqmem) ⟨hz, hz'⟩ hqz
    rw [hboot] at hqfree
    cases hqfree
  · exact ⟨p, (hmem p).2 ⟨hp, hfree⟩, hz, hz'⟩

/-- Settles O36: a good frame goes to its pages with nothing further sent. -/
theorem eraseListErasesItsPages : Obligations.EraseListErasesItsPages := by
  unfold Obligations.EraseListErasesItsPages
  intro s ps x hm hg h1 h2 hps hx h
  have he := exec_er_list (x := x) hg h1 h2 (State.canSend_mono h (by decide))
  rw [erFrameStage_good h1 h2 hx] at he
  exact exec_er_listed hm he hps h

/-- Settles O37: the mode ends the command at the NACK, or goes on to the pages after it. -/
theorem eraseOnABadChecksum : Obligations.EraseOnABadChecksum := by
  unfold Obligations.EraseOnABadChecksum
  intro s ps x hm hg h1 h2 hx h
  have hsend2 : s.canSend 2 = true := State.canSend_mono h (by decide)
  have he := exec_er_list (x := x) hg h1 h2 (State.canSend_mono h (by decide))
  refine ⟨fun hmode => ?_, fun hmode hps => ?_, fun hmode pre post p hps hpre hp => ?_⟩
  · rw [he, erFrameStage_abort h1 h2 hx hmode hsend2, Flow.state_stop]
  · rw [erFrameStage_proceed h1 h2 hx hmode hsend2] at he
    exact exec_er_listed hm he hps h
  · rw [erFrameStage_proceed h1 h2 hx hmode hsend2] at he
    exact exec_er_invalid hm he hps hpre hp

/-- Settles O38: the pages of the list run up to the first index that names none. -/
theorem eraseFaultsAtAnInvalidPage : Obligations.EraseFaultsAtAnInvalidPage := by
  unfold Obligations.EraseFaultsAtAnInvalidPage
  intro s pre post p x hm hg h2 hpre hp hx h
  have h1 : 1 ≤ (pre ++ p :: post).length := by
    rw [List.length_append, List.length_cons]
    omega
  have he := exec_er_list (x := x) hg h1 h2 h
  rw [erFrameStage_good h1 h2 hx] at he
  exact exec_er_invalid hm he rfl hpre hp

end Sys2Proof.Machine
end

section
/-! PROOFS. The protection commands (spec/46_protection_commands.md R130 to R133): the reset that each ends in, what each leaves in
`ROP`, `WRP` and memory on the way to it, and that no other command changes the protection status (R129). -/

namespace Sys2Proof.Machine

/-! ## The last ACK and the reset (R105, R107) -/

section
variable {s : State} (hob : s.obWritten = false) (h : s.canSend 2 = true)
include hob h

/-- After the ACK of its header a command has left this storage: the second ACK is sent and the block resets, with nothing else
changed. -/
theorem ackReset_busy {p : ControlState} {c : Command} {a : Option Addr} {x n y : Option Byte} {b : List Byte} {z : Option Byte}
    {j : Option Nat} {r : List RxEvent} (m : Memory) (ρ : Bool) (w : BitVec 26) :
    (ack { (s.sent [0x79]).busy p c a x n y b z j r with mem := m, rop := ρ, wrp := w }).andThen fcReset =
      .stop { (s.sent [0x79, 0x79]).restarted with mem := m, rop := ρ, wrp := w, rx := r } := by
  have hack : ({ (s.sent [0x79]).busy p c a x n y b z j r with mem := m, rop := ρ, wrp := w } : State).canSend 1 = true :=
    State.canSend_sent (s := s) (bs := [0x79]) h
  have hsent : (s.sent [0x79]).sent [0x79] = s.sent [0x79, 0x79] := State.sent_sent _ _ _
  rw [ack_eq hack, Flow.andThen_go, fcReset_eq, softwareReset_unwritten (by exact hob), ← hsent]
  rfl

/-- A command without operands whose handler, past its guard, changes the storage by `f` between its two ACKs. -/
theorem exec_resetting {i : Instr} {c : Command} {f : State → State} {m : Memory} {ρ : Bool} {w : BitVec 26}
    (hc : i.command = some c) (hops : operandBytes i = [])
    (hd : dispatch c (issue c [] s) = (ack (issue c [] s)).andThen fun t => (ack (f t)).andThen fcReset)
    (hf : f (issue c [] (s.sent [0x79])) = { issue c [] (s.sent [0x79]) with mem := m, rop := ρ, wrp := w }) :
    exec i s = .next { (s.sent [0x79, 0x79]).restarted with mem := m, rop := ρ, wrp := w } := by
  refine exec_of_dispatch_stop hc ?_
  have hfirst : ack (issue c [] s) = .go (issue c [] (s.sent [0x79])) :=
    ack_eq (s := issue c [] s) (State.canSend_mono h (by decide))
  rw [hops, hd, hfirst, Flow.andThen_go, hf]
  exact ackReset_busy hob h m ρ w

end

/-! ## Commands without operands (R131 to R133) -/

/-- Settles O42: the handler clears `WRP` between its two ACKs. -/
theorem writeUnprotectClearsEverySector : Obligations.WriteUnprotectClearsEverySector := by
  unfold Obligations.WriteUnprotectClearsEverySector
  refine ⟨rfl, fun s hg hob h => ?_⟩
  exact exec_resetting (f := removeWriteProtection) hob h rfl rfl (acceptHeader_open (s := issue .wu [] s) hg _) rfl

/-- With `ROP` inactive the guard holds no command back (R116). -/
theorem guardOpen_of_rop {s : State} (hrop : s.rop = false) (c : Command) : s.guardOpen c = true := by
  rw [State.guardOpen, hrop, Bool.and_false, Bool.not_false]

/-- Past the test of `ROP`, readout-protect is ACK, the change and ACK (R104, R132). -/
theorem dispatch_rp {s : State} (hrop : s.rop = false) :
    dispatch .rp s = (ack s).andThen fun t => (ack (enableReadoutProtection t)).andThen fcReset := by
  have htest : ¬ s.rop = true := Bool.eq_false_iff.1 hrop
  exact (acceptHeader_open (guardOpen_of_rop hrop _) _).trans (if_neg htest)

/-- Settles O43: with `ROP` inactive no guard holds the command back; with it active this is one of the refusals of a header. -/
theorem readoutProtectSetsRopOnce : Obligations.ReadoutProtectSetsRopOnce := by
  unfold Obligations.ReadoutProtectSetsRopOnce
  refine ⟨rfl, fun s h => ⟨fun hrop hob => ?_, fun hrop => ?_⟩⟩
  · exact exec_resetting (f := enableReadoutProtection) hob h rfl rfl (dispatch_rp (s := issue .rp [] s) hrop) rfl
  · exact exec_refused (i := .rp) rfl (.inr (.inl ⟨rfl, hrop⟩)) (State.canSend_mono h (by decide))

/-- On a healthy channel RAM may be cleared before the ACK as well as after it. -/
theorem ackReset_clearRam {s : State} (h : s.canSend 1 = true) :
    ((ack s).andThen fun t => fcReset (clearRam t)) = (ack (clearRam s)).andThen fcReset := by
  rw [ack_eq h, ack_eq (s := clearRam s) h]
  rfl

/-- So readout-unprotect makes all its changes between its two ACKs (R133). -/
theorem dispatch_ru {s : State} (hg : s.guardOpen .ru = true) (h : s.canSend 2 = true) :
    dispatch .ru s = (ack s).andThen fun t => (ack (clearRam (disableReadoutProtection t))).andThen fcReset := by
  have hlast : (disableReadoutProtection (s.sent [0x79])).canSend 1 = true := State.canSend_sent (s := s) (bs := [0x79]) h
  rw [dispatch, acceptHeader_open hg, ruHandler, ack_eq (State.canSend_mono h (by decide)), Flow.andThen_go, Flow.andThen_go,
    ackReset_clearRam hlast]

/-- Class `Flash` erased and class `Ram` cleared, byte by byte (R103, R108). -/
theorem read_clearRam_disableReadoutProtection (s : State) (z : Nat) :
    (clearRam (disableReadoutProtection s)).mem.read z =
      if 0x08006000 ≤ z ∧ z ≤ 0x0801FFFF then s.cfg.erasedByte
      else if 0x20000200 ≤ z ∧ z ≤ 0x20005000 then 0x00
      else s.mem.read z := by
  have hbg := Memory.background_of_inFlash (lo := 0x08006000) (n := 0x1A000) (by decide) (by decide)
  rw [clearRam, disableReadoutProtection, Memory.read_forget, Memory.read_fill hbg, Const.ramBase, Const.ramSize]
  by_cases hram : 0x20000200 ≤ z ∧ z ≤ 0x20005000
  · rw [if_pos (by omega), if_neg (by omega), if_pos hram, Memory.background_of_inRam ((inRam_iff z).2 hram)]
  · rw [if_neg (by omega), if_neg hram]
    by_cases hflash : 0x08006000 ≤ z ∧ z ≤ 0x0801FFFF
    · rw [if_pos (by omega), if_pos hflash]
    · rw [if_neg (by omega), if_neg hflash]

/-- Settles O44: the storage after both changes, read byte by byte. -/
theorem readoutUnprotectErasesFlashAndRam : Obligations.ReadoutUnprotectErasesFlashAndRam := by
  unfold Obligations.ReadoutUnprotectErasesFlashAndRam
  refine ⟨rfl, fun s hg hob h => ⟨_, ?_, read_clearRam_disableReadoutProtection s⟩⟩
  exact exec_resetting (f := fun t => clearRam (disableReadoutProtection t)) hob h rfl rfl
    (dispatch_ru (s := issue .ru [] s) hg h) rfl

/-! ## Sectors (R28, R71, R100) -/

/-- The indices that name a sector (R71, R100). -/
theorem classify_sectorAddr_iff (p : Byte) : classify (sectorAddr p) = .flash ↔ 1 ≤ p.toNat ∧ p.toNat ≤ 26 := by
  rw [classify_eq_flash_iff, sectorAddr_toNat]
  omega

/-- `WRP` with the bit of the sector `p` set (R28, R100). -/
def protectSector (w : BitVec 26) (p : Byte) : BitVec 26 := w ||| 1#26 <<< (p.toNat - 1)

theorem getLsbD_protectSector (w : BitVec 26) {p : Byte} (hp : 1 ≤ p.toNat) {k : Nat} (hk : k < 26) :
    (protectSector w p).getLsbD k = (w.getLsbD k || p.toNat == k + 1) := by
  rw [protectSector, ← BitVec.twoPow_eq, BitVec.getLsbD_or, BitVec.getLsbD_twoPow]
  congr 1
  rw [Bool.eq_iff_iff]
  simp only [Bool.and_eq_true, decide_eq_true_eq, beq_iff_eq]
  omega

theorem getLsbD_foldl_protectSector (w : BitVec 26) {ps : List Byte} (hps : ∀ p ∈ ps, 1 ≤ p.toNat ∧ p.toNat ≤ 26) {k : Nat}
    (hk : k < 26) : (ps.foldl protectSector w).getLsbD k = (w.getLsbD k || ps.any fun p => p.toNat == k + 1) := by
  induction ps generalizing w with
  | nil => exact (Bool.or_false _).symm
  | cons p ps ih =>
    obtain ⟨hp, hrest⟩ := List.forall_mem_cons.1 hps
    rw [List.foldl_cons, ih _ hrest, getLsbD_protectSector w hp.1 hk, List.any_cons, Bool.or_assoc]

theorem enableWriteProtection_sectorAddr {s : State} {p : Byte} (hp : 1 ≤ p.toNat ∧ p.toNat ≤ 26) :
    enableWriteProtection (sectorAddr p) s = .go { s with wrp := protectSector s.wrp p } := by
  have hvalid : ¬ (classify (sectorAddr p) ≠ .flash ∨ ((sectorAddr p).toNat - Const.flashBase) % Const.sectorSize ≠ 0) := by
    rw [ne_eq, classify_sectorAddr_iff, sectorAddr_toNat, Const.flashBase, Const.sectorSize]
    omega
  have hindex : sectorIndex (sectorAddr p) = p.toNat - 1 := by
    rw [sectorIndex, sectorAddr_toNat, Const.flashBase, Const.sectorSize]
    omega
  rw [enableWriteProtection, if_neg hvalid, hindex, protectSector]

theorem enableWriteProtection_invalid {s : State} {p : Byte} (hp : ¬ (1 ≤ p.toNat ∧ p.toNat ≤ 26)) :
    enableWriteProtection (sectorAddr p) s = .stop { s with cs := .fault (.wrpSectorInvalid (sectorAddr p)) } :=
  if_pos (.inl (mt (classify_sectorAddr_iff p).1 hp))

/-- Valid indices set their bits, and the list goes on with what follows them. -/
theorem protectSectors_append {ps : List Byte} (hps : ∀ p ∈ ps, 1 ≤ p.toNat ∧ p.toNat ≤ 26) (as : List Addr) (s : State) :
    protectSectors (ps.map sectorAddr ++ as) s = protectSectors as { s with wrp := ps.foldl protectSector s.wrp } := by
  induction ps generalizing s with
  | nil => rfl
  | cons p ps ih =>
    obtain ⟨hp, hrest⟩ := List.forall_mem_cons.1 hps
    rw [List.map_cons, List.cons_append, protectSectors, enableWriteProtection_sectorAddr hp, Flow.andThen_go, ih hrest]
    rfl

/-! ## write-protect (R130) -/

/-- write-protect with its header acknowledged and its LIST frame in the registers. -/
def State.protectFrame (s : State) (ix : List Byte) (x : Byte) : State :=
  (s.sent [0x79]).busy .fCks .wp s.addr s.acks (some (numberOf ix)) s.ncks (ix ++ [numberOf ix]) (some x) (some ix.length) s.rx

section
variable {s : State} {ix : List Byte} {x : Byte} (hrop : s.rop = false) (h1 : 1 ≤ ix.length) (h2 : ix.length ≤ 256)
  (h : s.canSend 2 = true)
include hrop h1 h2 h

/-- write-protect up to its frame check: with `ROP` inactive no guard holds it back. -/
theorem exec_wp :
    exec (.wp ix x) s =
      .next (if verify (ix ++ [numberOf ix]) x then
          (protectSectors (ix.map sectorAddr) (s.protectFrame ix x)).andThen fun t => (ack t).andThen fcReset
        else takeError .checksumMismatch (s.protectFrame ix x)).state := by
  have hphase := numberPhase (guardOpen_of_rop hrop .wp) (State.canSend_mono h (by decide)) (numberOf ix) (ix ++ [x])
    fun t => (wpNumberStage t).andThen fun t => wpFrameStage (receiveBody ix x t)
  rw [wpNumberStage, startBody_busy, Flow.andThen_go, receiveBody_busy, drop_frame, wpFrameStage,
    checkedFrame_busy h1 h2] at hphase
  exact congrArg (fun f => Host.Outcome.next (Flow.state f)) hphase

/-- A good frame goes to its sectors. -/
theorem exec_wp_good (hx : x = frameXor ix) :
    exec (.wp ix x) s =
      .next ((protectSectors (ix.map sectorAddr) (s.protectFrame ix x)).andThen fun t => (ack t).andThen fcReset).state := by
  rw [exec_wp hrop h1 h2 h, if_pos ((verify_iff _ _).2 hx)]

/-- A bad checksum is one NACK. -/
theorem exec_wp_bad (hx : x ≠ frameXor ix) : exec (.wp ix x) s = .next (endCommand (s.sent [0x79, 0x1F])) := by
  rw [exec_wp hrop h1 h2 h, if_neg (by rwa [verify_iff]), State.protectFrame,
    takeError_busy (.inl rfl) (State.canSend_sent (bs := [0x79]) h), State.sent_sent]
  rfl

end

/-- Settles O40: every listed sector sets its bit, and the reset follows. -/
theorem writeProtectSetsTheListedSectors : Obligations.WriteProtectSetsTheListedSectors := by
  unfold Obligations.WriteProtectSetsTheListedSectors
  intro s ix x hrop hob h1 h2 hix hx h
  refine ⟨ix.foldl protectSector s.wrp, ?_, fun k hk => getLsbD_foldl_protectSector s.wrp hix hk⟩
  have hsectors := protectSectors_append hix [] (s.protectFrame ix x)
  rw [List.append_nil] at hsectors
  rw [exec_wp_good hrop h1 h2 h hx, hsectors, protectSectors, Flow.andThen_go]
  exact congrArg (fun f => Host.Outcome.next (Flow.state f)) (ackReset_busy hob h s.mem s.rop _)

/-- Settles O41: the frame check, the first index that names no sector, and the guard. -/
theorem writeProtectRefusals : Obligations.WriteProtectRefusals := by
  unfold Obligations.WriteProtectRefusals
  refine fun s x h => ⟨fun ix hrop h1 h2 hx => exec_wp_bad hrop h1 h2 h hx, fun pre post p hrop h2 hpre hp hx => ?_,
    fun ix hrop => exec_refused (i := .wp ix x) rfl (.inr (.inr ⟨.inl rfl, hrop⟩)) (State.canSend_mono h (by decide))⟩
  have h1 : 1 ≤ (pre ++ p :: post).length := by
    rw [List.length_append, List.length_cons]
    omega
  rw [exec_wp_good hrop h1 h2 h hx, List.map_append, protectSectors_append hpre, List.map_cons, protectSectors,
    enableWriteProtection_invalid (by omega), Flow.andThen_stop, Flow.andThen_stop]
  exact ⟨_, rfl, rfl, rfl, rfl, rfl, rfl, rfl, fun k hk => getLsbD_foldl_protectSector s.wrp hpre hk⟩

/-! ## Commands that keep the protection status (R129) -/

/-- A piece that goes on, and what follows it from the very state it leaves. -/
theorem Flow.meets_andThen_of_go {P : State → Prop} {f : Flow} {k : State → Flow} (hf : f.meets P)
    (hk : ∀ t, f = .go t → P t → (k t).meets P) : (f.andThen k).meets P := by
  cases f with
  | go t => exact hk t rfl hf
  | stop t => exact hf

section
variable {p : Bool × BitVec 26} {s t : State} (h : s.protectionIs p)
include h

/-- The arbiter reaches the option bytes at `OB_BASE` only (R95). -/
theorem arbitrateWrite_protectionIs {a : Addr} (ha : a ≠ 0x1FFFF800) (payload : List Byte) :
    (arbitrateWrite a payload s).meets (State.protectionIs p) := by
  cases hc : classify a with
  | flash =>
    rw [arbitrateWrite_flash hc]
    exact Flow.meets_andThen (programWords_protectionIs h _ _) fun _ ht => ackFinish_meets ofStorage_protectionIs ht
  | ram =>
    rw [arbitrateWrite_ram hc]
    refine Flow.meets_andThen (storeBytes_protectionIs h _ _) fun t ht => ?_
    split
    · exact ackFinish_meets ofStorage_protectionIs ht
    · exact finish_meets ofStorage_protectionIs ht
  | other =>
    rw [arbitrateWrite_other hc ha]
    exact takeError_meets ofStorage_protectionIs h _

theorem wmAddrStage_protectionIs : (wmAddrStage s).meets (State.protectionIs p) := by
  refine checkedAddr_meets ofStorage_protectionIs h fun a ok => ?_
  split
  · exact ackWait_meets ofStorage_protectionIs h _
  · exact takeError_meets ofStorage_protectionIs h _

theorem wmFrameStage_protectionIs {a : Addr} (haddr : s.addr = some a) (ha : a ≠ 0x1FFFF800) :
    (wmFrameStage s).meets (State.protectionIs p) := by
  refine checkedFrame_meets ofStorage_protectionIs h fun payload ok => ?_
  rw [haddr, reading_some]
  split
  · exact arbitrateWrite_protectionIs h ha _
  · exact takeError_meets ofStorage_protectionIs h _

/-- write-memory anywhere but at `OB_BASE`: the arbiter has the address of the command's own frame (R124). -/
theorem execWm_protectionIs {a : Addr} {x y : Byte} {payload : List Byte} (ha : a ≠ 0x1FFFF800)
    (e : execWm a x payload y s = .next t) : t.protectionIs p := by
  have hs := issue_meets ofStorage_protectionIs h .wm (operandBytes (.wm a x payload y))
  cases e
  refine Flow.meets_andThen (acceptHeader_meets ofStorage_protectionIs hs _ (ackWait_meets ofStorage_protectionIs hs _))
    fun u hu => ?_
  have hstage : (wmAddrStage (receiveAddr a x u)).meets (State.protectionIs p) := wmAddrStage_protectionIs hu
  refine Flow.meets_andThen_of_go hstage fun v hgo hv => ?_
  have haddr : v.addr = some a := wmAddrStage_go hgo
  exact wmFrameStage_protectionIs (s := receiveBody payload y { receiveNumber (numberOf payload) v with cs := .fD 0, i := some 0 })
    hv haddr ha

theorem erNumberStage_protectionIs : (erNumberStage s).meets (State.protectionIs p) := by
  refine reading_meets ofStorage_protectionIs h fun n => ?_
  split
  · exact erasePagesAck_protectionIs h _
  · exact h

theorem execEr_protectionIs {list : Option (List Byte × Byte)} (e : execEr list s = .next t) : t.protectionIs p := by
  have hs := issue_meets ofStorage_protectionIs h .er (operandBytes (.er list))
  cases e
  refine Flow.meets_andThen (acceptHeader_meets ofStorage_protectionIs hs _ (ackWait_meets ofStorage_protectionIs hs _))
    fun u hu => Flow.meets_andThen (erNumberStage_protectionIs (s := receiveNumber (erNumber list) u) hu) fun v hv => ?_
  cases list with
  | none => exact hv
  | some l => exact erFrameStage_protectionIs (s := receiveBody l.1 l.2 v) hv

end

/-- Settles O59: write-memory away from the option bytes and erase write memory only, and the others leave the whole storage as it
is. -/
theorem otherCommandsKeepTheProtectionStatus : Obligations.OtherCommandsKeepTheProtectionStatus := by
  unfold Obligations.OtherCommandsKeepTheProtectionStatus
  intro i s t hi hwp hwm e
  have hkept : t.protectionIs (s.rop, s.wrp) := by
    cases i with
    | wm a x ps y => exact execWm_protectionIs rfl (fun ha => hwm x ps y (by rw [ha])) e
    | er list => exact execEr_protectionIs rfl e
    | _ => exact exec_meets_of_not_storing ofStorage_protectionIs rfl (by simp) (by simp) hwp hi e
  exact Prod.mk.inj hkept

end Sys2Proof.Machine
end

section
/-! PROOFS. Error entry in the command loop (spec/60_exceptions.md R134, R140) and the reset sequence
(spec/70_reset_and_hazards.md R150, R152). -/

namespace Sys2Proof.Machine

/-! ## Error entry (R134, R140) -/

/-- The errors that leave the session open: all but a failed handshake, and a timeout at the header under
`CMD_TIMEOUT_MODE = end` (R110, R111). -/
theorem endsSession_eq_false {s : State} {e : ProtocolError} (he : e ≠ .initFailed)
    (ht : e = .timeout → s.cs ≠ .cmdOp ∧ s.cs ≠ .cmdCp ∨ s.cfg.cmdTimeoutMode = .proceed) : endsSession s e = false := by
  cases e with
  | initFailed => exact absurd rfl he
  | timeout =>
    rw [Bool.eq_false_iff, ne_eq, endsSession_timeout_iff]
    rintro ⟨hheader, hfinish⟩
    obtain ⟨hop, hcp⟩ | hproceed := ht rfl
    · exact hheader.elim hop hcp
    · rw [hfinish] at hproceed
      cases hproceed
  | _ => rfl

/-- Settles O47: an error that leaves the session open sends its reply and ends the command. -/
theorem errorsAreLocalToTheCommand : Obligations.ErrorsAreLocalToTheCommand := by
  unfold Obligations.ErrorsAreLocalToTheCommand
  intro s e h he ht
  have hentry : takeError e s = .stop (endCommand (s.sent (errorReply s.cfg e))) := by
    rw [takeError_eq (State.canSend_mono h (errorReply_length _ _)), endsSession_eq_false he ht, if_neg Bool.false_ne_true]
  rw [hentry]
  cases e <;> rfl

/-! ## The reset sequence (R150, R152) -/

/-- The two vectors of the application lie in class `Flash`, which has storage under every parameter (R39, R150). -/
theorem storedFrom_flashBase (s : State) : storedFrom s 0x08006000 8 := by
  intro j hj
  have hbase : (0x08006000 : Addr).toNat = 0x08006000 := rfl
  rw [addrPlus_toNat (by omega)]
  exact hasStorage_of_flash _ (by omega) (by omega)

/-- At `BOOT` a step is the reset sequence, whatever the script holds (R149). -/
theorem step_boot {s : State} (hcs : s.cs = .boot) : step s = .next (bootSequence s).state := by
  simp only [step, stepWith, hcs]

/-- The pin or a software reset keeps the block in the bootloader (R150). -/
theorem bootSequence_stays {s : State} (h : s.bootPin = true ∨ s.swrf = true) :
    bootSequence s = .stop { s with swrf := false, cs := .awaitInit } :=
  if_pos ((Bool.or_eq_true _ _).mpr h)

/-- Without either it hands off to `FLASH_BASE`, with `SWRF` cleared (R150). -/
theorem bootSequence_leaves {s : State} (hpin : s.bootPin = false) (hswrf : s.swrf = false) :
    bootSequence s = handoff 0x08006000 { s with swrf := false } := by
  rw [bootSequence, hpin, hswrf]
  rfl

/-- Settles O49: the step is the reset sequence, and its hand-off finds both vectors stored. -/
theorem resetSequenceDecides : Obligations.ResetSequenceDecides := by
  unfold Obligations.ResetSequenceDecides
  intro s hcs
  refine ⟨fun hstay => ?_, fun hpin hswrf => ?_⟩
  · rw [step_boot hcs, bootSequence_stays hstay, Flow.state_stop]
  · obtain ⟨sp, entry, hoff, hvec⟩ := handoff_stored (storedFrom_flashBase { s with swrf := false })
    refine ⟨sp, entry, ?_, hvec⟩
    rw [step_boot hcs, bootSequence_leaves hpin hswrf, hoff, Flow.state_stop]

end Sys2Proof.Machine
end
